-- ==== Sys2Proof/Word.lean ====
section
/-!
DEFINITION. The widths of the block's values (spec/00_scope.md R6, R8). Every quantity is an unsigned integer of
fixed width; bit 0 is the least significant bit.
-/

namespace Sys2Proof

/-- One byte of memory. -/
abbrev Byte := BitVec 8
/-- A command word on the command port (R90). -/
abbrev CommandWord := BitVec 64
/-- Field `A` of a command word, bits [55:32] (R90). -/
abbrev AField := BitVec 24
/-- Field `D` of a command word, bits [31:0] (R90). -/
abbrev DField := BitVec 32
/-- An effective virtual address (R61); it is also an offset of the backing store (R63). -/
abbrev VirtualAddress := BitVec 20
/-- A physical address (R62). -/
abbrev PhysicalAddress := BitVec 16
/-- A virtual page number, 0 to 255 (R23). -/
abbrev PageNumber := BitVec 8
/-- A physical frame number, 0 to 15 (R32). -/
abbrev FrameNumber := BitVec 4
/-- An offset in a page or a frame (R61, R62). -/
abbrev Offset := BitVec 12
/-- The packed image of a page-table entry (R31). -/
abbrev PteImage := BitVec 16
/-- The packed image of a frame-table entry (R35). -/
abbrev FteImage := BitVec 9

end Sys2Proof
end

