-- ==== Sys2Proof/Syntax.lean ====
section
/-!
DEFINITION. The commands: one constructor for each of the 32 rows of spec/opcode_table.json (spec/30_encoding.md R100).

An operand is held as the FIELD the command word carries, so that no bit of a word is lost: address operands are the
24-bit field `A` with its ignored bits (R92, R93); page, frame, offset and count operands are the unsigned numbers the
fields hold (R94, R95, R96, R98); bytes and PTE images are bits (R97, R99). What a field means is
`Sys2Proof.Machine` (Operands.lean). DEDUCED, log 14; safe.
-/

namespace Sys2Proof

inductive Instr where
  /-- READ va, opcode 0x01, format V (R204). -/
  | read (a : AField)
  /-- READN va n, opcode 0x02, format VC (R205). -/
  | readn (a : AField) (n : Nat)
  /-- WRITE va v1, opcode 0x03, format VB1 (R206). -/
  | write (a : AField) (v1 : Byte)
  /-- WRITEW va v1 v2, opcode 0x04, format VB2 (R207). -/
  | writew (a : AField) (v1 v2 : Byte)
  /-- WRITEDW va v1 v2 v3 v4, opcode 0x05, format VB4 (R208). -/
  | writedw (a : AField) (v1 v2 v3 v4 : Byte)
  /-- WRITEZ va n, opcode 0x06, format VC (R209). -/
  | writez (a : AField) (n : Nat)
  /-- MEM_INIT, opcode 0x10, format N (R220). -/
  | memInit
  /-- MEM_DESTROY, opcode 0x11, format N (R221). -/
  | memDestroy
  /-- HALT, opcode 0x12, format N (R222). -/
  | halt
  /-- TICK, opcode 0x13, format N (R183). -/
  | tick
  /-- DECODE_VIRTUAL va, opcode 0x20, format V (R120). -/
  | decodeVirtual (a : AField)
  /-- ENCODE_VIRTUAL page offset, opcode 0x21, format PO (R121). -/
  | encodeVirtual (page offset : Nat)
  /-- DECODE_PHYSICAL pa, opcode 0x22, format PA (R122). -/
  | decodePhysical (a : AField)
  /-- ENCODE_PHYSICAL frame offset, opcode 0x23, format FO (R123). -/
  | encodePhysical (frame offset : Nat)
  /-- TRANSLATE va, opcode 0x24, format V (R170). -/
  | translate (a : AField)
  /-- PT_GET page, opcode 0x30, format P (R132). -/
  | ptGet (page : Nat)
  /-- PT_SET page pte, opcode 0x31, format PE (R133). -/
  | ptSet (page : Nat) (pte : PteImage)
  /-- PT_CLEAR page, opcode 0x32, format P (R134). -/
  | ptClear (page : Nat)
  /-- IS_UNMAPPED page, opcode 0x33, format P (R135). -/
  | isUnmapped (page : Nat)
  /-- IS_PRESENT page, opcode 0x34, format P (R136). -/
  | isPresent (page : Nat)
  /-- IS_DIRTY page, opcode 0x35, format P (R137). -/
  | isDirty (page : Nat)
  /-- IS_REFERENCED page, opcode 0x36, format P (R138). -/
  | isReferenced (page : Nat)
  /-- MARK_DIRTY page, opcode 0x37, format P (R139). -/
  | markDirty (page : Nat)
  /-- MARK_CLEAN page, opcode 0x38, format P (R140). -/
  | markClean (page : Nat)
  /-- MARK_REFERENCED page, opcode 0x39, format P (R141). -/
  | markReferenced (page : Nat)
  /-- MARK_UNREFERENCED page, opcode 0x3A, format P (R142). -/
  | markUnreferenced (page : Nat)
  /-- FIND_FREE_FRAME, opcode 0x40, format N (R152). -/
  | findFreeFrame
  /-- RESOLVE page, opcode 0x50, format P (R171). -/
  | resolve (page : Nat)
  /-- PTE_PAGE page, opcode 0x51, format P (R177). -/
  | ptePage (page : Nat)
  /-- EVICT page, opcode 0x52, format P (R191). -/
  | evict (page : Nat)
  /-- LOAD page, opcode 0x53, format P (R193). -/
  | load (page : Nat)
  /-- CHOOSE_VICTIM, opcode 0x54, format N (R180). -/
  | chooseVictim
deriving DecidableEq, Repr

end Sys2Proof
end

