-- ==== Sys2Proof/WellFormed.lean ====
section
/-!
DEFINITION. When a command term can be written as a command word: each number operand fits its field (spec/30_encoding.md
R90, R91). It is no check of ranges the block itself reports (a page operand of 256 is well-formed and is refused when
it is executed, R94).
-/

namespace Sys2Proof

/-- The number fits field `A`, 24 bits (R90). -/
def fitsA (x : Nat) : Bool := decide (x < 2 ^ 24)

/-- The number fits field `D`, 32 bits (R90). -/
def fitsD (x : Nat) : Bool := decide (x < 2 ^ 32)

/-- Every number operand fits the field its format gives it (R91). -/
def Instr.wellFormed : Instr → Bool
  | .read _ => true
  | .readn _ n => fitsD n
  | .write _ _ => true
  | .writew _ _ _ => true
  | .writedw _ _ _ _ _ => true
  | .writez _ n => fitsD n
  | .memInit => true
  | .memDestroy => true
  | .halt => true
  | .tick => true
  | .decodeVirtual _ => true
  | .encodeVirtual page offset => fitsA page && fitsD offset
  | .decodePhysical _ => true
  | .encodePhysical frame offset => fitsA frame && fitsD offset
  | .translate _ => true
  | .ptGet page => fitsA page
  | .ptSet page _ => fitsA page
  | .ptClear page => fitsA page
  | .isUnmapped page => fitsA page
  | .isPresent page => fitsA page
  | .isDirty page => fitsA page
  | .isReferenced page => fitsA page
  | .markDirty page => fitsA page
  | .markClean page => fitsA page
  | .markReferenced page => fitsA page
  | .markUnreferenced page => fitsA page
  | .findFreeFrame => true
  | .resolve page => fitsA page
  | .ptePage page => fitsA page
  | .evict page => fitsA page
  | .load page => fitsA page
  | .chooseVictim => true

end Sys2Proof
end

