-- ==== Sys2Proof/Decode.lean ====
section
/-!
DEFINITION. The decoder of command words, total on 64-bit words and rejecting by name, then the encoder
(spec/30_encoding.md R90 to R100, R103; spec/opcode_table.json).
-/

namespace Sys2Proof

/-- The opcode, bits [63:56] (R90). -/
def opField (w : CommandWord) : BitVec 8 := w.extractLsb' 56 8

/-- Field `A`, bits [55:32] (R90). -/
def aField (w : CommandWord) : AField := w.extractLsb' 32 24

/-- Field `D`, bits [31:0] (R90). -/
def dField (w : CommandWord) : DField := w.extractLsb' 0 32

/-- Why a word is no command; both are the one failure `IllegalCommand` at the port (R236). -/
inductive DecodeError where
  /-- The opcode is none of the 32 of R100. -/
  | unassignedOpcode (op : BitVec 8)
  /-- The opcode is assigned and a must-be-zero bit of its format is one (R91). -/
  | mustBeZero (op : BitVec 8)
deriving DecidableEq, Repr

/-- Byte `k` of field `D`, byte 0 the least significant (R97). -/
def dByte (d : DField) (k : Nat) : Byte := d.extractLsb' (8 * k) 8

/-- The command if the format's must-be-zero bits are zero, else the rejection (R91). -/
def whenZero (op : BitVec 8) (zero : Bool) (i : Instr) : Except DecodeError Instr :=
  if zero then .ok i else .error (.mustBeZero op)

/-- Format N: `A` and `D` must be 0 (R91). -/
def formatN (w : CommandWord) (i : Instr) : Except DecodeError Instr :=
  whenZero (opField w) (aField w == 0 && dField w == 0) i

/-- Formats V and PA: an address in `A`, `D` must be 0 (R91). -/
def formatV (w : CommandWord) (f : AField → Instr) : Except DecodeError Instr :=
  whenZero (opField w) (dField w == 0) (f (aField w))

/-- Format VC: an address in `A`, a count in `D` (R91, R98). -/
def formatVC (w : CommandWord) (f : AField → Nat → Instr) : Except DecodeError Instr :=
  .ok (f (aField w) (dField w).toNat)

/-- Format VB1: one byte in `D[7:0]`, `D[31:8]` must be 0 (R91, R97). -/
def formatVB1 (w : CommandWord) (f : AField → Byte → Instr) : Except DecodeError Instr :=
  whenZero (opField w) ((dField w).extractLsb' 8 24 == 0) (f (aField w) (dByte (dField w) 0))

/-- Format VB2: two bytes in `D[15:0]`, `D[31:16]` must be 0 (R91, R97). -/
def formatVB2 (w : CommandWord) (f : AField → Byte → Byte → Instr) : Except DecodeError Instr :=
  whenZero (opField w) ((dField w).extractLsb' 16 16 == 0)
    (f (aField w) (dByte (dField w) 0) (dByte (dField w) 1))

/-- Format VB4: four bytes in `D` (R91, R97). -/
def formatVB4 (w : CommandWord) (f : AField → Byte → Byte → Byte → Byte → Instr) : Except DecodeError Instr :=
  .ok (f (aField w) (dByte (dField w) 0) (dByte (dField w) 1) (dByte (dField w) 2) (dByte (dField w) 3))

/-- Format P: a page number in `A`, `D` must be 0 (R91, R94). -/
def formatP (w : CommandWord) (f : Nat → Instr) : Except DecodeError Instr :=
  whenZero (opField w) (dField w == 0) (f (aField w).toNat)

/-- Format PE: a page number in `A`, a PTE image in `D[15:0]`, `D[31:16]` must be 0 (R91, R99). -/
def formatPE (w : CommandWord) (f : Nat → PteImage → Instr) : Except DecodeError Instr :=
  whenZero (opField w) ((dField w).extractLsb' 16 16 == 0) (f (aField w).toNat ((dField w).extractLsb' 0 16))

/-- Formats PO and FO: a page or frame number in `A`, an offset in `D` (R91, R95, R96). -/
def formatPO (w : CommandWord) (f : Nat → Nat → Instr) : Except DecodeError Instr :=
  .ok (f (aField w).toNat (dField w).toNat)

/-- The command a word stands for, by the opcode map of R100; a word that matches no row is rejected by name. -/
def decode (w : CommandWord) : Except DecodeError Instr :=
  match (opField w).toNat with
  | 0x01 => formatV w .read
  | 0x02 => formatVC w .readn
  | 0x03 => formatVB1 w .write
  | 0x04 => formatVB2 w .writew
  | 0x05 => formatVB4 w .writedw
  | 0x06 => formatVC w .writez
  | 0x10 => formatN w .memInit
  | 0x11 => formatN w .memDestroy
  | 0x12 => formatN w .halt
  | 0x13 => formatN w .tick
  | 0x20 => formatV w .decodeVirtual
  | 0x21 => formatPO w .encodeVirtual
  | 0x22 => formatV w .decodePhysical
  | 0x23 => formatPO w .encodePhysical
  | 0x24 => formatV w .translate
  | 0x30 => formatP w .ptGet
  | 0x31 => formatPE w .ptSet
  | 0x32 => formatP w .ptClear
  | 0x33 => formatP w .isUnmapped
  | 0x34 => formatP w .isPresent
  | 0x35 => formatP w .isDirty
  | 0x36 => formatP w .isReferenced
  | 0x37 => formatP w .markDirty
  | 0x38 => formatP w .markClean
  | 0x39 => formatP w .markReferenced
  | 0x3A => formatP w .markUnreferenced
  | 0x40 => formatN w .findFreeFrame
  | 0x50 => formatP w .resolve
  | 0x51 => formatP w .ptePage
  | 0x52 => formatP w .evict
  | 0x53 => formatP w .load
  | 0x54 => formatN w .chooseVictim
  | _ => .error (.unassignedOpcode (opField w))

/-- The word with opcode `op` and the fields `A` and `D` (R90). -/
def commandWord (op : BitVec 8) (a : AField) (d : DField) : CommandWord := op ++ a ++ d

/-- A number operand in field `A`. -/
def numberA (x : Nat) : AField := BitVec.ofNat 24 x

/-- A number operand in field `D`. -/
def numberD (x : Nat) : DField := BitVec.ofNat 32 x

/-- Four bytes packed in field `D`, the first in the least significant position (R97). -/
def packBytes (v1 v2 v3 v4 : Byte) : DField := v4 ++ v3 ++ v2 ++ v1

/-- The word of a command (R90, R91, R100); for a term that is not well-formed the number operands are cut to their
fields. -/
def encode : Instr → CommandWord
  | .read a => commandWord 0x01 a 0
  | .readn a n => commandWord 0x02 a (numberD n)
  | .write a v1 => commandWord 0x03 a (packBytes v1 0 0 0)
  | .writew a v1 v2 => commandWord 0x04 a (packBytes v1 v2 0 0)
  | .writedw a v1 v2 v3 v4 => commandWord 0x05 a (packBytes v1 v2 v3 v4)
  | .writez a n => commandWord 0x06 a (numberD n)
  | .memInit => commandWord 0x10 0 0
  | .memDestroy => commandWord 0x11 0 0
  | .halt => commandWord 0x12 0 0
  | .tick => commandWord 0x13 0 0
  | .decodeVirtual a => commandWord 0x20 a 0
  | .encodeVirtual page offset => commandWord 0x21 (numberA page) (numberD offset)
  | .decodePhysical a => commandWord 0x22 a 0
  | .encodePhysical frame offset => commandWord 0x23 (numberA frame) (numberD offset)
  | .translate a => commandWord 0x24 a 0
  | .ptGet page => commandWord 0x30 (numberA page) 0
  | .ptSet page pte => commandWord 0x31 (numberA page) (pte.zeroExtend 32)
  | .ptClear page => commandWord 0x32 (numberA page) 0
  | .isUnmapped page => commandWord 0x33 (numberA page) 0
  | .isPresent page => commandWord 0x34 (numberA page) 0
  | .isDirty page => commandWord 0x35 (numberA page) 0
  | .isReferenced page => commandWord 0x36 (numberA page) 0
  | .markDirty page => commandWord 0x37 (numberA page) 0
  | .markClean page => commandWord 0x38 (numberA page) 0
  | .markReferenced page => commandWord 0x39 (numberA page) 0
  | .markUnreferenced page => commandWord 0x3A (numberA page) 0
  | .findFreeFrame => commandWord 0x40 0 0
  | .resolve page => commandWord 0x50 (numberA page) 0
  | .ptePage page => commandWord 0x51 (numberA page) 0
  | .evict page => commandWord 0x52 (numberA page) 0
  | .load page => commandWord 0x53 (numberA page) 0
  | .chooseVictim => commandWord 0x54 0 0

/-- A row of the opcode table: the word `w` selects the command whose `w AND mask` is `opcode << 56` (R91, R100). -/
structure OpcodeRow where
  mnemonic : String
  opcode : BitVec 8
  mask : CommandWord
deriving DecidableEq, Repr

/-- The word a row's masked bits must equal (R91). -/
def OpcodeRow.pattern (r : OpcodeRow) : CommandWord := r.opcode ++ (0 : BitVec 56)

/-- The row selects the word (R91). -/
def OpcodeRow.selects (r : OpcodeRow) (w : CommandWord) : Bool := w &&& r.mask == r.pattern

/-- The 32 rows with their format's mask, written from the tables of R91 and R100 and independently of `decode`. -/
def opcodeTable : List OpcodeRow :=
  [ ⟨"READ", 0x01, 0xFF000000FFFFFFFF⟩, ⟨"READN", 0x02, 0xFF00000000000000⟩,
    ⟨"WRITE", 0x03, 0xFF000000FFFFFF00⟩, ⟨"WRITEW", 0x04, 0xFF000000FFFF0000⟩,
    ⟨"WRITEDW", 0x05, 0xFF00000000000000⟩, ⟨"WRITEZ", 0x06, 0xFF00000000000000⟩,
    ⟨"MEM_INIT", 0x10, 0xFFFFFFFFFFFFFFFF⟩, ⟨"MEM_DESTROY", 0x11, 0xFFFFFFFFFFFFFFFF⟩,
    ⟨"HALT", 0x12, 0xFFFFFFFFFFFFFFFF⟩, ⟨"TICK", 0x13, 0xFFFFFFFFFFFFFFFF⟩,
    ⟨"DECODE_VIRTUAL", 0x20, 0xFF000000FFFFFFFF⟩, ⟨"ENCODE_VIRTUAL", 0x21, 0xFF00000000000000⟩,
    ⟨"DECODE_PHYSICAL", 0x22, 0xFF000000FFFFFFFF⟩, ⟨"ENCODE_PHYSICAL", 0x23, 0xFF00000000000000⟩,
    ⟨"TRANSLATE", 0x24, 0xFF000000FFFFFFFF⟩ ] ++
  [ ⟨"PT_GET", 0x30, 0xFF000000FFFFFFFF⟩, ⟨"PT_SET", 0x31, 0xFF000000FFFF0000⟩,
    ⟨"PT_CLEAR", 0x32, 0xFF000000FFFFFFFF⟩, ⟨"IS_UNMAPPED", 0x33, 0xFF000000FFFFFFFF⟩,
    ⟨"IS_PRESENT", 0x34, 0xFF000000FFFFFFFF⟩, ⟨"IS_DIRTY", 0x35, 0xFF000000FFFFFFFF⟩,
    ⟨"IS_REFERENCED", 0x36, 0xFF000000FFFFFFFF⟩, ⟨"MARK_DIRTY", 0x37, 0xFF000000FFFFFFFF⟩,
    ⟨"MARK_CLEAN", 0x38, 0xFF000000FFFFFFFF⟩, ⟨"MARK_REFERENCED", 0x39, 0xFF000000FFFFFFFF⟩,
    ⟨"MARK_UNREFERENCED", 0x3A, 0xFF000000FFFFFFFF⟩ ] ++
  [ ⟨"FIND_FREE_FRAME", 0x40, 0xFFFFFFFFFFFFFFFF⟩, ⟨"RESOLVE", 0x50, 0xFF000000FFFFFFFF⟩,
    ⟨"PTE_PAGE", 0x51, 0xFF000000FFFFFFFF⟩, ⟨"EVICT", 0x52, 0xFF000000FFFFFFFF⟩,
    ⟨"LOAD", 0x53, 0xFF000000FFFFFFFF⟩, ⟨"CHOOSE_VICTIM", 0x54, 0xFFFFFFFFFFFFFFFF⟩ ]

/-- The mnemonic of a command (R100). -/
def Instr.mnemonic : Instr → String
  | .read _ => "READ"
  | .readn _ _ => "READN"
  | .write _ _ => "WRITE"
  | .writew _ _ _ => "WRITEW"
  | .writedw _ _ _ _ _ => "WRITEDW"
  | .writez _ _ => "WRITEZ"
  | .memInit => "MEM_INIT"
  | .memDestroy => "MEM_DESTROY"
  | .halt => "HALT"
  | .tick => "TICK"
  | .decodeVirtual _ => "DECODE_VIRTUAL"
  | .encodeVirtual _ _ => "ENCODE_VIRTUAL"
  | .decodePhysical _ => "DECODE_PHYSICAL"
  | .encodePhysical _ _ => "ENCODE_PHYSICAL"
  | .translate _ => "TRANSLATE"
  | .ptGet _ => "PT_GET"
  | .ptSet _ _ => "PT_SET"
  | .ptClear _ => "PT_CLEAR"
  | .isUnmapped _ => "IS_UNMAPPED"
  | .isPresent _ => "IS_PRESENT"
  | .isDirty _ => "IS_DIRTY"
  | .isReferenced _ => "IS_REFERENCED"
  | .markDirty _ => "MARK_DIRTY"
  | .markClean _ => "MARK_CLEAN"
  | .markReferenced _ => "MARK_REFERENCED"
  | .markUnreferenced _ => "MARK_UNREFERENCED"
  | .findFreeFrame => "FIND_FREE_FRAME"
  | .resolve _ => "RESOLVE"
  | .ptePage _ => "PTE_PAGE"
  | .evict _ => "EVICT"
  | .load _ => "LOAD"
  | .chooseVictim => "CHOOSE_VICTIM"

/-- The instruction the decoder reads from the bits `w` of an instruction of `nbits` bits, every bit above `nbits`
zero. A command is one 64-bit word (R90), so the bits are the word. -/
def decodeTableWord (nbits w : Nat) : Option Instr :=
  (decode (BitVec.ofNat 64 (w % 2 ^ nbits))).toOption

end Sys2Proof
end

