-- ==== Sys2Proof/Config.lean ====
section
/-!
DEFINITION. What is fixed for this hardware: the sizes of spec/00_scope.md R6, the one byte that an address not listed
in a memory reads as, and the free values (no body: nothing can be proved of a value of theirs).
-/

namespace Sys2Proof.Config

/-- `PAGE_SIZE`, bytes in a page and in a frame (R6). -/
abbrev pageSize : Nat := 4096
/-- `NUM_PAGES` (R6). -/
abbrev numPages : Nat := 256
/-- `NUM_FRAMES` (R6). -/
abbrev numFrames : Nat := 16
/-- `PM_SIZE`, bytes of physical memory (R6). -/
abbrev pmSize : Nat := 65536
/-- `BS_SIZE`, bytes of backing store (R6). -/
abbrev bsSize : Nat := 1048576

/-- What an address that a memory does not list reads as: 0x00, the value `MEM_INIT` gives every byte of `PM` and `BS`
(R48, R261). Before the first `MEM_INIT` the spec gives none: DESIGN CHOICE, unsafe, log 6. -/
def unlistedByte : Byte := 0x00#8

/-- Free value: the image of page `p`'s entry after contents have become unspecified for the `n`th time
(R22, R131, R260; 93_implementation_defined.md V1). DESIGN CHOICE of the form, log 7; safe. -/
opaque unspecifiedPte (n p : Nat) : PteImage

/-- Free value: the image of frame `f`'s entry after contents have become unspecified for the `n`th time
(R22, R151, R260; V1). DESIGN CHOICE of the form, log 7; safe. -/
opaque unspecifiedFte (n f : Nat) : FteImage

/-- Free value: the byte of physical memory at `a` after contents have become unspecified for the `n`th time
(R22, R221, R260; V1). DESIGN CHOICE of the form, log 7; safe. -/
opaque unspecifiedPmByte (n a : Nat) : Byte

/-- Free value: the byte of the backing store at `a` after a power-on reset (R37, R260; V2).
DESIGN CHOICE of the form, log 8; safe. -/
opaque unspecifiedBsByte (n a : Nat) : Byte

end Sys2Proof.Config
end

