-- ==== Sys2Proof/Machine/State.lean ====
section
/-!
DEFINITION. The machine's state as plain data (spec/10_state.md R20 to R48), what the environment offers it and what it
answers (spec/30_encoding.md R104, spec/42_frame_table_pm_bs.md R164), and the reasons a step can stop.
-/

namespace Sys2Proof.Machine

/-- The lifecycle mode (R21, R225). -/
inductive Mode where
  /-- No memory pool exists. -/
  | off
  /-- The pool exists. -/
  | run
  /-- A fatal failure happened; left only by power-on reset. -/
  | aborted
deriving DecidableEq, Repr

/-- A page-table entry: the six fields of R24 to R29. -/
structure Pte where
  /-- The 4-bit frame number (R24). -/
  frame : FrameNumber
  /-- Resident in a frame right now (R25). -/
  present : Bool
  /-- Assigned a frame since initialisation or the last clear (R26). -/
  mapped : Bool
  /-- Written since it was loaded (R27). -/
  dirty : Bool
  /-- Accessed recently (R28). -/
  referenced : Bool
  /-- The 8-bit ageing counter (R29). -/
  age : BitVec 8
deriving DecidableEq, Repr, Inhabited

/-- A frame-table entry (R33, R34). -/
structure Fte where
  /-- Some page is resident in the frame (R33). -/
  occupied : Bool
  /-- The page resident in the frame (R34). -/
  owner : PageNumber
deriving DecidableEq, Repr, Inhabited

/-- `PT`: one entry for each of the 256 pages (R23). -/
abbrev PageTable := Vector Pte 256

/-- `FT`: one entry for each of the 16 frames (R32). -/
abbrev FrameTable := Vector Fte 16

/-- A byte memory: (address, byte) pairs in one canonical form (`Memory.wf`), every unlisted address reading as
`Config.unlistedByte`. -/
abbrev Memory := List Host.Cell

/-- The complete state of the block: the tuple of R20. -/
structure Block where
  /-- The lifecycle mode (R21). -/
  mode : Mode
  /-- The page table (R23). -/
  pt : PageTable
  /-- The frame table (R32). -/
  ft : FrameTable
  /-- Physical memory, by 16-bit physical address (R36). -/
  pm : Memory
  /-- The backing store, by 20-bit store offset (R37). -/
  bs : Memory
deriving DecidableEq, Repr

/-- The environment's answer to one store operation (R164). -/
inductive IoAnswer where
  | ok
  | fail
deriving DecidableEq, Repr

/-- The environment's answers to the store operations of one command, in the order they are asked for: the listed ones,
then `rest` to every further one (R164, D19). DESIGN CHOICE, log 2; safe: a command asks finitely often. -/
structure IoAnswers where
  listed : List IoAnswer
  rest : IoAnswer
deriving DecidableEq, Repr

/-- The three operations of the backing store (R162, R163, R165). -/
inductive StoreOpKind where
  | create
  | read
  | write
deriving DecidableEq, Repr

/-- A store operation the block attempted: its kind, the page (0 for `create`) and the environment's answer (R164). -/
structure StoreOp where
  kind : StoreOpKind
  page : PageNumber
  answer : IoAnswer
deriving DecidableEq, Repr

/-- The status of a response (R231). -/
inductive Status where
  | ok
  | contractViolation
  | backingStoreUnavailable
  | illegalCommand
  | notInitialized
  | reinitMisuse
  | invariantViolation
deriving DecidableEq, Repr

/-- A response: the three fields of the 64-bit response word, and READN's byte list (R104, R105). -/
structure Response where
  status : Status
  info : BitVec 24
  value : BitVec 32
  data : List Byte
deriving DecidableEq, Repr

/-- What the environment presents to the block (R14, R260). DESIGN CHOICE of the form, log 1 and 8. -/
inductive PortEvent where
  /-- A command word on the command port, with the answers its store operations will get. -/
  | command (word : CommandWord) (answers : IoAnswers)
  /-- Power-on reset. -/
  | powerOn
deriving DecidableEq, Repr

/-- The block's state (`Block`, the spec's) and its ports (the model's own fields: `input`, `io`, `ops`, `resp`,
`freeCount`; INVENTORY.md, log 1, 2, 9, 10, 11). -/
structure State extends Block where
  /-- What the environment will present, first event first. -/
  input : List PortEvent
  /-- The answers to the store operations of the command in progress. -/
  io : IoAnswers
  /-- The store operations the last accepted command attempted, in order. -/
  ops : List StoreOp
  /-- The response to the last accepted command. -/
  resp : Option Response
  /-- How often contents have become unspecified: what the free values of Config are applied to. -/
  freeCount : Nat
deriving DecidableEq, Repr

/-- The failure kinds (R230 to R237). They are no stops of the machine: each is delivered as the status of a response. -/
inductive Failure where
  /-- R232. -/
  | contractViolation
  /-- R233; the page whose store operation failed. -/
  | backingStoreUnavailable (page : PageNumber)
  /-- R236. -/
  | illegalCommand
  /-- R237. -/
  | notInitialized
  /-- R234, fatal. -/
  | reinitMisuse
  /-- R235, fatal. -/
  | invariantViolation
deriving DecidableEq, Repr

/-- Why the machine stops. -/
inductive Fault where
  /-- A command word is offered in `mode = ABORTED`: the port accepts no word and gives no response, the step relation
  has no transition (R246; V7 "stuck"). Raised by every meaning and by the step on a command word in that mode. Safe. -/
  | notAccepted
deriving DecidableEq, Repr

/-- Why an instruction has no meaning in the model. -/
inductive Refusal where
  /-- The instruction of this mnemonic is not modelled. Raised by no arm: all 32 have their meaning. Safe. -/
  | notModelled (mnemonic : String)
deriving DecidableEq, Repr

/-- The all-zero entry of an unmapped page (R31, R130). -/
def Pte.zero : Pte := ⟨0, false, false, false, false, 0⟩

/-- The entry of a free frame (R34, R150). -/
def Fte.free : Fte := ⟨false, 0⟩

/-- The machine right after power-on: `mode` is `OFF` (R48, R260). The spec leaves everything else unspecified; the
tables and memories are given the values of `MEM_INIT` (DESIGN CHOICE, unsafe, log 5), no command is offered, every
store answer is `ok`, no response has been given (DESIGN CHOICE, log 1, 2, 9, 10, 11). -/
def State.reset : State where
  mode := .off
  pt := Vector.replicate 256 Pte.zero
  ft := Vector.replicate 16 Fte.free
  pm := []
  bs := []
  input := []
  io := ⟨[], .ok⟩
  ops := []
  resp := none
  freeCount := 0

end Sys2Proof.Machine
end

