-- ==== Sys2Proof/Machine/Flags.lean ====
section
/-!
DEFINITION. The status bits of the page table and the frame table: the entries that the operations write, the packed
images (spec/10_state.md R24 to R35) and the status codes of responses (spec/60_exceptions.md R231).
-/

namespace Sys2Proof.Machine

/-- The packed image: frame [3:0], present 4, mapped 5, dirty 6, referenced 7, age [15:8] (R31). -/
def Pte.image (e : Pte) : PteImage :=
  e.age ++ BitVec.ofBool e.referenced ++ BitVec.ofBool e.dirty ++ BitVec.ofBool e.mapped ++ BitVec.ofBool e.present
    ++ e.frame

/-- The entry with a packed image (R31). -/
def Pte.ofImage (b : PteImage) : Pte where
  frame := b.extractLsb' 0 4
  present := b.getLsbD 4
  mapped := b.getLsbD 5
  dirty := b.getLsbD 6
  referenced := b.getLsbD 7
  age := b.extractLsb' 8 8

/-- The packed image of a frame-table entry: owner [7:0], occupied 8 (R35). -/
def Fte.image (e : Fte) : FteImage := BitVec.ofBool e.occupied ++ e.owner

/-- The frame-table entry with a packed image (R35). -/
def Fte.ofImage (b : FteImage) : Fte where
  occupied := b.getLsbD 8
  owner := b.extractLsb' 0 8

/-- What `set` installs: the operand with `mapped` forced to 1 (R133). -/
def Pte.installed (b : PteImage) : Pte := { Pte.ofImage b with mapped := true }

/-- The fresh entry of branch 1: mapped to frame `f`, every other field 0 (R172). -/
def Pte.fresh (f : FrameNumber) : Pte := { Pte.zero with frame := f, mapped := true }

/-- The entry after an eviction: `mapped` set and `frame` kept, every other field 0 (R190). -/
def Pte.evicted (e : Pte) : Pte := { Pte.zero with frame := e.frame, mapped := true }

/-- The entry after the remap of branch 3: `frame` and `mapped` written, nothing else (R171, R174). -/
def Pte.remapped (e : Pte) (f : FrameNumber) : Pte := { e with frame := f, mapped := true }

/-- The entry after a load: present, clean, not referenced; `frame`, `mapped`, `age` kept (R192). -/
def Pte.loaded (e : Pte) : Pte := { e with present := true, dirty := false, referenced := false }

/-- `mark_dirty` (R139). -/
def Pte.markDirty (e : Pte) : Pte := { e with dirty := true }

/-- `mark_clean` (R140). -/
def Pte.markClean (e : Pte) : Pte := { e with dirty := false }

/-- `mark_referenced`: the bit set, 0x80 ORed into `age` (R141). -/
def Pte.markReferenced (e : Pte) : Pte := { e with referenced := true, age := e.age ||| 0x80#8 }

/-- `mark_unreferenced`: the bit cleared, `age` shifted right by one, logically (R142). -/
def Pte.markUnreferenced (e : Pte) : Pte := { e with referenced := false, age := e.age >>> 1 }

/-- `mark_occupied` (R153). -/
def Fte.taken (p : PageNumber) : Fte := ⟨true, p⟩

/-- One flag as a result value (R135 to R138). -/
def flagValue (b : Bool) : BitVec 32 := (BitVec.ofBool b).zeroExtend 32

/-- The status code (R231). -/
def Status.code : Status → BitVec 8
  | .ok => 0x00
  | .contractViolation => 0x01
  | .backingStoreUnavailable => 0x02
  | .illegalCommand => 0x03
  | .notInitialized => 0x04
  | .reinitMisuse => 0xF0
  | .invariantViolation => 0xF1

/-- The status that reports a failure (R231). -/
def Failure.status : Failure → Status
  | .contractViolation => .contractViolation
  | .backingStoreUnavailable _ => .backingStoreUnavailable
  | .illegalCommand => .illegalCommand
  | .notInitialized => .notInitialized
  | .reinitMisuse => .reinitMisuse
  | .invariantViolation => .invariantViolation

/-- What the response's `info` field records: the page whose store operation failed, else 0 (R241). -/
def Failure.info : Failure → BitVec 24
  | .backingStoreUnavailable p => p.zeroExtend 24
  | .contractViolation => 0
  | .illegalCommand => 0
  | .notInitialized => 0
  | .reinitMisuse => 0
  | .invariantViolation => 0

/-- The failure ends the run: `mode` becomes `ABORTED` (R230, R231). -/
def Failure.fatal : Failure → Bool
  | .reinitMisuse => true
  | .invariantViolation => true
  | .contractViolation => false
  | .backingStoreUnavailable _ => false
  | .illegalCommand => false
  | .notInitialized => false

/-- The 64-bit response word: status [63:56], info [55:32], value [31:0] (R104). -/
def Response.word (r : Response) : BitVec 64 := r.status.code ++ r.info ++ r.value

end Sys2Proof.Machine
end

