-- ==== Sys2Proof/Machine/Operands.lean ====
section
/-!
DEFINITION. What the operand fields of a command mean (spec/30_encoding.md R92 to R99), and the address codec's pure
functions (spec/40_address_codec.md R120 to R126).
-/

namespace Sys2Proof.Machine

/-- Virtual-address operand: `A[19:0]`, bits [23:20] ignored (R92). -/
def virtualAddress (a : AField) : VirtualAddress := a.extractLsb' 0 20

/-- Physical-address operand: `A[15:0]`, bits [23:16] ignored (R93). -/
def physicalAddress (a : AField) : PhysicalAddress := a.extractLsb' 0 16

/-- Page operand: none when 256 or more, a `ContractViolation` (R94). -/
def pageOperand (x : Nat) : Option PageNumber :=
  if x < Config.numPages then some (BitVec.ofNat 8 x) else none

/-- Frame operand: none when 16 or more, a `ContractViolation` (R95). -/
def frameOperand (x : Nat) : Option FrameNumber :=
  if x < Config.numFrames then some (BitVec.ofNat 4 x) else none

/-- Offset operand: none when 4096 or more, a `ContractViolation` (R96). -/
def offsetOperand (x : Nat) : Option Offset :=
  if x < Config.pageSize then some (BitVec.ofNat 12 x) else none

/-- `decode_virtual`, the page number: bits [19:12] (R120). -/
def pageOf (va : VirtualAddress) : PageNumber := va.extractLsb' 12 8

/-- `decode_virtual`, the offset: bits [11:0] (R120). -/
def offsetOf (va : VirtualAddress) : Offset := va.extractLsb' 0 12

/-- `encode_virtual`: the page above the offset (R121). -/
def encodeVirtual (page : PageNumber) (offset : Offset) : VirtualAddress := page ++ offset

/-- `decode_physical`, the frame number: bits [15:12] (R122). -/
def frameOf (pa : PhysicalAddress) : FrameNumber := pa.extractLsb' 12 4

/-- `decode_physical`, the offset: bits [11:0] (R122). -/
def physicalOffsetOf (pa : PhysicalAddress) : Offset := pa.extractLsb' 0 12

/-- `encode_physical`: the frame above the offset (R123). -/
def encodePhysical (frame : FrameNumber) (offset : Offset) : PhysicalAddress := frame ++ offset

/-- The address of the next byte of a multi-byte command, modulo 2^20 (R80, R202). -/
def nextAddress (va : VirtualAddress) : VirtualAddress := va + 1

/-- The store offset of page `p`'s image, `p * 4096` (R37, R63). -/
def storeBase (p : PageNumber) : Nat := p.toNat * Config.pageSize

/-- The physical address of frame `f`'s first byte (R62). -/
def frameBase (f : FrameNumber) : Nat := f.toNat * Config.pageSize

/-- Every page number, ascending: the order of every scan of the page table (R180, R183, R222). -/
def allPages : List PageNumber := (List.range 256).map (BitVec.ofNat 8)

/-- Every frame number, ascending: the order of the free-frame scan (R152). -/
def allFrames : List FrameNumber := (List.range 16).map (BitVec.ofNat 4)

end Sys2Proof.Machine
end

