-- ==== Sys2Proof/Machine/Ops.lean ====
section
/-!
DEFINITION. The named operations every meaning is built from: byte memories, the page and frame tables, the backing
store, victim choice, evict, load, resolve, the byte accesses and their loops, delivering a response or a failure, the
checks made before a command executes, releasing the pool, power-on reset.
-/

namespace Sys2Proof.Machine

/-! ### Byte memories -/

/-- The byte at an address; an unlisted address reads as `Config.unlistedByte`. -/
def Memory.read : Memory → Nat → Byte
  | [], _ => Config.unlistedByte
  | (k, v) :: m, a => if k = a then v else Memory.read m a

/-- Write one byte, keeping the canonical form: writing the value an unlisted address reads as removes the entry. -/
def Memory.write : Memory → Nat → Byte → Memory
  | [], a, v => if v = Config.unlistedByte then [] else [(a, v)]
  | (k, x) :: m, a, v =>
    if a < k then (if v = Config.unlistedByte then (k, x) :: m else (a, v) :: (k, x) :: m)
    else if a = k then (if v = Config.unlistedByte then m else (a, v) :: m)
    else (k, x) :: Memory.write m a v

/-- The canonical form: addresses strictly rising, no entry equal to what an unlisted address reads as. -/
def Memory.wf : Memory → Bool
  | [] => true
  | (k, v) :: m => v != Config.unlistedByte && m.all (fun c => decide (k < c.1)) && Memory.wf m

/-- Every listed address is below the size of the address space. -/
def Memory.below (size : Nat) (m : Memory) : Bool := m.all (fun c => decide (c.1 < size))

/-- The `len` bytes from `base` on, as a memory of addresses from 0. -/
def Memory.readBlock (m : Memory) (base len : Nat) : Memory :=
  (m.filter (fun c => decide (base ≤ c.1) && decide (c.1 < base + len))).map (fun c => (c.1 - base, c.2))

/-- Replace the `len` bytes from `base` on by the bytes of `data` from 0 on; no other byte changes. -/
def Memory.writeBlock (m : Memory) (base len : Nat) (data : Memory) : Memory :=
  m.filter (fun c => decide (c.1 < base))
    ++ (data.filter (fun c => decide (c.1 < len))).map (fun c => (c.1 + base, c.2))
    ++ m.filter (fun c => decide (base + len ≤ c.1))

/-- The memory of `size` bytes whose byte at `a` is `f a`. -/
def Memory.ofBytes (size : Nat) (f : Nat → Byte) : Memory :=
  ((List.range size).map (fun a => (a, f a))).filter (fun c => c.2 != Config.unlistedByte)

/-! ### The tables -/

/-- `PT[p]` (R23). -/
def State.pte (s : State) (p : PageNumber) : Pte := s.pt[p.toNat]'p.isLt

/-- `PT[p] <- e` (R9). -/
def State.setPte (s : State) (p : PageNumber) (e : Pte) : State := { s with pt := s.pt.set p.toNat e p.isLt }

/-- `FT[f]` (R32). -/
def State.fte (s : State) (f : FrameNumber) : Fte := s.ft[f.toNat]'f.isLt

/-- `FT[f] <- e` (R9). -/
def State.setFte (s : State) (f : FrameNumber) (e : Fte) : State := { s with ft := s.ft.set f.toNat e f.isLt }

/-- The same change to each of the 256 entries. -/
def mapTable (t : PageTable) (g : Pte → Pte) : PageTable := ⟨⟨t.toList.map g⟩, by simp⟩

/-- `mark_referenced(p)` on the state (R141). -/
def State.markReferenced (s : State) (p : PageNumber) : State := s.setPte p (s.pte p).markReferenced

/-- `find_free_frame`: the lowest-numbered unoccupied frame (R152). -/
def findFreeFrame (s : State) : Option FrameNumber := allFrames.find? (fun f => !(s.fte f).occupied)

/-- `mark_occupied(frame, page)` (R153). -/
def markOccupied (f : FrameNumber) (p : PageNumber) (s : State) : State := s.setFte f (Fte.taken p)

/-- `mark_free(frame)` (R154). -/
def markFree (f : FrameNumber) (s : State) : State := s.setFte f Fte.free

/-! ### The physical-memory frame multiplexer -/

/-- `MemRead(pa, 1)` (R156). -/
def memRead (pa : PhysicalAddress) (s : State) : Byte := Memory.read s.pm pa.toNat

/-- `MemWrite(pa, 1, v)` (R157). -/
def memWrite (pa : PhysicalAddress) (v : Byte) (s : State) : State := { s with pm := Memory.write s.pm pa.toNat v }

/-- `PMReadPage(f)`: the frame's 4096 bytes by offset (R158). -/
def pmReadPage (f : FrameNumber) (s : State) : Memory := Memory.readBlock s.pm (frameBase f) Config.pageSize

/-- `PMWritePage(f, data)` (R159). -/
def pmWritePage (f : FrameNumber) (data : Memory) (s : State) : State :=
  { s with pm := Memory.writeBlock s.pm (frameBase f) Config.pageSize data }

/-- `PMZero(f)`: every byte of the frame 0x00 (R160). -/
def pmZero (f : FrameNumber) (s : State) : State :=
  { s with pm := Memory.writeBlock s.pm (frameBase f) Config.pageSize [] }

/-! ### Operations that can fail -/

/-- What an operation that can fail answers: a value and the state, or the failure raised and the state with the writes
already made (R11, R244). -/
inductive Res (α : Type) where
  | ok (a : α) (s : State)
  | raise (k : Failure) (s : State)
deriving Repr

/-- Go on after an operation; a failure passes to the caller unchanged (R11). -/
def Res.bind {α β : Type} : Res α → (α → State → Res β) → Res β
  | .ok a s, f => f a s
  | .raise k s, _ => .raise k s

/-! ### The backing store -/

/-- The next answer of the environment and the answers left (R164). -/
def IoAnswers.next (x : IoAnswers) : IoAnswer × IoAnswers :=
  match x.listed with
  | [] => (x.rest, x)
  | b :: bs => (b, { x with listed := bs })

/-- One store operation is attempted: it consumes one answer and is recorded (R79, R164). -/
def State.attempt (s : State) (kind : StoreOpKind) (p : PageNumber) : State :=
  { s with io := s.io.next.2, ops := s.ops ++ [⟨kind, p, s.io.next.1⟩] }

/-- `BSRead(p)`: the page's 4096 bytes by offset, or `BackingStoreUnavailable(p)` with nothing changed (R162). -/
def bsRead (p : PageNumber) (s : State) : Res Memory :=
  match s.io.next.1 with
  | .ok => .ok (Memory.readBlock s.bs (storeBase p) Config.pageSize) (s.attempt .read p)
  | .fail => .raise (.backingStoreUnavailable p) (s.attempt .read p)

/-- The store with page `p`'s 4096 bytes replaced; no other byte of it changes (R163). -/
def storePage (p : PageNumber) (data : Memory) (s : State) : State :=
  { s with bs := Memory.writeBlock s.bs (storeBase p) Config.pageSize data }

/-- `BSWrite(p, data)`: the page's 4096 bytes replaced, or `BackingStoreUnavailable(p)` with nothing changed (R163). -/
def bsWrite (p : PageNumber) (data : Memory) (s : State) : Res Unit :=
  match s.io.next.1 with
  | .ok => .ok () (storePage p data (s.attempt .write p))
  | .fail => .raise (.backingStoreUnavailable p) (s.attempt .write p)

/-- `BSCreate()`: every byte of the store 0x00, or `BackingStoreUnavailable(0)` with nothing changed (R165). -/
def bsCreate (s : State) : Res Unit :=
  match s.io.next.1 with
  | .ok => .ok () { s.attempt .create 0 with bs := [] }
  | .fail => .raise (.backingStoreUnavailable 0) (s.attempt .create 0)

/-! ### Victim choice -/

/-- A candidate victim: mapped and present (R181). -/
def candidate (s : State) (q : PageNumber) : Bool := (s.pte q).mapped && (s.pte q).present

/-- One step of the victim scan: `q` replaces the best so far if it is a candidate and its age is strictly smaller, or
there is none yet (R180). -/
def betterVictim (s : State) (best : Option PageNumber) (q : PageNumber) : Option PageNumber :=
  if candidate s q then
    match best with
    | none => some q
    | some b => if (s.pte q).age < (s.pte b).age then some q else some b
  else best

/-- `choose_victim`: the candidate with the smallest age, the lowest page number on a tie; none where the spec raises
`InvariantViolation` (R180, R182). -/
def chooseVictim (s : State) : Option PageNumber := allPages.foldl (betterVictim s) none

/-! ### Evict, load, resolve -/

/-- The writes of `evict` after the write-back: the entry, the frame's bytes, the frame-table entry (R190). -/
def dropPage (p : PageNumber) (s : State) : State :=
  markFree (s.pte p).frame (pmZero (s.pte p).frame (s.setPte p (s.pte p).evicted))

/-- `evict(p)`: nothing if the page is not present; else write back if dirty, then drop the page (R190). -/
def evict (p : PageNumber) (s : State) : Res Unit :=
  if (s.pte p).present then
    if (s.pte p).dirty then
      (bsWrite p (pmReadPage (s.pte p).frame s) s).bind fun _ s1 => .ok () (dropPage p s1)
    else .ok () (dropPage p s)
  else .ok () s

/-- The writes of `load` after the store read: the frame's bytes, the frame-table entry, the page-table entry (R192). -/
def fillFrame (p : PageNumber) (data : Memory) (s : State) : State :=
  (markOccupied (s.pte p).frame p (pmWritePage (s.pte p).frame data s)).setPte p (s.pte p).loaded

/-- `load(p)`: the store image into the frame the entry names; nothing is checked (R192). -/
def load (p : PageNumber) (s : State) : Res Unit :=
  (bsRead p s).bind fun data s1 => .ok () (fillFrame p data s1)

/-- `replace(p)`: choose a victim, evict it, remap the page to its frame, load it (R171, R174). -/
def replace (p : PageNumber) (s : State) : Res Unit :=
  match chooseVictim s with
  | none => .raise .invariantViolation s
  | some v => (evict v s).bind fun _ s1 => load p (s1.setPte p ((s1.pte p).remapped (s.pte v).frame))

/-- The three branches of `resolve` (R171 to R175). -/
def makeResident (p : PageNumber) (s : State) : Res Unit :=
  if (s.pte p).mapped then
    if (s.pte p).present then .ok () s
    else if (s.fte (s.pte p).frame).occupied then replace p s
    else load p s
  else
    match findFreeFrame s with
    | some f => load p (s.setPte p (Pte.fresh f))
    | none => replace p s

/-- `resolve(p)`: a branch, then the page is marked referenced and its frame number returned (R171, R176). -/
def resolve (p : PageNumber) (s : State) : Res FrameNumber :=
  (makeResident p s).bind fun _ s1 => .ok ((s1.markReferenced p).pte p).frame (s1.markReferenced p)

/-- `pte_page(p)`: fault the page in if it is not present, return its frame number (R177). -/
def ptePage (p : PageNumber) (s : State) : Res FrameNumber :=
  if (s.pte p).present then .ok (s.pte p).frame s else resolve p s

/-- Evict pages in the order of a list, stopping at the first failure (R222). -/
def evictEach : List PageNumber → State → Res Unit
  | [], s => .ok () s
  | p :: ps, s => (evict p s).bind fun _ s1 => evictEach ps s1

/-! ### Byte accesses -/

/-- `read_byte(va)` (R200). -/
def readByte (va : VirtualAddress) (s : State) : Res Byte :=
  (ptePage (pageOf va) s).bind fun f s1 =>
    .ok (memRead (encodePhysical f (offsetOf va)) s1) (s1.markReferenced (pageOf va))

/-- The marks of a byte write: `dirty` set, then `mark_referenced` (R201). -/
def State.markWritten (s : State) (p : PageNumber) : State := s.setPte p (s.pte p).markDirty.markReferenced

/-- `write_byte(va, v)` (R201). -/
def writeByte (va : VirtualAddress) (v : Byte) (s : State) : Res Unit :=
  (ptePage (pageOf va) s).bind fun f s1 =>
    .ok () ((memWrite (encodePhysical f (offsetOf va)) v s1).markWritten (pageOf va))

/-- What a multi-byte loop answers: the bytes read and the state, or how many byte accesses were completed, the failure
and the state left (R203). -/
inductive LoopRes where
  | done (data : List Byte) (s : State)
  | stopped (completed : Nat) (k : Failure) (s : State)
deriving Repr

/-- Read `n` bytes from `va` on in ascending order, `completed` having been read already (the bytes of `acc`, last
first); stop at the first failure (R203). -/
def readLoop : Nat → VirtualAddress → Nat → List Byte → State → LoopRes
  | 0, _, _, acc, s => .done acc.reverse s
  | n + 1, va, completed, acc, s =>
    match readByte va s with
    | .ok b s1 => readLoop n (nextAddress va) (completed + 1) (b :: acc) s1
    | .raise k s1 => .stopped completed k s1

/-- Write the bytes of a list from `va` on in ascending order, `completed` having been written already; stop at the
first failure (R203). -/
def writeLoop : List Byte → VirtualAddress → Nat → State → LoopRes
  | [], _, _, s => .done [] s
  | v :: vs, va, completed, s =>
    match writeByte va v s with
    | .ok _ s1 => writeLoop vs (nextAddress va) (completed + 1) s1
    | .raise k s1 => .stopped completed k s1

/-! ### Delivering the response -/

/-- The response of a command that completed: status OK, `info` 0 (R104). -/
def deliverOk (value : BitVec 32) (data : List Byte) (s : State) : State := { s with resp := some ⟨.ok, 0, value, data⟩ }

/-- TAKING A FAILURE, the one shared operation: the response carries the status, `info` and the number of byte accesses
completed, `data` is empty, and a fatal kind sets `mode` to `ABORTED` (R231, R241, R243, R246). Nothing is saved, no
control is transferred, and there is no return from it (R243, R245). -/
def deliverFailure (k : Failure) (completed : Nat) (s : State) : State :=
  { s with
    mode := if k.fatal then .aborted else s.mode
    resp := some ⟨k.status, k.info, BitVec.ofNat 32 completed, []⟩ }

/-- Deliver what an operation answered; `value` is the result value (R100, R104, R241). -/
def deliver {α : Type} (value : α → State → BitVec 32) : Res α → Host.Outcome State Fault Refusal
  | .ok a s => .next (deliverOk (value a s) [] s)
  | .raise k s => .next (deliverFailure k 0 s)

/-- Deliver what a multi-byte loop answered (R203, R205, R241). -/
def deliverLoop (value : BitVec 32) : LoopRes → Host.Outcome State Fault Refusal
  | .done data s => .next (deliverOk value data s)
  | .stopped completed k s => .next (deliverFailure k completed s)

/-! ### The checks before a command executes (R103, R224, R242) -/

/-- A command accepted in `OFF` and `RUN`; in `ABORTED` the word is not accepted (R224, R246). -/
def whenAccepting (body : State → Host.Outcome State Fault Refusal) (s : State) : Host.Outcome State Fault Refusal :=
  match s.mode with
  | .off => body s
  | .run => body s
  | .aborted => .fault .notAccepted

/-- A command that needs the memory pool: `NotInitialized` in `OFF` (R224, R237). -/
def whenRunning (body : State → Host.Outcome State Fault Refusal) (s : State) : Host.Outcome State Fault Refusal :=
  match s.mode with
  | .off => .next (deliverFailure .notInitialized 0 s)
  | .run => body s
  | .aborted => .fault .notAccepted

/-- Go on with a checked operand, or `ContractViolation` (R94 to R96, R232). -/
def withOperand {α : Type} (x : Option α) (body : α → State → Host.Outcome State Fault Refusal) (s : State) :
    Host.Outcome State Fault Refusal :=
  match x with
  | some a => body a s
  | none => .next (deliverFailure .contractViolation 0 s)

/-- A command that needs the pool and has one page operand (R94, R103). -/
def withPage (page : Nat) (body : PageNumber → State → Host.Outcome State Fault Refusal) (s : State) :
    Host.Outcome State Fault Refusal :=
  whenRunning (withOperand (pageOperand page) body) s

/-! ### The pool's life (R130, R131, R150, R151, R220, R221) -/

/-- `PMZero` on every frame, `ft_alloc`, `pt_alloc`, `mode <- RUN`: `MEM_INIT` after the store is created (R220). -/
def createPool (s : State) : State :=
  { s with
    mode := .run
    pt := Vector.replicate 256 Pte.zero
    ft := Vector.replicate 16 Fte.free
    pm := [] }

/-- A page table of unspecified entries. -/
def unspecifiedPt (n : Nat) : PageTable :=
  ⟨⟨(List.range 256).map (fun p => Pte.ofImage (Config.unspecifiedPte n p))⟩, by simp⟩

/-- A frame table of unspecified entries. -/
def unspecifiedFt (n : Nat) : FrameTable :=
  ⟨⟨(List.range 16).map (fun f => Fte.ofImage (Config.unspecifiedFte n f))⟩, by simp⟩

/-- `ft_free`, `pt_free`, `PM` released, `mode <- OFF`: the tables and `PM` hold free values from then on
(R131, R151, R221; DESIGN CHOICE of the form, log 7; safe). -/
def releasePool (s : State) : State :=
  { s with
    mode := .off
    pt := unspecifiedPt s.freeCount
    ft := unspecifiedFt s.freeCount
    pm := Memory.ofBytes Config.pmSize (Config.unspecifiedPmByte s.freeCount)
    freeCount := s.freeCount + 1 }

/-- Power-on reset: `mode <- OFF`, everything else of the block unspecified, no response, no store operation
(R225, R246, R260; DESIGN CHOICE of the form, log 8; safe). -/
def powerOnReset (s : State) : State :=
  { releasePool s with
    bs := Memory.ofBytes Config.bsSize (Config.unspecifiedBsByte s.freeCount)
    ops := []
    resp := none }

/-! ### Accepting a command -/

/-- The port accepts the first event's command: it is taken from the input, its answers are the ones its store
operations will get (unused answers of the command before are gone), no store operation has been attempted yet
(R14, R164). -/
def acceptCommand (answers : IoAnswers) (later : List PortEvent) (s : State) : State :=
  { s with input := later, io := answers, ops := [] }

end Sys2Proof.Machine
end

