-- ==== Sys2Proof/Machine/ByteAccess.lean ====
section
/-!
DEFINITION. The byte-level access commands READ, READN, WRITE, WRITEW, WRITEDW, WRITEZ (spec/46_byte_access.md).
-/

namespace Sys2Proof.Machine

/-- READ va: one byte, zero-extended (R204). -/
def execRead (a : AField) (s : State) : Host.Outcome State Fault Refusal :=
  whenRunning (fun s => deliver (fun b _ => b.zeroExtend 32) (readByte (virtualAddress a) s)) s

/-- READN va n: `n` bytes from `va` on, in `data`; the value is `n` (R205). -/
def execReadn (a : AField) (n : Nat) (s : State) : Host.Outcome State Fault Refusal :=
  whenRunning (fun s => deliverLoop (BitVec.ofNat 32 n) (readLoop n (virtualAddress a) 0 [] s)) s

/-- WRITE va v1: one byte (R206). -/
def execWrite (a : AField) (v1 : Byte) (s : State) : Host.Outcome State Fault Refusal :=
  whenRunning (fun s => deliver (fun _ _ => 0) (writeByte (virtualAddress a) v1 s)) s

/-- WRITEW va v1 v2: two bytes sequentially (R207). -/
def execWritew (a : AField) (v1 v2 : Byte) (s : State) : Host.Outcome State Fault Refusal :=
  whenRunning (fun s => deliverLoop 0 (writeLoop [v1, v2] (virtualAddress a) 0 s)) s

/-- WRITEDW va v1 v2 v3 v4: four bytes sequentially (R208). -/
def execWritedw (a : AField) (v1 v2 v3 v4 : Byte) (s : State) : Host.Outcome State Fault Refusal :=
  whenRunning (fun s => deliverLoop 0 (writeLoop [v1, v2, v3, v4] (virtualAddress a) 0 s)) s

/-- WRITEZ va n: `n` zero bytes (R209). -/
def execWritez (a : AField) (n : Nat) (s : State) : Host.Outcome State Fault Refusal :=
  whenRunning (fun s => deliverLoop 0 (writeLoop (List.replicate n 0) (virtualAddress a) 0 s)) s

end Sys2Proof.Machine
end

