-- ==== Sys2Proof/Machine/Codec.lean ====
section
/-!
DEFINITION. The address codec commands DECODE_VIRTUAL, ENCODE_VIRTUAL, DECODE_PHYSICAL, ENCODE_PHYSICAL
(spec/40_address_codec.md), accepted in `OFF` as in `RUN` (spec/47_lifecycle.md R224), and TRANSLATE
(spec/43_translate_fault.md R170), which needs the pool.
-/

namespace Sys2Proof.Machine

/-- DECODE_VIRTUAL va: page in [19:12], offset in [11:0] (R120). -/
def execDecodeVirtual (a : AField) (s : State) : Host.Outcome State Fault Refusal :=
  whenAccepting
    (fun s =>
      .next (deliverOk ((pageOf (virtualAddress a) ++ offsetOf (virtualAddress a)).zeroExtend 32) [] s))
    s

/-- ENCODE_VIRTUAL page offset (R121). -/
def execEncodeVirtual (page offset : Nat) (s : State) : Host.Outcome State Fault Refusal :=
  whenAccepting
    (withOperand (pageOperand page) fun p =>
      withOperand (offsetOperand offset) fun o s => .next (deliverOk ((encodeVirtual p o).zeroExtend 32) [] s))
    s

/-- DECODE_PHYSICAL pa: frame in [15:12], offset in [11:0] (R122). -/
def execDecodePhysical (a : AField) (s : State) : Host.Outcome State Fault Refusal :=
  whenAccepting
    (fun s =>
      .next (deliverOk ((frameOf (physicalAddress a) ++ physicalOffsetOf (physicalAddress a)).zeroExtend 32) [] s))
    s

/-- ENCODE_PHYSICAL frame offset (R123). -/
def execEncodePhysical (frame offset : Nat) (s : State) : Host.Outcome State Fault Refusal :=
  whenAccepting
    (withOperand (frameOperand frame) fun f =>
      withOperand (offsetOperand offset) fun o s => .next (deliverOk ((encodePhysical f o).zeroExtend 32) [] s))
    s

/-- TRANSLATE va: the entry's frame number, present or not, with the offset (R170). -/
def execTranslate (a : AField) (s : State) : Host.Outcome State Fault Refusal :=
  whenRunning
    (fun s =>
      .next (deliverOk
        ((encodePhysical (s.pte (pageOf (virtualAddress a))).frame (offsetOf (virtualAddress a))).zeroExtend 32) [] s))
    s

end Sys2Proof.Machine
end

