-- ==== Sys2Proof/Machine/FaultPath.lean ====
section
/-!
DEFINITION. FIND_FREE_FRAME (spec/42_frame_table_pm_bs.md R152) and the fault path: RESOLVE, PTE_PAGE
(spec/43_translate_fault.md), EVICT, LOAD (spec/45_evict_load.md), CHOOSE_VICTIM (spec/44_replacement.md).
-/

namespace Sys2Proof.Machine

/-- The result value of FIND_FREE_FRAME: found in bit 4, the frame in [3:0]; 0 for none (R152). -/
def freeFrameValue : Option FrameNumber → BitVec 32
  | some f => (1#1 ++ f).zeroExtend 32
  | none => 0

/-- FIND_FREE_FRAME (R152). -/
def execFindFreeFrame (s : State) : Host.Outcome State Fault Refusal :=
  whenRunning (fun s => .next (deliverOk (freeFrameValue (findFreeFrame s)) [] s)) s

/-- RESOLVE page: the fault-handling entry point (R171). -/
def execResolve (page : Nat) (s : State) : Host.Outcome State Fault Refusal :=
  withPage page (fun p s => deliver (fun f _ => f.zeroExtend 32) (resolve p s)) s

/-- PTE_PAGE page: the frame now holding the page, faulted in if necessary (R177). -/
def execPtePage (page : Nat) (s : State) : Host.Outcome State Fault Refusal :=
  withPage page (fun p s => deliver (fun f _ => f.zeroExtend 32) (ptePage p s)) s

/-- EVICT page (R191). -/
def execEvict (page : Nat) (s : State) : Host.Outcome State Fault Refusal :=
  withPage page (fun p s => deliver (fun _ _ => 0) (evict p s)) s

/-- The two preconditions of the LOAD command: the page is mapped, and its frame is free or its own (R193). -/
def loadAllowed (p : PageNumber) (s : State) : Bool :=
  (s.pte p).mapped && !((s.fte (s.pte p).frame).occupied && (s.fte (s.pte p).frame).owner != p)

/-- LOAD page: refused when a precondition fails (R193). -/
def execLoad (page : Nat) (s : State) : Host.Outcome State Fault Refusal :=
  withPage page
    (fun p s =>
      if loadAllowed p s then deliver (fun _ _ => 0) (load p s)
      else .next (deliverFailure .contractViolation 0 s))
    s

/-- CHOOSE_VICTIM: the page the policy would evict; fatal when there is no candidate (R180, R182). -/
def execChooseVictim (s : State) : Host.Outcome State Fault Refusal :=
  whenRunning
    (fun s =>
      match chooseVictim s with
      | some v => .next (deliverOk (v.zeroExtend 32) [] s)
      | none => .next (deliverFailure .invariantViolation 0 s))
    s

end Sys2Proof.Machine
end

