-- ==== Sys2Proof/Machine/Lifecycle.lean ====
section
/-!
DEFINITION. The lifecycle commands MEM_INIT, MEM_DESTROY, HALT (spec/47_lifecycle.md) and TICK
(spec/44_replacement.md R183).
-/

namespace Sys2Proof.Machine

/-- MEM_INIT: fatal `ReinitMisuse` in `RUN`; in `OFF` the store is created, then the pool (R220). -/
def execMemInit (s : State) : Host.Outcome State Fault Refusal :=
  whenAccepting
    (fun s =>
      if s.mode = .run then .next (deliverFailure .reinitMisuse 0 s)
      else deliver (fun _ _ => 0) ((bsCreate s).bind fun _ s1 => .ok () (createPool s1)))
    s

/-- MEM_DESTROY: the pool is released, nothing is written back (R221). -/
def execMemDestroy (s : State) : Host.Outcome State Fault Refusal :=
  whenRunning (fun s => .next (deliverOk 0 [] (releasePool s))) s

/-- HALT: every page is evicted in ascending order, then the pool is released; a failed write-back stops it before the
release (R222). -/
def execHalt (s : State) : Host.Outcome State Fault Refusal :=
  whenRunning
    (fun s => deliver (fun _ _ => 0) ((evictEach allPages s).bind fun _ s1 => .ok () (releasePool s1)))
    s

/-- TICK: `mark_unreferenced` on every page (R183). -/
def execTick (s : State) : Host.Outcome State Fault Refusal :=
  whenRunning (fun s => .next (deliverOk 0 [] { s with pt := mapTable s.pt Pte.markUnreferenced })) s

end Sys2Proof.Machine
end

