-- ==== Sys2Proof/Machine/PageTableCommands.lean ====
section
/-!
DEFINITION. The page-table commands (spec/41_page_table.md): whole-entry access, predicates, mutators. Each has one
checked page operand and needs the pool.
-/

namespace Sys2Proof.Machine

/-- PT_GET page: the entry's image (R132). -/
def execPtGet (page : Nat) (s : State) : Host.Outcome State Fault Refusal :=
  withPage page (fun p s => .next (deliverOk ((s.pte p).image.zeroExtend 32) [] s)) s

/-- PT_SET page pte: the entry replaced, `mapped` forced to 1 (R133). -/
def execPtSet (page : Nat) (pte : PteImage) (s : State) : Host.Outcome State Fault Refusal :=
  withPage page (fun p s => .next (deliverOk 0 [] (s.setPte p (Pte.installed pte)))) s

/-- PT_CLEAR page: the entry zeroed, the prior image returned (R134). -/
def execPtClear (page : Nat) (s : State) : Host.Outcome State Fault Refusal :=
  withPage page (fun p s => .next (deliverOk ((s.pte p).image.zeroExtend 32) [] (s.setPte p Pte.zero))) s

/-- IS_UNMAPPED page (R135). -/
def execIsUnmapped (page : Nat) (s : State) : Host.Outcome State Fault Refusal :=
  withPage page (fun p s => .next (deliverOk (flagValue (!(s.pte p).mapped)) [] s)) s

/-- IS_PRESENT page (R136). -/
def execIsPresent (page : Nat) (s : State) : Host.Outcome State Fault Refusal :=
  withPage page (fun p s => .next (deliverOk (flagValue (s.pte p).present) [] s)) s

/-- IS_DIRTY page (R137). -/
def execIsDirty (page : Nat) (s : State) : Host.Outcome State Fault Refusal :=
  withPage page (fun p s => .next (deliverOk (flagValue (s.pte p).dirty) [] s)) s

/-- IS_REFERENCED page (R138). -/
def execIsReferenced (page : Nat) (s : State) : Host.Outcome State Fault Refusal :=
  withPage page (fun p s => .next (deliverOk (flagValue (s.pte p).referenced) [] s)) s

/-- MARK_DIRTY page (R139). -/
def execMarkDirty (page : Nat) (s : State) : Host.Outcome State Fault Refusal :=
  withPage page (fun p s => .next (deliverOk 0 [] (s.setPte p (s.pte p).markDirty))) s

/-- MARK_CLEAN page (R140). -/
def execMarkClean (page : Nat) (s : State) : Host.Outcome State Fault Refusal :=
  withPage page (fun p s => .next (deliverOk 0 [] (s.setPte p (s.pte p).markClean))) s

/-- MARK_REFERENCED page (R141). -/
def execMarkReferenced (page : Nat) (s : State) : Host.Outcome State Fault Refusal :=
  withPage page (fun p s => .next (deliverOk 0 [] (s.markReferenced p))) s

/-- MARK_UNREFERENCED page (R142). -/
def execMarkUnreferenced (page : Nat) (s : State) : Host.Outcome State Fault Refusal :=
  withPage page (fun p s => .next (deliverOk 0 [] (s.setPte p (s.pte p).markUnreferenced))) s

end Sys2Proof.Machine
end

