-- ==== Sys2Proof/Machine/Dispatch.lean ====
section
/-! DEFINITION. The dispatch: one arm for each command, each a direct call of its meaning. -/

namespace Sys2Proof.Machine

def exec (i : Instr) (s : State) : Host.Outcome State Fault Refusal :=
  match i with
  | .read a => Sys2Proof.Machine.execRead a s
  | .readn a n => Sys2Proof.Machine.execReadn a n s
  | .write a v1 => Sys2Proof.Machine.execWrite a v1 s
  | .writew a v1 v2 => Sys2Proof.Machine.execWritew a v1 v2 s
  | .writedw a v1 v2 v3 v4 => Sys2Proof.Machine.execWritedw a v1 v2 v3 v4 s
  | .writez a n => Sys2Proof.Machine.execWritez a n s
  | .memInit => Sys2Proof.Machine.execMemInit s
  | .memDestroy => Sys2Proof.Machine.execMemDestroy s
  | .halt => Sys2Proof.Machine.execHalt s
  | .tick => Sys2Proof.Machine.execTick s
  | .decodeVirtual a => Sys2Proof.Machine.execDecodeVirtual a s
  | .encodeVirtual page offset => Sys2Proof.Machine.execEncodeVirtual page offset s
  | .decodePhysical a => Sys2Proof.Machine.execDecodePhysical a s
  | .encodePhysical frame offset => Sys2Proof.Machine.execEncodePhysical frame offset s
  | .translate a => Sys2Proof.Machine.execTranslate a s
  | .ptGet page => Sys2Proof.Machine.execPtGet page s
  | .ptSet page pte => Sys2Proof.Machine.execPtSet page pte s
  | .ptClear page => Sys2Proof.Machine.execPtClear page s
  | .isUnmapped page => Sys2Proof.Machine.execIsUnmapped page s
  | .isPresent page => Sys2Proof.Machine.execIsPresent page s
  | .isDirty page => Sys2Proof.Machine.execIsDirty page s
  | .isReferenced page => Sys2Proof.Machine.execIsReferenced page s
  | .markDirty page => Sys2Proof.Machine.execMarkDirty page s
  | .markClean page => Sys2Proof.Machine.execMarkClean page s
  | .markReferenced page => Sys2Proof.Machine.execMarkReferenced page s
  | .markUnreferenced page => Sys2Proof.Machine.execMarkUnreferenced page s
  | .findFreeFrame => Sys2Proof.Machine.execFindFreeFrame s
  | .resolve page => Sys2Proof.Machine.execResolve page s
  | .ptePage page => Sys2Proof.Machine.execPtePage page s
  | .evict page => Sys2Proof.Machine.execEvict page s
  | .load page => Sys2Proof.Machine.execLoad page s
  | .chooseVictim => Sys2Proof.Machine.execChooseVictim s

end Sys2Proof.Machine
end

