-- ==== Sys2Proof/Machine/Step.lean ====
section
/-!
DEFINITION. One step: the first event of the input is taken. With none, the block idles (log 3). Power-on reset is taken
in every mode (R225, R260; log 8). A command word is not accepted in `ABORTED` (R246; log 4), is `IllegalCommand` when
it matches no row (R103, R236), and is executed otherwise.
-/

namespace Sys2Proof.Machine

/-- Run an accepted word: decode it, then execute it (R103). -/
def runWord (w : CommandWord) (s : State) : Host.Outcome State Fault Refusal :=
  match decode w with
  | .ok i => exec i s
  | .error _ => whenAccepting (fun s => .next (deliverFailure .illegalCommand 0 s)) s

/-- One step of the machine (R14, R103). -/
def step (s : State) : Host.Outcome State Fault Refusal :=
  match s.input with
  | [] => .next s
  | .powerOn :: later => .next (powerOnReset { s with input := later })
  | .command w answers :: later => runWord w (acceptCommand answers later s)

/-- `s` with the word `w` of `nbits` bits presented first on the command port, the answers of `s.io` with it: the very
next step runs it. It stands for the environment's offer of a command (log 1). -/
def State.withFetchWord (s : State) (nbits w : Nat) : State :=
  { s with input := .command (BitVec.ofNat 64 (w % 2 ^ nbits)) s.io :: s.input }

end Sys2Proof.Machine
end

