-- ==== Sys2Proof/Safety.lean ====
section
/-!
DEFINITION. What counts as a good state and a good run: the invariants INV1 to INV4 (spec/10_state.md R40 to R43), the
coherence invariants COH1 to COH4 (R44), the canonical form of the two memories, and the virtual memory a program sees
(spec/20_memory.md R72).
-/

namespace Sys2Proof.Machine

/-- Page `p` is resident in frame `f`. -/
def State.resident (s : State) (p : PageNumber) (f : FrameNumber) : Prop :=
  (s.pte p).present = true ∧ (s.pte p).frame = f

/-- INV1: present implies mapped (R40). -/
def State.inv1 (s : State) : Prop := ∀ p, (s.pte p).present = true → (s.pte p).mapped = true

/-- INV2: at most one page is resident in a frame (R41). -/
def State.inv2 (s : State) : Prop := ∀ f p q, s.resident p f → s.resident q f → p = q

/-- INV3: a frame is occupied exactly when one page, and no other, is resident in it (R42). -/
def State.inv3 (s : State) : Prop := ∀ f, (s.fte f).occupied = true ↔ ∃! p, s.resident p f

/-- INV4: the owner of an occupied frame is the page resident in it; a free frame's owner is 0 (R43). -/
def State.inv4 (s : State) : Prop :=
  ∀ f, ((s.fte f).occupied = true → s.resident (s.fte f).owner f) ∧
    ((s.fte f).occupied = false → (s.fte f).owner = 0)

/-- A well-formed state: INV1 to INV4 hold (R43). -/
structure State.WellFormed (s : State) : Prop where
  inv1 : s.inv1
  inv2 : s.inv2
  inv3 : s.inv3
  inv4 : s.inv4

/-- The store's byte at the offset of page `p`, offset `o` (R63). -/
def State.storeByte (s : State) (p : PageNumber) (o : Offset) : Byte := Memory.read s.bs (encodeVirtual p o).toNat

/-- The byte of frame `f` at offset `o`, `PM[f][o]` (R36). -/
def State.frameByte (s : State) (f : FrameNumber) (o : Offset) : Byte := memRead (encodePhysical f o) s

/-- COH1: a clean resident page equals its store image (R44). -/
def State.coh1 (s : State) : Prop :=
  ∀ p o, (s.pte p).present = true → (s.pte p).dirty = false → s.frameByte (s.pte p).frame o = s.storeByte p o

/-- COH2: a free frame is all zero (R44). -/
def State.coh2 (s : State) : Prop := ∀ f o, (s.fte f).occupied = false → s.frameByte f o = 0

/-- COH3: a dirty page is present (R44). -/
def State.coh3 (s : State) : Prop := ∀ p, (s.pte p).dirty = true → (s.pte p).present = true

/-- COH4: an unmapped entry is all zero (R44). -/
def State.coh4 (s : State) : Prop := ∀ p, (s.pte p).mapped = false → s.pte p = Pte.zero

/-- A coherent state: COH1 to COH4 hold (R44). -/
structure State.Coherent (s : State) : Prop where
  coh1 : s.coh1
  coh2 : s.coh2
  coh3 : s.coh3
  coh4 : s.coh4

/-- Both memories are in the canonical form and list only addresses that exist (R36, R37, R64). -/
structure State.MemoriesCanonical (s : State) : Prop where
  pm_wf : Memory.wf s.pm = true
  pm_below : Memory.below Config.pmSize s.pm = true
  bs_wf : Memory.wf s.bs = true
  bs_below : Memory.below Config.bsSize s.bs = true

/-- `VM(S, va)`: the byte of virtual memory a program sees (R72). -/
def State.vm (s : State) (va : VirtualAddress) : Byte :=
  if (s.pte (pageOf va)).present then s.frameByte (s.pte (pageOf va)).frame (offsetOf va)
  else s.storeByte (pageOf va) (offsetOf va)

/-- The command writes a page-table entry without the frame table, the one way a command can leave a state that is not
well-formed (R45, R273). -/
def forges : Instr → Bool
  | .ptSet _ _ => true
  | .ptClear _ => true
  | _ => false

/-- The commands after which the coherence invariants need not hold: those of R44, and MARK_REFERENCED, which on an
unmapped page leaves an entry that is not all zero (R141, S3), against COH4 (log 15). -/
def mayBreakCoherence : Instr → Bool
  | .ptSet _ _ => true
  | .ptClear _ => true
  | .markDirty _ => true
  | .markClean _ => true
  | .markReferenced _ => true
  | .load _ => true
  | _ => false

/-- A good state of the block: in `RUN` it is well-formed; in every mode its memories are canonical. -/
structure State.Good (s : State) : Prop where
  memories : s.MemoriesCanonical
  pool : s.mode = .run → s.WellFormed

/-- The state the memory abstraction of R73 is claimed for: well-formed and coherent, its memories canonical. -/
structure Sound (s : State) : Prop where
  canonical : s.MemoriesCanonical
  wellFormed : s.WellFormed
  coherent : s.Coherent

/-! ### What a command answers -/

/-- The response of a command that completed with a result value (R104). -/
def okResponse (value : Nat) (data : List Byte) : Option Response := some ⟨.ok, 0, BitVec.ofNat 32 value, data⟩

/-- The response of a command that failed (R241). -/
def failureResponse (status : Status) (info value : Nat) : Option Response :=
  some ⟨status, BitVec.ofNat 24 info, BitVec.ofNat 32 value, []⟩

/-- The status the state's response carries. -/
def State.hasStatus (s : State) (st : Status) : Prop := ∃ r, s.resp = some r ∧ r.status = st

/-! ### What a command leaves alone -/

/-- No byte of physical memory differs. -/
def FramesKept (s t : State) : Prop := ∀ f o, t.frameByte f o = s.frameByte f o

/-- No byte of the backing store differs. -/
def StoreKept (s t : State) : Prop := ∀ p o, t.storeByte p o = s.storeByte p o

/-- No frame-table entry differs. -/
def FrameTableKept (s t : State) : Prop := ∀ f, t.fte f = s.fte f

/-- The input and the free counter are untouched and no store operation was attempted. -/
structure PortsKept (s t : State) : Prop where
  input : t.input = s.input
  io : t.io = s.io
  ops : t.ops = s.ops
  freeCount : t.freeCount = s.freeCount

/-- Everything but the page table and the response is as before. -/
structure RestKept (s t : State) : Prop where
  mode : t.mode = s.mode
  frameTable : FrameTableKept s t
  frames : FramesKept s t
  store : StoreKept s t
  ports : PortsKept s t

/-- `n` answers taken from what the environment answers, in order (R164). -/
def IoAnswers.take : Nat → IoAnswers → List IoAnswer
  | 0, _ => []
  | n + 1, x => x.next.1 :: IoAnswers.take n x.next.2

/-- What is left of the environment's answers after `n` of them (R164). -/
def IoAnswers.drop : Nat → IoAnswers → IoAnswers
  | 0, x => x
  | n + 1, x => IoAnswers.drop n x.next.2

/-- Exactly the store operations `new` were attempted, in that order, each consuming the next answer (R79, R164); the
input and the free counter are untouched. -/
structure Asked (s t : State) (new : List StoreOp) : Prop where
  input : t.input = s.input
  freeCount : t.freeCount = s.freeCount
  ops : t.ops = s.ops ++ new
  io : t.io = s.io.drop new.length
  answers : new.map (·.answer) = s.io.take new.length

/-! ### What a page transfer does -/

/-- Page `p` is dropped from its frame: the entry keeps its frame number and `mapped`, the frame is zeroed and freed,
every other entry and frame is as before (R190). -/
structure PageDropped (s t : State) (p : PageNumber) : Prop where
  entry : t.pte p = ⟨(s.pte p).frame, false, true, false, false, 0⟩
  otherEntries : ∀ q, q ≠ p → t.pte q = s.pte q
  frame : t.fte (s.pte p).frame = ⟨false, 0⟩
  otherFrames : ∀ f, f ≠ (s.pte p).frame → t.fte f = s.fte f
  zeroed : ∀ o, t.frameByte (s.pte p).frame o = 0
  otherBytes : ∀ f o, f ≠ (s.pte p).frame → t.frameByte f o = s.frameByte f o

/-- The bytes of page `p`'s frame are the page's store image now; no other byte of the store differs (R163, R190). -/
structure PageWritten (s t : State) (p : PageNumber) : Prop where
  written : ∀ o, t.storeByte p o = s.frameByte (s.pte p).frame o
  otherPages : ∀ q o, q ≠ p → t.storeByte q o = s.storeByte q o

/-- Page `p`'s store image is in frame `f`, which it owns; `e` is its entry; every other entry, frame and the store are
as before (R192). -/
structure PageLoaded (s t : State) (p : PageNumber) (f : FrameNumber) (e : Pte) : Prop where
  entry : t.pte p = e
  otherEntries : ∀ q, q ≠ p → t.pte q = s.pte q
  frame : t.fte f = ⟨true, p⟩
  otherFrames : ∀ g, g ≠ f → t.fte g = s.fte g
  bytes : ∀ o, t.frameByte f o = s.storeByte p o
  otherBytes : ∀ g o, g ≠ f → t.frameByte g o = s.frameByte g o
  store : StoreKept s t

/-- Page `v` is a candidate victim: mapped and present (R181). -/
def State.isCandidate (s : State) (v : PageNumber) : Prop := (s.pte v).mapped = true ∧ (s.pte v).present = true

/-- Page `v` is the victim: the candidate with the smallest age, the lowest page number on a tie (R180). -/
def State.isVictim (s : State) (v : PageNumber) : Prop :=
  s.isCandidate v ∧
    ∀ q, s.isCandidate q → (s.pte v).age < (s.pte q).age ∨ ((s.pte v).age = (s.pte q).age ∧ v ≤ q)

/-- Frame `f` is the lowest-numbered free frame (R152). -/
def State.lowestFree (s : State) (f : FrameNumber) : Prop :=
  (s.fte f).occupied = false ∧ ∀ g, g < f → (s.fte g).occupied = true

/-- `resolve(p)` comes to branch 3: the page is mapped, not present and its frame is taken, or it is unmapped and no
frame is free (R171, R174). -/
def State.needsReplacement (s : State) (p : PageNumber) : Prop :=
  ((s.pte p).mapped = true ∧ (s.pte p).present = false ∧ (s.fte (s.pte p).frame).occupied = true) ∨
  ((s.pte p).mapped = false ∧ ∀ f, (s.fte f).occupied = true)

/-- The resident dirty pages in ascending order: the pages `HALT` writes back (R222). -/
def State.dirtyPages (s : State) : List PageNumber := allPages.filter fun q => (s.pte q).present && (s.pte q).dirty

/-! ### Classes of commands -/

/-- The command needs the memory pool (the table of R224): every command but MEM_INIT and the four codec commands. -/
def needsPool : Instr → Bool
  | .memInit => false
  | .decodeVirtual _ => false
  | .encodeVirtual _ _ => false
  | .decodePhysical _ => false
  | .encodePhysical _ _ => false
  | _ => true

/-- The six byte-level commands (R241). -/
def byteLevel : Instr → Bool
  | .read _ => true
  | .readn _ _ => true
  | .write _ _ => true
  | .writew _ _ _ => true
  | .writedw _ _ _ _ _ => true
  | .writez _ _ => true
  | _ => false

/-- The page operand of the commands that have one and need the pool (format P and PE). -/
def poolPage : Instr → Option Nat
  | .ptGet page => some page
  | .ptSet page _ => some page
  | .ptClear page => some page
  | .isUnmapped page => some page
  | .isPresent page => some page
  | .isDirty page => some page
  | .isReferenced page => some page
  | .markDirty page => some page
  | .markClean page => some page
  | .markReferenced page => some page
  | .markUnreferenced page => some page
  | .resolve page => some page
  | .ptePage page => some page
  | .evict page => some page
  | .load page => some page
  | _ => none

/-- The command breaks its contract in the state (the causes (a) to (d) of R232). -/
def breaksContract (i : Instr) (s : State) : Prop :=
  (∃ page, poolPage i = some page ∧ 256 ≤ page) ∨
  (∃ page offset, i = .encodeVirtual page offset ∧ (256 ≤ page ∨ 4096 ≤ offset)) ∨
  (∃ frame offset, i = .encodePhysical frame offset ∧ (16 ≤ frame ∨ 4096 ≤ offset)) ∨
  (∃ p : PageNumber, i = .load p.toNat ∧
    ((s.pte p).mapped = false ∨
      ((s.fte (s.pte p).frame).occupied = true ∧ (s.fte (s.pte p).frame).owner ≠ p)))

/-- The address of byte `k` of a multi-byte command, modulo 2^20 (R202). -/
def byteAddress (a : AField) (k : Nat) : VirtualAddress := BitVec.ofNat 20 (a.toNat + k)

/-- The operand field of byte `k` of a multi-byte command, as a command of one byte takes it (R202). -/
def byteField (a : AField) (k : Nat) : AField := (byteAddress a k).zeroExtend 24

/-- The pages of the first `n` bytes of a command are all resident. -/
def touchesResident (s : State) (a : AField) (n : Nat) : Prop :=
  ∀ k, k < n → (s.pte (pageOf (byteAddress a k))).present = true

end Sys2Proof.Machine
end

