-- ==== Sys2Proof/Certificates/Slice0/Obligations.lean ====
section
/-!
DEFINITION. The statements about the block. A page operand is written `p.toNat` for a page number `p`, so that it is
below 256; what a larger one does is `Obligations.ContractViolations`. Where bytes of frames or of the store are
spoken of, the memories are in their canonical form, which every step keeps (`Obligations.MemoriesStayCanonical`).
-/

open Sys2Proof Sys2Proof.Machine

/-! ### Encoding -/

/-- The decoder reads back every well-formed command from the word the encoder writes (R90 to R100). -/
def Obligations.DecodeEncodeRoundTrip : Prop := ∀ i : Instr, i.wellFormed = true → decode (encode i) = .ok i

/-- A word that decodes has one meaning: the command is well-formed and the encoder writes that very word (R90, R91). -/
def Obligations.EncodeDecodeRoundTrip : Prop :=
  ∀ (w : CommandWord) (i : Instr), decode w = .ok i → i.wellFormed = true ∧ encode i = w

/-- A word decodes exactly when a row of the opcode table selects it, and then to the command of that row, so that no
two rows select one word (R91, R100, R103). -/
def Obligations.DecodeFollowsOpcodeTable : Prop :=
  (∀ w : CommandWord, (∃ i, decode w = .ok i) ↔ ∃ r ∈ opcodeTable, r.selects w = true) ∧
  ∀ (w : CommandWord) (i : Instr) (r : OpcodeRow),
    decode w = .ok i → r ∈ opcodeTable → r.selects w = true → r.mnemonic = i.mnemonic

/-- Words the spec writes out decode to the commands it says they are, one for each family (R107, R120, R133, R152,
R191, R222). -/
def Obligations.SampleWordsDecode : Prop :=
  decode 0x03005000000000AB = .ok (.write 0x005000 0xAB) ∧
  decode 0x02000FFF00000002 = .ok (.readn 0x000FFF 2) ∧
  decode 0x05000FFE44332211 = .ok (.writedw 0x000FFE 0x11 0x22 0x33 0x44) ∧
  decode 0x1200000000000000 = .ok .halt ∧
  decode 0x2002A7FF00000000 = .ok (.decodeVirtual 0x02A7FF) ∧
  decode 0x2300000800000123 = .ok (.encodePhysical 8 0x123) ∧
  decode 0x3100002A00000008 = .ok (.ptSet 42 0x0008) ∧
  decode 0x4000000000000000 = .ok .findFreeFrame ∧
  decode 0x5200000500000000 = .ok (.evict 5)

/-- The packed images: the places of the six fields of a page-table entry and of the two of a frame-table entry; no
field is lost either way (R31, R35). -/
def Obligations.PackedImages : Prop :=
  (∀ e : Pte, e.image.extractLsb' 0 4 = e.frame ∧ e.image.getLsbD 4 = e.present ∧ e.image.getLsbD 5 = e.mapped ∧
    e.image.getLsbD 6 = e.dirty ∧ e.image.getLsbD 7 = e.referenced ∧ e.image.extractLsb' 8 8 = e.age) ∧
  (∀ e : Pte, Pte.ofImage e.image = e) ∧ (∀ b : PteImage, (Pte.ofImage b).image = b) ∧
  (∀ e : Fte, e.image.extractLsb' 0 8 = e.owner ∧ e.image.getLsbD 8 = e.occupied) ∧
  (∀ e : Fte, Fte.ofImage e.image = e) ∧ ∀ b : FteImage, (Fte.ofImage b).image = b

/-! ### The step -/

/-- When the word offered decodes to `i`, the step is `exec i` of the state in which the offer is taken from the input,
the answers offered with it stand, and no store operation has been recorded; the block itself is as before (R14, R103).
A word placed by `withFetchWord` is such an offer. -/
def Obligations.StepRunsDecodedCommand : Prop :=
  (∀ (s : State) (w : CommandWord) (answers : IoAnswers) (later : List PortEvent) (i : Instr),
    s.input = .command w answers :: later → decode w = .ok i →
      step s = exec i (acceptCommand answers later s)) ∧
  (∀ (s : State) (answers : IoAnswers) (later : List PortEvent),
    (acceptCommand answers later s).toBlock = s.toBlock ∧ (acceptCommand answers later s).input = later ∧
      (acceptCommand answers later s).io = answers ∧ (acceptCommand answers later s).ops = [] ∧
      (acceptCommand answers later s).resp = s.resp ∧ (acceptCommand answers later s).freeCount = s.freeCount) ∧
  ∀ (s : State) (w : CommandWord) (i : Instr), decode w = .ok i →
    step (s.withFetchWord 64 w.toNat) = exec i { s with ops := [] }

/-- R236: a word that matches no row of the table, one with an unassigned opcode or with a must-be-zero bit set, is
`IllegalCommand`, code 0x03, in `OFF` and `RUN` alike: the block is unchanged, `info` and `value` are 0. -/
def Obligations.IllegalWordsRefused : Prop :=
  (∀ (s : State) (w : CommandWord) (answers : IoAnswers) (later : List PortEvent),
    s.input = .command w answers :: later → s.mode ≠ .aborted → (∀ r ∈ opcodeTable, r.selects w = false) →
      ∃ t, step s = .next t ∧ t.resp = failureResponse .illegalCommand 0 0 ∧ t.toBlock = s.toBlock ∧
        t.input = later ∧ t.io = answers ∧ t.ops = [] ∧ t.freeCount = s.freeCount) ∧
  (∀ op : BitVec 8, (∀ r ∈ opcodeTable, r.opcode ≠ op) ↔
    op.toNat = 0x00 ∨ (0x07 ≤ op.toNat ∧ op.toNat ≤ 0x0F) ∨ (0x14 ≤ op.toNat ∧ op.toNat ≤ 0x1F) ∨
      (0x25 ≤ op.toNat ∧ op.toNat ≤ 0x2F) ∨ (0x3B ≤ op.toNat ∧ op.toNat ≤ 0x3F) ∨
      (0x41 ≤ op.toNat ∧ op.toNat ≤ 0x4F) ∨ 0x55 ≤ op.toNat) ∧
  (∀ (w : CommandWord) (r : OpcodeRow), r ∈ opcodeTable → r.selects w = true → r.opcode = opField w) ∧
  Status.illegalCommand.code = 0x03

/-- Outside a command. With no event the machine stays as it is (the model's choice, log 3). A power-on reset is taken
in every mode, leads to `OFF` and takes any response away (R225, R260; its form is the model's choice, log 8). In
`ABORTED` no command is accepted: the machine stops there (R246; a stop by deduction, log 4). -/
def Obligations.PortOutsideCommands : Prop :=
  (∀ s : State, s.input = [] → step s = .next s) ∧
  (∀ (s : State) (later : List PortEvent), s.input = .powerOn :: later →
    ∃ t, step s = .next t ∧ t.mode = .off ∧ t.input = later ∧ t.resp = none ∧ t.ops = []) ∧
  (∀ (s : State) (w : CommandWord) (answers : IoAnswers) (later : List PortEvent),
    s.input = .command w answers :: later → s.mode = .aborted → step s = .fault .notAccepted) ∧
  ∀ (i : Instr) (s : State), s.mode = .aborted → exec i s = .fault .notAccepted

/-- Every command is answered in `OFF` and in `RUN`, once: `info` is 0 on status OK; `data` is empty but for a READN
that answers OK, which gives `n` bytes and the value `n` (R104, R105). -/
def Obligations.EveryCommandAnswered : Prop :=
  ∀ (i : Instr) (s : State), s.mode ≠ .aborted →
    ∃ t r, exec i s = .next t ∧ t.resp = some r ∧ t.input = s.input ∧ (r.status = .ok → r.info = 0) ∧
      (r.data ≠ [] → r.status = .ok ∧ ∃ a n, i = .readn a n) ∧
      ∀ a n, i = .readn a n → r.status = .ok → r.data.length = n ∧ r.value = BitVec.ofNat 32 n

/-- The mode machine of commands: `OFF` to `RUN` by a MEM_INIT that answers OK and by nothing else; `RUN` to `OFF` by a
HALT that answers OK or a MEM_DESTROY and by nothing else; `RUN` to `ABORTED` by a fatal failure and by nothing else;
`OFF` to `ABORTED` never (R225). -/
def Obligations.ModeMachine : Prop :=
  ∀ (i : Instr) (s t : State), exec i s = .next t →
    (s.mode = .off → (t.mode = .run ↔ i = .memInit ∧ t.hasStatus .ok) ∧ t.mode ≠ .aborted) ∧
    (s.mode = .run → (t.mode = .off ↔ (i = .halt ∧ t.hasStatus .ok) ∨ i = .memDestroy) ∧
      (t.mode = .aborted ↔ t.hasStatus .reinitMisuse ∨ t.hasStatus .invariantViolation)) ∧
    s.mode ≠ .aborted

/-- R237: in `OFF` every command that needs the pool answers `NotInitialized`, code 0x04, with `info` and `value` 0 and
nothing changed; no other command and no other mode answers it. -/
def Obligations.NotInitializedInOff : Prop :=
  (∀ (i : Instr) (s : State), s.mode = .off → needsPool i = true →
    exec i s = .next { s with resp := failureResponse .notInitialized 0 0 }) ∧
  (∀ (i : Instr) (s t : State), exec i s = .next t → t.hasStatus .notInitialized →
    s.mode = .off ∧ needsPool i = true) ∧
  Status.notInitialized.code = 0x04

/-- R232: a command that executes in the mode answers `ContractViolation`, code 0x01, with `info` and `value` 0 and
nothing changed, exactly when an operand is out of range or a precondition of LOAD fails. -/
def Obligations.ContractViolations : Prop :=
  (∀ (i : Instr) (s : State), (s.mode = .run ∨ (s.mode = .off ∧ needsPool i = false)) → breaksContract i s →
    exec i s = .next { s with resp := failureResponse .contractViolation 0 0 }) ∧
  (∀ (i : Instr) (s t : State), exec i s = .next t → t.hasStatus .contractViolation → breaksContract i s) ∧
  Status.contractViolation.code = 0x01

/-! ### Address codec and observers -/

/-- R92, R93: of a virtual-address operand only bits [19:0] count, of a physical-address operand only bits [15:0]; every
value of the other bits is accepted and has no effect. -/
def Obligations.IgnoredAddressBits : Prop :=
  (∀ (a b : AField) (s : State), a.extractLsb' 0 20 = b.extractLsb' 0 20 →
    exec (.read a) s = exec (.read b) s ∧ (∀ n, exec (.readn a n) s = exec (.readn b n) s) ∧
    (∀ v, exec (.write a v) s = exec (.write b v) s) ∧
    (∀ v1 v2, exec (.writew a v1 v2) s = exec (.writew b v1 v2) s) ∧
    (∀ v1 v2 v3 v4, exec (.writedw a v1 v2 v3 v4) s = exec (.writedw b v1 v2 v3 v4) s) ∧
    (∀ n, exec (.writez a n) s = exec (.writez b n) s) ∧ exec (.translate a) s = exec (.translate b) s ∧
    exec (.decodeVirtual a) s = exec (.decodeVirtual b) s) ∧
  (∀ (a b : AField) (s : State), a.extractLsb' 0 16 = b.extractLsb' 0 16 →
    exec (.decodePhysical a) s = exec (.decodePhysical b) s) ∧
  (∀ a : AField, virtualAddress a = a.extractLsb' 0 20 ∧ physicalAddress a = a.extractLsb' 0 16) ∧
  ∀ a : AField, decode (commandWord 0x01 a 0) = .ok (.read a) ∧ decode (commandWord 0x20 a 0) = .ok (.decodeVirtual a) ∧
    decode (commandWord 0x22 a 0) = .ok (.decodePhysical a) ∧ decode (commandWord 0x24 a 0) = .ok (.translate a)

/-- The four codec commands in `OFF` and in `RUN`: the value they answer, nothing else changed (R120 to R123). -/
def Obligations.CodecCommands : Prop :=
  ∀ s : State, s.mode ≠ .aborted →
    (∀ a : AField, exec (.decodeVirtual a) s = .next { s with resp := okResponse (a.extractLsb' 0 20).toNat [] }) ∧
    (∀ page offset : Nat, page < 256 → offset < 4096 →
      exec (.encodeVirtual page offset) s = .next { s with resp := okResponse (page * 4096 + offset) [] }) ∧
    (∀ a : AField, exec (.decodePhysical a) s = .next { s with resp := okResponse (a.extractLsb' 0 16).toNat [] }) ∧
    ∀ frame offset : Nat, frame < 16 → offset < 4096 →
      exec (.encodePhysical frame offset) s = .next { s with resp := okResponse (frame * 4096 + offset) [] }

/-- R124: decoding what was encoded gives it back; encoding what was decoded gives the address back without its ignored
bits, and so the address itself exactly when those are zero. -/
def Obligations.CodecRoundTrip : Prop :=
  (∀ (p : PageNumber) (o : Offset), pageOf (encodeVirtual p o) = p ∧ offsetOf (encodeVirtual p o) = o) ∧
  (∀ (f : FrameNumber) (o : Offset),
    frameOf (encodePhysical f o) = f ∧ physicalOffsetOf (encodePhysical f o) = o) ∧
  (∀ a : AField, encodeVirtual (pageOf (virtualAddress a)) (offsetOf (virtualAddress a)) = a.extractLsb' 0 20 ∧
    ((encodeVirtual (pageOf (virtualAddress a)) (offsetOf (virtualAddress a))).zeroExtend 24 = a ↔
      a.extractLsb' 20 4 = 0)) ∧
  ∀ a : AField,
    encodePhysical (frameOf (physicalAddress a)) (physicalOffsetOf (physicalAddress a)) = a.extractLsb' 0 16 ∧
    ((encodePhysical (frameOf (physicalAddress a)) (physicalOffsetOf (physicalAddress a))).zeroExtend 24 = a ↔
      a.extractLsb' 16 8 = 0)

/-- PT_GET, the four predicates and TRANSLATE in `RUN`: the value they answer, nothing else changed (R132, R135 to
R138, R170). -/
def Obligations.PageTableReads : Prop :=
  ∀ s : State, s.mode = .run →
    (∀ p : PageNumber,
      exec (.ptGet p.toNat) s = .next { s with resp := okResponse (s.pte p).image.toNat [] } ∧
      exec (.isUnmapped p.toNat) s = .next { s with resp := okResponse (if (s.pte p).mapped then 0 else 1) [] } ∧
      exec (.isPresent p.toNat) s = .next { s with resp := okResponse (if (s.pte p).present then 1 else 0) [] } ∧
      exec (.isDirty p.toNat) s = .next { s with resp := okResponse (if (s.pte p).dirty then 1 else 0) [] } ∧
      exec (.isReferenced p.toNat) s =
        .next { s with resp := okResponse (if (s.pte p).referenced then 1 else 0) [] }) ∧
    ∀ a : AField, exec (.translate a) s =
      .next { s with
        resp := okResponse ((s.pte (a.extractLsb' 12 8)).frame.toNat * 4096 + (a.extractLsb' 0 12).toNat) [] }

/-- FIND_FREE_FRAME in `RUN` answers the lowest-numbered free frame with bit 4 set, or 0 when every frame is occupied;
nothing else changes (R152). -/
def Obligations.FindFreeFrameScan : Prop :=
  ∀ s : State, s.mode = .run →
    (∀ f, s.lowestFree f → exec .findFreeFrame s = .next { s with resp := okResponse (16 + f.toNat) [] }) ∧
    ((∀ f, (s.fte f).occupied = true) → exec .findFreeFrame s = .next { s with resp := okResponse 0 [] }) ∧
    ((∃ f, s.lowestFree f) ∨ ∀ f, (s.fte f).occupied = true)

/-- CHOOSE_VICTIM in `RUN` answers the candidate with the smallest age, the lowest page number on a tie, and changes
nothing else; with no candidate it is a fatal `InvariantViolation` and changes only the mode (R180 to R182). -/
def Obligations.ChooseVictimScan : Prop :=
  ∀ s : State, s.mode = .run →
    (∀ v, s.isVictim v → exec .chooseVictim s = .next { s with resp := okResponse v.toNat [] }) ∧
    ((∀ q, ¬ s.isCandidate q) → exec .chooseVictim s =
      .next { s with mode := .aborted, resp := failureResponse .invariantViolation 0 0 }) ∧
    ((∃ v, s.isVictim v) ∨ ∀ q, ¬ s.isCandidate q)

/-! ### Page-table mutators and the tick -/

/-- PT_SET installs the image's fields with `mapped` forced to 1; PT_CLEAR answers the prior image and zeroes the entry;
every other entry, the frame table, the memories and the ports are as before (R133, R134). -/
def Obligations.PtSetAndPtClear : Prop :=
  ∀ (s : State) (p : PageNumber), s.mode = .run →
    (∀ e : PteImage, ∃ t, exec (.ptSet p.toNat e) s = .next t ∧ t.resp = okResponse 0 [] ∧
      t.pte p = ⟨e.extractLsb' 0 4, e.getLsbD 4, true, e.getLsbD 6, e.getLsbD 7, e.extractLsb' 8 8⟩ ∧
      (∀ q, q ≠ p → t.pte q = s.pte q) ∧ RestKept s t) ∧
    ∃ t, exec (.ptClear p.toNat) s = .next t ∧ t.resp = okResponse (s.pte p).image.toNat [] ∧
      t.pte p = ⟨0, false, false, false, false, 0⟩ ∧ (∀ q, q ≠ p → t.pte q = s.pte q) ∧ RestKept s t

/-- The four MARK commands write the named fields of the one entry and nothing else (R139 to R142). -/
def Obligations.MarkCommands : Prop :=
  ∀ (s : State) (p : PageNumber), s.mode = .run →
    (∃ t, exec (.markDirty p.toNat) s = .next t ∧ t.resp = okResponse 0 [] ∧
      t.pte p = { s.pte p with dirty := true } ∧ (∀ q, q ≠ p → t.pte q = s.pte q) ∧ RestKept s t) ∧
    (∃ t, exec (.markClean p.toNat) s = .next t ∧ t.resp = okResponse 0 [] ∧
      t.pte p = { s.pte p with dirty := false } ∧ (∀ q, q ≠ p → t.pte q = s.pte q) ∧ RestKept s t) ∧
    (∃ t, exec (.markReferenced p.toNat) s = .next t ∧ t.resp = okResponse 0 [] ∧
      t.pte p = { s.pte p with referenced := true, age := (s.pte p).age ||| 0x80 } ∧
      (∀ q, q ≠ p → t.pte q = s.pte q) ∧ RestKept s t) ∧
    ∃ t, exec (.markUnreferenced p.toNat) s = .next t ∧ t.resp = okResponse 0 [] ∧
      t.pte p = { s.pte p with referenced := false, age := (s.pte p).age >>> 1 } ∧
      (∀ q, q ≠ p → t.pte q = s.pte q) ∧ RestKept s t

/-- TICK in `RUN` clears `referenced` and shifts `age` right by one in all 256 entries; nothing else changes (R183). -/
def Obligations.TickAgesEveryPage : Prop :=
  ∀ s : State, s.mode = .run →
    ∃ t, exec .tick s = .next t ∧ t.resp = okResponse 0 [] ∧
      (∀ q, t.pte q = { s.pte q with referenced := false, age := (s.pte q).age >>> 1 }) ∧ RestKept s t

/-! ### Lifecycle -/

/-- R261: a MEM_INIT whose store creation succeeds gives every piece of state its value of R48. When the creation fails
it answers `BackingStoreUnavailable` with page 0, the mode stays `OFF` and the store keeps its contents (R220). Either
way it consumes exactly one answer. -/
def Obligations.MemInitCreatesPool : Prop :=
  ∀ s : State, s.mode = .off →
    (s.io.take 1 = [.ok] → ∃ t, exec .memInit s = .next t ∧ t.resp = okResponse 0 [] ∧ t.mode = .run ∧
      (∀ p, t.pte p = ⟨0, false, false, false, false, 0⟩) ∧ (∀ f, t.fte f = ⟨false, 0⟩) ∧
      (∀ f o, t.frameByte f o = 0) ∧ (∀ p o, t.storeByte p o = 0) ∧ Asked s t [⟨.create, 0, .ok⟩]) ∧
    (s.io.take 1 = [.fail] → ∃ t, exec .memInit s = .next t ∧
      t.resp = failureResponse .backingStoreUnavailable 0 0 ∧ t.mode = .off ∧ StoreKept s t ∧
      Asked s t [⟨.create, 0, .fail⟩])

/-- MEM_INIT in `RUN` is a fatal `ReinitMisuse`, code 0xF0: `ABORTED`, nothing else written, `info` and `value` 0; no
other command and no other mode answers it (R234). No command is answered after it, and a word offered then stops the
machine: the spec says only that no word is accepted and no response given (R246), the stop is by deduction, log 4. -/
def Obligations.MemInitWhileRunningIsFatal : Prop :=
  (∀ s : State, s.mode = .run →
    exec .memInit s = .next { s with mode := .aborted, resp := failureResponse .reinitMisuse 0 0 }) ∧
  (∀ (i : Instr) (s t : State), exec i s = .next t → t.hasStatus .reinitMisuse → i = .memInit ∧ s.mode = .run) ∧
  (∀ s t : State, s.mode = .run → exec .memInit s = .next t →
    (∀ j u, exec j t ≠ .next u) ∧
    ∀ w answers later, step { t with input := .command w answers :: later } = .fault .notAccepted) ∧
  Status.reinitMisuse.code = 0xF0

/-- MEM_DESTROY in `RUN` leads to `OFF`, writes nothing back and consumes no answer: the store keeps its contents
(R221). -/
def Obligations.MemDestroyReleasesWithoutFlush : Prop :=
  ∀ s : State, s.mode = .run →
    ∃ t, exec .memDestroy s = .next t ∧ t.resp = okResponse 0 [] ∧ t.mode = .off ∧ StoreKept s t ∧
      t.ops = s.ops ∧ t.io = s.io ∧ t.input = s.input

/-- A HALT in `RUN` of a well-formed state, the first answers being `ok`, one for each resident dirty page, writes
exactly those pages back in ascending order and leads to `OFF`; every other byte of the store is as before (R222). -/
def Obligations.HaltCompletes : Prop :=
  ∀ s : State, s.mode = .run → s.WellFormed → s.MemoriesCanonical →
    s.io.take s.dirtyPages.length = List.replicate s.dirtyPages.length .ok →
      ∃ t, exec .halt s = .next t ∧ t.resp = okResponse 0 [] ∧ t.mode = .off ∧ t.input = s.input ∧
        t.ops = s.ops ++ s.dirtyPages.map (fun p => ⟨.write, p, .ok⟩) ∧ t.io = s.io.drop s.dirtyPages.length ∧
        ∀ p o, t.storeByte p o =
          if (s.pte p).present && (s.pte p).dirty then s.frameByte (s.pte p).frame o else s.storeByte p o

/-- A HALT that answers OK in a well-formed and coherent state delivers the whole virtual memory in the store (R73 (e),
R222 (c)). -/
def Obligations.HaltDeliversVirtualMemory : Prop :=
  ∀ s t : State, s.mode = .run → Sound s → exec .halt s = .next t → t.hasStatus .ok →
    ∀ va, t.storeByte (pageOf va) (offsetOf va) = s.vm va

/-- A HALT whose write-back of the `k`th resident dirty page `q` fails stops there: `info` is `q`, the mode stays `RUN`,
every resident page below `q` has been evicted and written back if dirty, `q` and every page above are untouched
(R222, R240 (e)). -/
def Obligations.HaltStopsAtFailedWriteBack : Prop :=
  ∀ (s : State) (k : Nat) (q : PageNumber), s.mode = .run → s.WellFormed → s.MemoriesCanonical →
    s.dirtyPages[k]? = some q → s.io.take (k + 1) = List.replicate k .ok ++ [.fail] →
      ∃ t, exec .halt s = .next t ∧ t.resp = failureResponse .backingStoreUnavailable q.toNat 0 ∧ t.mode = .run ∧
        (∀ p, p < q → (s.pte p).present = true →
          t.pte p = ⟨(s.pte p).frame, false, true, false, false, 0⟩ ∧ t.fte (s.pte p).frame = ⟨false, 0⟩ ∧
            (∀ o, t.frameByte (s.pte p).frame o = 0) ∧
            ∀ o, (s.pte p).dirty = true → t.storeByte p o = s.frameByte (s.pte p).frame o) ∧
        (∀ p, p < q → (s.pte p).present = false → t.pte p = s.pte p) ∧
        (∀ p, q ≤ p → t.pte p = s.pte p ∧ ∀ o, t.storeByte p o = s.storeByte p o) ∧
        (∀ f, (∀ p, p < q → ¬ s.resident p f) → t.fte f = s.fte f ∧ ∀ o, t.frameByte f o = s.frameByte f o) ∧
        (∀ p o, ¬ ((s.pte p).present = true ∧ (s.pte p).dirty = true) → t.storeByte p o = s.storeByte p o) ∧
        Asked s t ((s.dirtyPages.take k).map (fun p => ⟨.write, p, .ok⟩) ++ [⟨.write, q, .fail⟩])

/-! ### Evict and load -/

/-- R190: EVICT of a page that is not present changes nothing; of a clean page it drops the page with no store
operation; of a dirty page it writes the frame back and drops the page; when that write-back fails nothing changes. -/
def Obligations.EvictEffects : Prop :=
  ∀ (s : State) (p : PageNumber), s.mode = .run → s.MemoriesCanonical →
    ((s.pte p).present = false → exec (.evict p.toNat) s = .next { s with resp := okResponse 0 [] }) ∧
    ((s.pte p).present = true → (s.pte p).dirty = false →
      ∃ t, exec (.evict p.toNat) s = .next t ∧ t.resp = okResponse 0 [] ∧ t.mode = .run ∧ PageDropped s t p ∧
        StoreKept s t ∧ PortsKept s t) ∧
    ((s.pte p).present = true → (s.pte p).dirty = true → s.io.take 1 = [.ok] →
      ∃ t, exec (.evict p.toNat) s = .next t ∧ t.resp = okResponse 0 [] ∧ t.mode = .run ∧ PageDropped s t p ∧
        PageWritten s t p ∧ Asked s t [⟨.write, p, .ok⟩]) ∧
    ((s.pte p).present = true → (s.pte p).dirty = true → s.io.take 1 = [.fail] →
      ∃ t, exec (.evict p.toNat) s = .next t ∧ t.resp = failureResponse .backingStoreUnavailable p.toNat 0 ∧
        t.toBlock = s.toBlock ∧ Asked s t [⟨.write, p, .fail⟩])

/-- A second EVICT of a page just evicted changes nothing at all (R191 (b)). -/
def Obligations.EvictTwice : Prop :=
  ∀ (s t : State) (p : PageNumber), s.mode = .run → exec (.evict p.toNat) s = .next t → t.hasStatus .ok →
    exec (.evict p.toNat) t = .next t

/-- LOAD of a mapped page whose frame is free or its own reads the store image into the frame: the entry becomes
present, clean, not referenced, `frame`, `mapped` and `age` stay; when the read fails nothing changes (R192, R193). -/
def Obligations.LoadEffects : Prop :=
  ∀ (s : State) (p : PageNumber), s.mode = .run → s.MemoriesCanonical → (s.pte p).mapped = true →
    ((s.fte (s.pte p).frame).occupied = false ∨ (s.fte (s.pte p).frame).owner = p) →
      (s.io.take 1 = [.ok] → ∃ t, exec (.load p.toNat) s = .next t ∧ t.resp = okResponse 0 [] ∧ t.mode = .run ∧
        PageLoaded s t p (s.pte p).frame { s.pte p with present := true, dirty := false, referenced := false } ∧
        Asked s t [⟨.read, p, .ok⟩]) ∧
      (s.io.take 1 = [.fail] → ∃ t, exec (.load p.toNat) s = .next t ∧
        t.resp = failureResponse .backingStoreUnavailable p.toNat 0 ∧ t.toBlock = s.toBlock ∧
        Asked s t [⟨.read, p, .fail⟩])

/-! ### The fault path -/

/-- R175: RESOLVE of a present page makes no transfer; the page is marked referenced and its frame number answered. -/
def Obligations.ResolveResidentPage : Prop :=
  ∀ (s : State) (p : PageNumber), s.mode = .run → (s.pte p).mapped = true → (s.pte p).present = true →
    ∃ t, exec (.resolve p.toNat) s = .next t ∧ t.resp = okResponse (s.pte p).frame.toNat [] ∧
      t.pte p = { s.pte p with referenced := true, age := (s.pte p).age ||| 0x80 } ∧
      (∀ q, q ≠ p → t.pte q = s.pte q) ∧ RestKept s t

/-- RESOLVE of an unmapped page with a free frame: the lowest free frame is taken and the page loaded into it; the entry
is fresh and marked referenced (branch 1: R171, R172, R176). -/
def Obligations.ResolveUnmappedPage : Prop :=
  ∀ (s : State) (p : PageNumber) (f : FrameNumber), s.mode = .run → s.MemoriesCanonical →
    (s.pte p).mapped = false → s.lowestFree f → s.io.take 1 = [.ok] →
      ∃ t, exec (.resolve p.toNat) s = .next t ∧ t.resp = okResponse f.toNat [] ∧ t.mode = .run ∧
        PageLoaded s t p f ⟨f, true, true, false, true, 0x80⟩ ∧ Asked s t [⟨.read, p, .ok⟩]

/-- RESOLVE of a mapped page that is not present and whose own frame is idle: the page is loaded into that frame and
marked referenced (branch 2: R171, R173, R176). -/
def Obligations.ResolveIdleFrame : Prop :=
  ∀ (s : State) (p : PageNumber), s.mode = .run → s.MemoriesCanonical →
    (s.pte p).mapped = true → (s.pte p).present = false → (s.fte (s.pte p).frame).occupied = false →
    s.io.take 1 = [.ok] →
      ∃ t, exec (.resolve p.toNat) s = .next t ∧ t.resp = okResponse (s.pte p).frame.toNat [] ∧ t.mode = .run ∧
        PageLoaded s t p (s.pte p).frame
          { s.pte p with present := true, dirty := false, referenced := true, age := (s.pte p).age ||| 0x80 } ∧
        Asked s t [⟨.read, p, .ok⟩]

/-- RESOLVE that needs replacement evicts the victim, writing it back first if it is dirty, remaps the page onto the
victim's frame, loads it and marks it referenced; every other page and frame is untouched (branch 3: R171, R174,
R176). -/
def Obligations.ResolveReplacement : Prop :=
  ∀ (s : State) (p v : PageNumber) (moved : List StoreOp), s.mode = .run → s.MemoriesCanonical →
    s.needsReplacement p → s.isVictim v →
    moved = (if (s.pte v).dirty then [⟨.write, v, .ok⟩, ⟨.read, p, .ok⟩] else [⟨.read, p, .ok⟩]) →
    s.io.take moved.length = moved.map (·.answer) →
      ∃ t, exec (.resolve p.toNat) s = .next t ∧ t.resp = okResponse (s.pte v).frame.toNat [] ∧ t.mode = .run ∧
        t.pte v = ⟨(s.pte v).frame, false, true, false, false, 0⟩ ∧
        t.pte p = ⟨(s.pte v).frame, true, true, false, true, (s.pte p).age ||| 0x80⟩ ∧
        (∀ q, q ≠ v → q ≠ p → t.pte q = s.pte q) ∧
        t.fte (s.pte v).frame = ⟨true, p⟩ ∧ (∀ f, f ≠ (s.pte v).frame → t.fte f = s.fte f) ∧
        (∀ o, t.frameByte (s.pte v).frame o = s.storeByte p o) ∧
        (∀ f o, f ≠ (s.pte v).frame → t.frameByte f o = s.frameByte f o) ∧
        (if (s.pte v).dirty then PageWritten s t v else StoreKept s t) ∧ Asked s t moved

/-- With all sixteen frames occupied, a RESOLVE of a page that is not resident, when it answers OK, makes exactly one
resident page not resident, reuses its frame and leaves all sixteen frames occupied (R179 (a)). -/
def Obligations.SeventeenthPage : Prop :=
  ∀ (s t : State) (p : PageNumber), s.mode = .run → s.WellFormed → (∀ f, (s.fte f).occupied = true) →
    (s.pte p).present = false → exec (.resolve p.toNat) s = .next t → t.hasStatus .ok →
      (∃ v, (s.pte v).present = true ∧ (t.pte v).present = false ∧ (t.pte p).frame = (s.pte v).frame ∧
        ∀ q, q ≠ v → (s.pte q).present = true → (t.pte q).present = true) ∧
      (t.pte p).present = true ∧ ∀ f, (t.fte f).occupied = true

/-- Where RESOLVE stops on a failed transfer and what it leaves: (a) branch 1, the fresh entry; (b) branch 2, nothing;
(c) a victim's write-back, nothing; (d) the load after the victim's eviction, the victim evicted and the page remapped.
The page is not marked (R178). -/
def Obligations.ResolveFailureStops : Prop :=
  ∀ (s : State) (p : PageNumber), s.mode = .run → s.MemoriesCanonical →
    (∀ f, (s.pte p).mapped = false → s.lowestFree f → s.io.take 1 = [.fail] →
      ∃ t, exec (.resolve p.toNat) s = .next t ∧ t.resp = failureResponse .backingStoreUnavailable p.toNat 0 ∧
        t.pte p = ⟨f, false, true, false, false, 0⟩ ∧ (∀ q, q ≠ p → t.pte q = s.pte q) ∧ t.mode = .run ∧
        FrameTableKept s t ∧ FramesKept s t ∧ StoreKept s t ∧ Asked s t [⟨.read, p, .fail⟩]) ∧
    ((s.pte p).mapped = true → (s.pte p).present = false → (s.fte (s.pte p).frame).occupied = false →
      s.io.take 1 = [.fail] →
      ∃ t, exec (.resolve p.toNat) s = .next t ∧ t.resp = failureResponse .backingStoreUnavailable p.toNat 0 ∧
        t.toBlock = s.toBlock ∧ Asked s t [⟨.read, p, .fail⟩]) ∧
    (∀ v, s.needsReplacement p → s.isVictim v → (s.pte v).dirty = true → s.io.take 1 = [.fail] →
      ∃ t, exec (.resolve p.toNat) s = .next t ∧ t.resp = failureResponse .backingStoreUnavailable v.toNat 0 ∧
        t.toBlock = s.toBlock ∧ Asked s t [⟨.write, v, .fail⟩]) ∧
    ∀ v moved, s.needsReplacement p → s.isVictim v →
      moved = (if (s.pte v).dirty then [⟨.write, v, .ok⟩, ⟨.read, p, .fail⟩] else [⟨.read, p, .fail⟩]) →
      s.io.take moved.length = moved.map (·.answer) →
      ∃ t, exec (.resolve p.toNat) s = .next t ∧ t.resp = failureResponse .backingStoreUnavailable p.toNat 0 ∧
        t.mode = .run ∧ t.pte v = ⟨(s.pte v).frame, false, true, false, false, 0⟩ ∧
        t.pte p = { s.pte p with frame := (s.pte v).frame, mapped := true } ∧
        (∀ q, q ≠ v → q ≠ p → t.pte q = s.pte q) ∧
        t.fte (s.pte v).frame = ⟨false, 0⟩ ∧ (∀ f, f ≠ (s.pte v).frame → t.fte f = s.fte f) ∧
        (∀ o, t.frameByte (s.pte v).frame o = 0) ∧
        (∀ f o, f ≠ (s.pte v).frame → t.frameByte f o = s.frameByte f o) ∧
        (if (s.pte v).dirty then PageWritten s t v else StoreKept s t) ∧ Asked s t moved

/-- PTE_PAGE of a present page changes nothing and answers its frame; of any other it is RESOLVE; after it answers OK in
a well-formed state the page is present in the frame answered, which it owns (R177). -/
def Obligations.PtePageAnswers : Prop :=
  ∀ (s : State) (p : PageNumber), s.mode = .run →
    ((s.pte p).present = true →
      exec (.ptePage p.toNat) s = .next { s with resp := okResponse (s.pte p).frame.toNat [] }) ∧
    ((s.pte p).present = false → exec (.ptePage p.toNat) s = exec (.resolve p.toNat) s) ∧
    ∀ t, s.WellFormed → exec (.ptePage p.toNat) s = .next t → t.hasStatus .ok →
      t.resp = okResponse (t.pte p).frame.toNat [] ∧ (t.pte p).present = true ∧
        t.fte (t.pte p).frame = ⟨true, p⟩

/-! ### Byte accesses -/

/-- READ of a present page answers the frame's byte and marks the page referenced; nothing else changes (R200, R204). -/
def Obligations.ReadResidentByte : Prop :=
  ∀ (s : State) (a : AField), s.mode = .run → (s.pte (a.extractLsb' 12 8)).present = true →
    ∃ t, exec (.read a) s = .next t ∧
      t.resp = okResponse (s.frameByte (s.pte (a.extractLsb' 12 8)).frame (a.extractLsb' 0 12)).toNat [] ∧
      t.pte (a.extractLsb' 12 8) = { s.pte (a.extractLsb' 12 8) with
        referenced := true, age := (s.pte (a.extractLsb' 12 8)).age ||| 0x80 } ∧
      (∀ q, q ≠ a.extractLsb' 12 8 → t.pte q = s.pte q) ∧ RestKept s t

/-- WRITE to a present page stores the byte at the page's frame and offset, marks the page dirty and referenced, and
changes no other byte and nothing else (R201, R206). -/
def Obligations.WriteResidentByte : Prop :=
  ∀ (s : State) (a : AField) (v : Byte), s.mode = .run → s.MemoriesCanonical →
    (s.pte (a.extractLsb' 12 8)).present = true →
    ∃ t, exec (.write a v) s = .next t ∧ t.resp = okResponse 0 [] ∧ t.mode = .run ∧
      (∀ f o, t.frameByte f o =
        if f = (s.pte (a.extractLsb' 12 8)).frame ∧ o = a.extractLsb' 0 12 then v else s.frameByte f o) ∧
      t.pte (a.extractLsb' 12 8) = { s.pte (a.extractLsb' 12 8) with
        dirty := true, referenced := true, age := (s.pte (a.extractLsb' 12 8)).age ||| 0x80 } ∧
      (∀ q, q ≠ a.extractLsb' 12 8 → t.pte q = s.pte q) ∧ FrameTableKept s t ∧ StoreKept s t ∧ PortsKept s t

/-- A READ or WRITE of a page that is not present does what RESOLVE of the page does and then the access; where that
RESOLVE fails the access is not made and the answer is RESOLVE's (R70, R177, R200, R201). -/
def Obligations.ByteAccessFaultsIn : Prop :=
  ∀ (s t : State) (a : AField) (v : Byte), s.mode = .run → s.MemoriesCanonical →
    (s.pte (a.extractLsb' 12 8)).present = false → exec (.resolve (a.extractLsb' 12 8).toNat) s = .next t →
      (t.hasStatus .ok →
        exec (.read a) s = .next { t with
          resp := okResponse (t.frameByte (t.pte (a.extractLsb' 12 8)).frame (a.extractLsb' 0 12)).toNat [] } ∧
        ∃ u, exec (.write a v) s = .next u ∧ u.resp = okResponse 0 [] ∧ u.mode = .run ∧
          u.pte (a.extractLsb' 12 8) = { t.pte (a.extractLsb' 12 8) with dirty := true } ∧
          (∀ q, q ≠ a.extractLsb' 12 8 → u.pte q = t.pte q) ∧
          (∀ f o, u.frameByte f o =
            if f = (t.pte (a.extractLsb' 12 8)).frame ∧ o = a.extractLsb' 0 12 then v else t.frameByte f o) ∧
          FrameTableKept t u ∧ StoreKept t u ∧ PortsKept t u) ∧
      (¬ t.hasStatus .ok → exec (.read a) s = .next t ∧ exec (.write a v) s = .next t)

/-- READN over present pages answers the `n` bytes in order, the address modulo 2^20, and marks every page touched
referenced; nothing else changes; `n = 0` touches nothing (R98, R202, R203, R205). -/
def Obligations.ReadnResidentBytes : Prop :=
  ∀ (s : State) (a : AField) (n : Nat), s.mode = .run → touchesResident s a n →
    ∃ t, exec (.readn a n) s = .next t ∧
      t.resp = okResponse n ((List.range n).map fun k =>
        s.frameByte (s.pte (pageOf (byteAddress a k))).frame (offsetOf (byteAddress a k))) ∧
      (∀ k, k < n → t.pte (pageOf (byteAddress a k)) = { s.pte (pageOf (byteAddress a k)) with
        referenced := true, age := (s.pte (pageOf (byteAddress a k))).age ||| 0x80 }) ∧
      (∀ q, (∀ k, k < n → pageOf (byteAddress a k) ≠ q) → t.pte q = s.pte q) ∧ RestKept s t

/-- WRITEW, WRITEDW and WRITEZ over present pages store their bytes one after another from the address on, the address
modulo 2^20, a later byte over an earlier one; every page touched is dirty and referenced; every other byte and all
else is as before (R97, R202, R203, R207 to R209). -/
def Obligations.WriteSequenceResident : Prop :=
  ∀ (s : State) (a : AField) (i : Instr) (vs : List Byte), s.mode = .run → s.MemoriesCanonical → s.WellFormed →
    touchesResident s a vs.length →
    ((∃ v1 v2, i = .writew a v1 v2 ∧ vs = [v1, v2]) ∨
      (∃ v1 v2 v3 v4, i = .writedw a v1 v2 v3 v4 ∧ vs = [v1, v2, v3, v4]) ∨
      ∃ n, i = .writez a n ∧ vs = List.replicate n 0) →
    ∃ t, exec i s = .next t ∧ t.resp = okResponse 0 [] ∧ t.mode = .run ∧
      (∀ k v, vs[k]? = some v →
        (∀ j, k < j → j < vs.length → byteAddress a j ≠ byteAddress a k) →
        t.frameByte (s.pte (pageOf (byteAddress a k))).frame (offsetOf (byteAddress a k)) = v) ∧
      (∀ f o, (∀ k, k < vs.length →
          ¬ (f = (s.pte (pageOf (byteAddress a k))).frame ∧ o = offsetOf (byteAddress a k))) →
        t.frameByte f o = s.frameByte f o) ∧
      (∀ k, k < vs.length → t.pte (pageOf (byteAddress a k)) = { s.pte (pageOf (byteAddress a k)) with
        dirty := true, referenced := true, age := (s.pte (pageOf (byteAddress a k))).age ||| 0x80 }) ∧
      (∀ q, (∀ k, k < vs.length → pageOf (byteAddress a k) ≠ q) → t.pte q = s.pte q) ∧
      FrameTableKept s t ∧ StoreKept s t ∧ PortsKept s t

/-- READN is its byte reads one after another, resident or not: none for 0; after `n` bytes, one more READ of the next
address; it stops at the first READ that fails, `value` counting the bytes completed (R203, R205, R241). -/
def Obligations.ReadnIsItsByteReads : Prop :=
  ∀ (s : State) (a : AField), s.mode = .run →
    exec (.readn a 0) s = .next { s with resp := okResponse 0 [] } ∧
    (∀ n u t data b, exec (.readn a n) s = .next u → u.resp = okResponse n data →
      exec (.read (byteField a n)) u = .next t → t.resp = okResponse (BitVec.toNat (w := 8) b) [] →
        exec (.readn a (n + 1)) s = .next { t with resp := okResponse (n + 1) (data ++ [b]) }) ∧
    (∀ n u t data st info, exec (.readn a n) s = .next u → u.resp = okResponse n data → st ≠ .ok →
      exec (.read (byteField a n)) u = .next t → t.resp = failureResponse st info 0 →
        exec (.readn a (n + 1)) s = .next { t with resp := failureResponse st info n }) ∧
    ∀ n t st info k, exec (.readn a n) s = .next t → t.resp = failureResponse st info k → st ≠ .ok →
      exec (.readn a (n + 1)) s = .next t

/-- WRITEW, WRITEDW and WRITEZ are their byte writes one after another, resident or not, and stop at the first WRITE
that fails, `value` counting the bytes completed (R203, R207 to R209, R241). -/
def Obligations.WritesAreTheirByteWrites : Prop :=
  ∀ (s : State) (a : AField), s.mode = .run →
    (∀ v1 v2 u t, exec (.write a v1) s = .next u → u.hasStatus .ok → exec (.write (byteField a 1) v2) u = .next t →
      (t.hasStatus .ok → exec (.writew a v1 v2) s = .next t) ∧
      ∀ st info, st ≠ .ok → t.resp = failureResponse st info 0 →
        exec (.writew a v1 v2) s = .next { t with resp := failureResponse st info 1 }) ∧
    (∀ v1 v2 t, exec (.write a v1) s = .next t → ¬ t.hasStatus .ok → exec (.writew a v1 v2) s = .next t) ∧
    (∀ v1 v2 v3 v4 u t, exec (.writew a v1 v2) s = .next u → u.hasStatus .ok →
      exec (.writew (byteField a 2) v3 v4) u = .next t →
      (t.hasStatus .ok → exec (.writedw a v1 v2 v3 v4) s = .next t) ∧
      ∀ st info k, st ≠ .ok → t.resp = failureResponse st info k →
        exec (.writedw a v1 v2 v3 v4) s = .next { t with resp := failureResponse st info (k + 2) }) ∧
    (∀ v1 v2 v3 v4 t, exec (.writew a v1 v2) s = .next t → ¬ t.hasStatus .ok →
      exec (.writedw a v1 v2 v3 v4) s = .next t) ∧
    exec (.writez a 0) s = .next { s with resp := okResponse 0 [] } ∧
    (∀ n u t, exec (.writez a n) s = .next u → u.hasStatus .ok → exec (.write (byteField a n) 0) u = .next t →
      (t.hasStatus .ok → exec (.writez a (n + 1)) s = .next t) ∧
      ∀ st info, st ≠ .ok → t.resp = failureResponse st info 0 →
        exec (.writez a (n + 1)) s = .next { t with resp := failureResponse st info n }) ∧
    ∀ n t, exec (.writez a n) s = .next t → ¬ t.hasStatus .ok → exec (.writez a (n + 1)) s = .next t

/-! ### Internal operations with no command -/

/-- R153, R154, R156 to R160: what the frame-table marks and the physical-memory operations read and write, and that
they write nothing else. -/
def Obligations.FramePrimitives : Prop :=
  ∀ s : State, s.MemoriesCanonical →
    (∀ f p, (markOccupied f p s).fte f = ⟨true, p⟩ ∧ (∀ g, g ≠ f → (markOccupied f p s).fte g = s.fte g) ∧
      (markFree f s).fte f = ⟨false, 0⟩ ∧ ∀ g, g ≠ f → (markFree f s).fte g = s.fte g) ∧
    (∀ pa, memRead pa s = s.frameByte (frameOf pa) (physicalOffsetOf pa)) ∧
    (∀ pa v f o, (memWrite pa v s).frameByte f o =
      if f = frameOf pa ∧ o = physicalOffsetOf pa then v else s.frameByte f o) ∧
    (∀ f (o : Offset), Memory.read (pmReadPage f s) o.toNat = s.frameByte f o) ∧
    (∀ f g (o : Offset) (data : Memory), Memory.wf data = true →
      (pmWritePage f data s).frameByte g o = if g = f then Memory.read data o.toNat else s.frameByte g o) ∧
    ∀ f g o, (pmZero f s).frameByte g o = if g = f then 0 else s.frameByte g o

/-- R162, R163, R165: each store operation consumes one answer; on `ok` it reads or writes exactly the page's 4096 bytes,
or zeroes the store; on `fail` it raises `BackingStoreUnavailable` and the block is unchanged. -/
def Obligations.StorePrimitives : Prop :=
  ∀ s : State, s.MemoriesCanonical →
    (s.io.take 1 = [.ok] →
      (∀ p, ∃ data t, bsRead p s = .ok data t ∧ t.toBlock = s.toBlock ∧ Asked s t [⟨.read, p, .ok⟩] ∧
        ∀ o : Offset, Memory.read data o.toNat = s.storeByte p o) ∧
      (∀ p data, Memory.wf data = true → ∃ t, bsWrite p data s = .ok () t ∧
        t.toBlock = { s.toBlock with bs := t.bs } ∧ Asked s t [⟨.write, p, .ok⟩] ∧
        ∀ q (o : Offset), t.storeByte q o = if q = p then Memory.read data o.toNat else s.storeByte q o) ∧
      ∃ t, bsCreate s = .ok () t ∧ t.toBlock = { s.toBlock with bs := t.bs } ∧ Asked s t [⟨.create, 0, .ok⟩] ∧
        ∀ q o, t.storeByte q o = 0) ∧
    (s.io.take 1 = [.fail] →
      (∀ p, ∃ t, bsRead p s = .raise (.backingStoreUnavailable p) t ∧ t.toBlock = s.toBlock ∧
        Asked s t [⟨.read, p, .fail⟩]) ∧
      (∀ p data, ∃ t, bsWrite p data s = .raise (.backingStoreUnavailable p) t ∧ t.toBlock = s.toBlock ∧
        Asked s t [⟨.write, p, .fail⟩]) ∧
      ∃ t, bsCreate s = .raise (.backingStoreUnavailable 0) t ∧ t.toBlock = s.toBlock ∧
        Asked s t [⟨.create, 0, .fail⟩])

/-! ### Invariants -/

/-- Every step keeps the canonical form of both memories and the bounds of their addresses (R36, R37, R64), from every
state. -/
def Obligations.MemoriesStayCanonical : Prop :=
  ∀ s t : State, s.MemoriesCanonical → step s = .next t → t.MemoriesCanonical

/-- The state after power-on: `OFF` (R48, R260), and the invariants of the other statements hold in it. Its contents are
the model's choice (log 5). -/
def Obligations.ResetState : Prop :=
  State.reset.mode = .off ∧ State.reset.Good ∧ Sound State.reset

/-- Every step but a PT_SET or a PT_CLEAR leads from a good state to a good state: well-formed in `RUN`, whatever the
status and the store's answers (R45). -/
def Obligations.GoodStatesStayGood : Prop :=
  ∀ s t : State, s.Good →
    (∀ w answers later i, s.input = .command w answers :: later → decode w = .ok i → forges i = false) →
    step s = .next t → t.Good

/-- INV1 is kept by every step in `RUN`, PT_SET and PT_CLEAR among them: no operation reaches an entry that is present
and not mapped (R30, R40). -/
def Obligations.PresentImpliesMapped : Prop :=
  ∀ s t : State, (s.mode = .run → s.inv1) → step s = .next t → t.mode = .run → t.inv1

/-- From a well-formed state `InvariantViolation` is answered by a CHOOSE_VICTIM with no page resident and by no other
command (R182, R235; R45 denies even that one, log 16). -/
def Obligations.InvariantViolationOnlyChooseVictim : Prop :=
  ∀ (i : Instr) (s t : State), s.WellFormed → exec i s = .next t → t.hasStatus .invariantViolation →
    i = .chooseVictim ∧ ∀ p, (s.pte p).present = false

/-- PT_SET keeps a well-formed state well-formed exactly when neither the old nor the new entry is present, or both are
and name the same frame; PT_CLEAR exactly when the page is not present (R133 (b), R134 (b)). -/
def Obligations.ForgingSafeUses : Prop :=
  ∀ (s t : State) (p : PageNumber), s.mode = .run → s.WellFormed →
    (∀ e : PteImage, exec (.ptSet p.toNat e) s = .next t →
      (t.WellFormed ↔ ((s.pte p).present = false ∧ e.getLsbD 4 = false) ∨
        ((s.pte p).present = true ∧ e.getLsbD 4 = true ∧ e.extractLsb' 0 4 = (s.pte p).frame))) ∧
    (exec (.ptClear p.toNat) s = .next t → (t.WellFormed ↔ (s.pte p).present = false))

/-- Coherence: a MEM_INIT that answers OK leaves a well-formed and coherent state, and every command but PT_SET,
PT_CLEAR, MARK_DIRTY, MARK_CLEAN, LOAD and MARK_REFERENCED keeps it while the pool exists (R44; MARK_REFERENCED is left
out against R44, log 15). -/
def Obligations.CoherenceKept : Prop :=
  (∀ s t : State, exec .memInit s = .next t → t.hasStatus .ok → Sound t) ∧
  ∀ (i : Instr) (s t : State), s.mode = .run → Sound s → mayBreakCoherence i = false → exec i s = .next t →
    t.mode = .run → Sound t

/-- The virtual memory, from a well-formed and coherent state: it is zero after MEM_INIT; a READ or READN that answers
OK gives its bytes and leaves it unchanged; a WRITE that answers OK changes it at that address only (R72, R73 (a), (b),
(c)). -/
def Obligations.VirtualMemory : Prop :=
  (∀ s t : State, exec .memInit s = .next t → t.hasStatus .ok → ∀ x, t.vm x = 0) ∧
  ∀ (s t : State) (a : AField), s.mode = .run → Sound s → t.hasStatus .ok →
    (exec (.read a) s = .next t →
      t.resp = okResponse (s.vm (a.extractLsb' 0 20)).toNat [] ∧ ∀ x, t.vm x = s.vm x) ∧
    (∀ n, exec (.readn a n) s = .next t →
      t.resp = okResponse n ((List.range n).map fun k => s.vm (byteAddress a k)) ∧ ∀ x, t.vm x = s.vm x) ∧
    ∀ v, exec (.write a v) s = .next t → ∀ x, t.vm x = if x = a.extractLsb' 0 20 then v else s.vm x

/-- Every command that writes no byte leaves the virtual memory of a well-formed and coherent state unchanged at every
address, whatever its status, and so does a WRITE that fails; left out are the commands that may break coherence, but a
LOAD of a page that is not present is in (R73 (d)). -/
def Obligations.VirtualMemoryKept : Prop :=
  ∀ (i : Instr) (s t : State), s.mode = .run → Sound s → exec i s = .next t → t.mode = .run →
    (mayBreakCoherence i = false ∧ (byteLevel i = false ∨ (∃ a, i = .read a) ∨ (∃ a n, i = .readn a n) ∨
        ((∃ a v, i = .write a v) ∧ ¬ t.hasStatus .ok))) ∨
      (∃ p : PageNumber, i = .load p.toNat ∧ (s.pte p).present = false) →
    ∀ x, t.vm x = s.vm x

/-! ### Failures and the store's answers -/

/-- A `NotInitialized`, a `ContractViolation`, and a `BackingStoreUnavailable` of LOAD or EVICT leave the block exactly
as it was (R240 (a), (b)). -/
def Obligations.RefusalsChangeNothing : Prop :=
  ∀ (i : Instr) (s t : State), exec i s = .next t →
    (t.hasStatus .notInitialized ∨ t.hasStatus .contractViolation → t = { s with resp := t.resp }) ∧
    (t.hasStatus .backingStoreUnavailable → (∃ page, i = .load page ∨ i = .evict page) → t.toBlock = s.toBlock)

/-- A byte of the store changes only by a MEM_INIT that answers OK or by a successful write-back of its page (R37,
R163). -/
def Obligations.StoreWrittenOnlyByWriteBack : Prop :=
  ∀ (i : Instr) (s t : State) (p : PageNumber) (o : Offset), s.MemoriesCanonical → exec i s = .next t →
    t.storeByte p o ≠ s.storeByte p o →
      (i = .memInit ∧ t.hasStatus .ok) ∨
      ∃ new, t.ops = s.ops ++ new ∧ (⟨.write, p, .ok⟩ : StoreOp) ∈ new

/-- R231: the seven status codes, and which failures are fatal: those whose code has the top nibble 0xF. -/
def Obligations.ResponseCodes : Prop :=
  Status.ok.code = 0x00 ∧ Status.contractViolation.code = 0x01 ∧ Status.backingStoreUnavailable.code = 0x02 ∧
  Status.illegalCommand.code = 0x03 ∧ Status.notInitialized.code = 0x04 ∧ Status.reinitMisuse.code = 0xF0 ∧
  Status.invariantViolation.code = 0xF1 ∧
  (∀ st : Status, st.code ∈ [0x00, 0x01, 0x02, 0x03, 0x04, 0xF0, 0xF1]) ∧
  (∀ r : Response, r.word.extractLsb' 56 8 = r.status.code ∧ r.word.extractLsb' 32 24 = r.info ∧
    r.word.extractLsb' 0 32 = r.value) ∧
  (∀ k : Failure, k.fatal = true ↔ k.status.code.extractLsb' 4 4 = 0xF) ∧
  ∀ (k : Failure) (n : Nat) (s : State), k.fatal = true → (deliverFailure k n s).mode = .aborted

/-- What a failure records: `info` is the page of the store operation that failed, and 0 for every other kind; `value`
is 0 but for a multi-byte command, where it is below the number of its bytes; `data` is empty (R241). -/
def Obligations.FailureResponseRecords : Prop :=
  ∀ (i : Instr) (s t : State) (r : Response), exec i s = .next t → t.resp = some r → r.status ≠ .ok →
    r.data = [] ∧
    (r.status = .backingStoreUnavailable → ∃ before op, t.ops = s.ops ++ before ++ [op] ∧ op.answer = .fail ∧
      r.info = op.page.zeroExtend 24) ∧
    (r.status ≠ .backingStoreUnavailable → r.info = 0) ∧
    (r.value = 0 ∨ (∃ a n k, (i = .readn a n ∨ i = .writez a n) ∧ k < n ∧ r.value = BitVec.ofNat 32 k) ∨
      (∃ a v1 v2, i = .writew a v1 v2 ∧ r.value = 1) ∨
      ∃ a v1 v2 v3 v4, i = .writedw a v1 v2 v3 v4 ∧ r.value.toNat < 4)

/-- A command consumes the environment's answers in order, one for each store operation it attempts; a failed operation
is the last, and the command then answers `BackingStoreUnavailable`, which it answers in no other case (R79, R164,
R233). -/
def Obligations.AnswersConsumedInOrder : Prop :=
  ∀ (i : Instr) (s t : State), exec i s = .next t →
    ∃ new, t.ops = s.ops ++ new ∧ t.io = s.io.drop new.length ∧ new.map (·.answer) = s.io.take new.length ∧
      (∀ (before : List StoreOp) (op : StoreOp) (after : List StoreOp), new = before ++ op :: after →
        op.answer = .fail → after = []) ∧
      (t.hasStatus .backingStoreUnavailable ↔ ∃ before op, new = before ++ [op] ∧ op.answer = .fail)
end

