-- ==== Sys2Proof/Laws/Memory.lean ====
section
/-!
SUPPORT. The byte memory: what each operation reads as afterwards, that each keeps the canonical form and the bounds,
and that canonical memories with the same bytes are the same data.
-/

namespace Sys2Proof.Machine

@[simp] theorem Memory.read_nil (a : Nat) : Memory.read [] a = 0#8 := rfl

theorem Memory.read_cons (k : Nat) (v : Byte) (m : Memory) (a : Nat) :
    Memory.read ((k, v) :: m) a = if k = a then v else Memory.read m a := rfl

theorem Memory.wf_cons {k : Nat} {v : Byte} {m : Memory} :
    Memory.wf ((k, v) :: m) = true ↔ v ≠ 0#8 ∧ (∀ c ∈ m, k < c.1) ∧ Memory.wf m = true := by
  simp [Memory.wf, Config.unlistedByte, and_assoc, List.all_eq_true]

theorem Memory.below_iff {n : Nat} {m : Memory} : Memory.below n m = true ↔ ∀ c ∈ m, c.1 < n := by
  simp [Memory.below, List.all_eq_true]

/-- An address that no entry has reads as the unlisted byte. -/
theorem Memory.read_of_not_mem {m : Memory} {a : Nat} (h : ∀ c ∈ m, c.1 ≠ a) : Memory.read m a = 0#8 := by
  induction m with
  | nil => rfl
  | cons c m ih =>
    obtain ⟨k, v⟩ := c
    have hk : k ≠ a := h (k, v) (by simp)
    simp only [Memory.read_cons, hk, if_false]
    exact ih fun c hc => h c (by simp [hc])

theorem Memory.read_of_mem {m : Memory} (h : Memory.wf m = true) {a : Nat} {v : Byte} (hm : (a, v) ∈ m) :
    Memory.read m a = v := by
  induction m with
  | nil => cases hm
  | cons c m ih =>
    obtain ⟨k, x⟩ := c
    obtain ⟨_, hlt, hw⟩ := Memory.wf_cons.1 h
    rcases List.mem_cons.1 hm with he | hm
    · cases he; simp [Memory.read_cons]
    · have : k < a := hlt _ hm
      simp [Memory.read_cons, Nat.ne_of_lt this, ih hw hm]

theorem Memory.mem_ne_zero {m : Memory} (h : Memory.wf m = true) {c : Host.Cell} (hc : c ∈ m) : c.2 ≠ 0#8 := by
  induction m with
  | nil => cases hc
  | cons d m ih =>
    obtain ⟨hv, _, hw⟩ := Memory.wf_cons.1 h
    rcases List.mem_cons.1 hc with rfl | hc
    · exact hv
    · exact ih hw hc

/-- Two canonical memories with the same bytes are the same data. -/
theorem Memory.ext {m m' : Memory} (h : Memory.wf m = true) (h' : Memory.wf m' = true)
    (he : ∀ a, Memory.read m a = Memory.read m' a) : m = m' := by
  induction m generalizing m' with
  | nil =>
    cases m' with
    | nil => rfl
    | cons c m' =>
      have := he c.1
      rw [Memory.read_of_mem h' (List.mem_cons_self (a := (c.1, c.2)))] at this
      exact absurd this.symm (Memory.wf_cons.1 h').1
  | cons c m ih =>
    obtain ⟨k, v⟩ := c
    obtain ⟨hv, hlt, hw⟩ := Memory.wf_cons.1 h
    cases m' with
    | nil =>
      have := he k
      rw [Memory.read_of_mem h List.mem_cons_self] at this
      exact absurd this hv
    | cons c' m' =>
      obtain ⟨k', v'⟩ := c'
      obtain ⟨hv', hlt', hw'⟩ := Memory.wf_cons.1 h'
      have hk : k = k' := by
        rcases Nat.lt_trichotomy k k' with hlt1 | rfl | hlt1
        · have := he k
          rw [Memory.read_of_mem h List.mem_cons_self, Memory.read_of_not_mem] at this
          · exact absurd this hv
          · intro c hc
            rcases List.mem_cons.1 hc with rfl | hc
            · exact Nat.ne_of_gt hlt1
            · exact Nat.ne_of_gt (Nat.lt_trans hlt1 (hlt' c hc))
        · rfl
        · have := he k'
          rw [Memory.read_of_mem h' List.mem_cons_self, Memory.read_of_not_mem] at this
          · exact absurd this.symm hv'
          · intro c hc
            rcases List.mem_cons.1 hc with rfl | hc
            · exact Nat.ne_of_gt hlt1
            · exact Nat.ne_of_gt (Nat.lt_trans hlt1 (hlt c hc))
      subst hk
      have hvv : v = v' := by simpa [Memory.read_cons] using he k
      subst hvv
      congr 1
      refine ih hw hw' fun a => ?_
      by_cases hka : k = a
      · subst hka
        rw [Memory.read_of_not_mem fun c hc => Nat.ne_of_gt (hlt c hc),
          Memory.read_of_not_mem fun c hc => Nat.ne_of_gt (hlt' c hc)]
      · simpa [Memory.read_cons, hka] using he a

/-! ### Writing one byte -/

theorem Memory.read_write {m : Memory} (h : Memory.wf m = true) (a b : Nat) (v : Byte) :
    Memory.read (Memory.write m a v) b = if a = b then v else Memory.read m b := by
  induction m with
  | nil =>
    by_cases hv : v = 0#8 <;> by_cases hab : a = b <;>
      simp [Memory.write, Config.unlistedByte, Memory.read_cons, hv, hab]
  | cons c m ih =>
    obtain ⟨k, x⟩ := c
    obtain ⟨hx, hlt, hw⟩ := Memory.wf_cons.1 h
    have hmiss : ∀ d, d ≤ k → Memory.read m d = 0#8 := fun d hd =>
      Memory.read_of_not_mem fun c hc => Nat.ne_of_gt (Nat.lt_of_le_of_lt hd (hlt c hc))
    have hu : Config.unlistedByte = 0#8 := rfl
    unfold Memory.write
    by_cases h1 : a < k
    · rw [if_pos h1]
      split
      · rename_i hv
        by_cases hab : a = b
        · subst hab
          rw [if_pos rfl, hv, hu, Memory.read_cons, if_neg (Nat.ne_of_gt h1), hmiss a (Nat.le_of_lt h1)]
        · rw [if_neg hab]
      · rw [Memory.read_cons]
    · rw [if_neg h1]
      by_cases h2 : a = k
      · subst h2
        rw [if_pos rfl]
        split
        · rename_i hv
          by_cases hab : a = b
          · subst hab
            rw [if_pos rfl, hv, hu, hmiss a (Nat.le_refl a)]
          · rw [if_neg hab, Memory.read_cons, if_neg hab]
        · by_cases hab : a = b
          · rw [Memory.read_cons]; simp [hab]
          · simp [Memory.read_cons, hab]
      · rw [if_neg h2, Memory.read_cons, Memory.read_cons, ih hw]
        by_cases hkb : k = b
        · subst hkb; simp [h2]
        · simp [hkb]

theorem Memory.mem_write {m : Memory} {a : Nat} {v : Byte} {c : Host.Cell} (hc : c ∈ Memory.write m a v) :
    c ∈ m ∨ c = (a, v) := by
  induction m with
  | nil =>
    unfold Memory.write at hc
    split at hc
    · cases hc
    · right; simpa using hc
  | cons d m ih =>
    obtain ⟨k, x⟩ := d
    unfold Memory.write at hc
    split at hc
    · split at hc
      · exact .inl hc
      · rcases List.mem_cons.1 hc with rfl | hc
        · exact .inr rfl
        · exact .inl hc
    · split at hc
      · split at hc
        · exact .inl (by simp [hc])
        · rcases List.mem_cons.1 hc with rfl | hc
          · exact .inr rfl
          · exact .inl (by simp [hc])
      · rcases List.mem_cons.1 hc with rfl | hc
        · exact .inl (by simp)
        · rcases ih hc with h | h
          · exact .inl (by simp [h])
          · exact .inr h

/-- A byte write keeps the canonical form. -/
theorem Memory.wf_write {m : Memory} (h : Memory.wf m = true) (a : Nat) (v : Byte) :
    Memory.wf (Memory.write m a v) = true := by
  induction m with
  | nil =>
    unfold Memory.write
    split
    · rfl
    · rename_i hv
      exact Memory.wf_cons.2 ⟨hv, by simp, rfl⟩
  | cons c m ih =>
    obtain ⟨k, x⟩ := c
    obtain ⟨hx, hlt, hw⟩ := Memory.wf_cons.1 h
    unfold Memory.write
    split
    · rename_i h1
      split
      · exact h
      · rename_i hv
        refine Memory.wf_cons.2 ⟨hv, fun c hc => ?_, h⟩
        rcases List.mem_cons.1 hc with rfl | hc
        · exact h1
        · exact Nat.lt_trans h1 (hlt c hc)
    · rename_i h1
      split
      · rename_i h2
        split
        · exact hw
        · rename_i hv
          exact Memory.wf_cons.2 ⟨hv, fun c hc => h2 ▸ hlt c hc, hw⟩
      · rename_i h2
        refine Memory.wf_cons.2 ⟨hx, fun c hc => ?_, ih hw⟩
        rcases Memory.mem_write hc with hc | rfl
        · exact hlt c hc
        · show k < a
          omega

theorem Memory.below_write {m : Memory} {n a : Nat} {v : Byte} (h : Memory.below n m = true) (ha : a < n) :
    Memory.below n (Memory.write m a v) = true :=
  Memory.below_iff.2 fun c hc => by
    rcases Memory.mem_write hc with hc | rfl
    · exact Memory.below_iff.1 h c hc
    · exact ha

/-! ### Blocks -/

/-- The canonical form, as an order on the list of entries. -/
theorem Memory.wf_iff {m : Memory} :
    Memory.wf m = true ↔ m.Pairwise (fun c d => c.1 < d.1) ∧ ∀ c ∈ m, c.2 ≠ 0#8 := by
  induction m with
  | nil => simp [Memory.wf]
  | cons c m ih =>
    obtain ⟨k, v⟩ := c
    rw [Memory.wf_cons, ih]
    simp only [List.pairwise_cons, List.forall_mem_cons]
    tauto

/-- Reading is looking up: a canonical memory reads `v ≠ 0` at `a` exactly when it lists `(a, v)`. -/
theorem Memory.read_eq_iff {m : Memory} (h : Memory.wf m = true) {a : Nat} {v : Byte} (hv : v ≠ 0#8) :
    Memory.read m a = v ↔ (a, v) ∈ m := by
  refine ⟨fun hr => ?_, Memory.read_of_mem h⟩
  by_contra hc
  by_cases hex : ∃ x, (a, x) ∈ m
  · obtain ⟨x, hx⟩ := hex
    rw [Memory.read_of_mem h hx] at hr
    exact hc (hr ▸ hx)
  · rw [Memory.read_of_not_mem] at hr
    · exact hv hr.symm
    · rintro ⟨k, x⟩ hm rfl
      exact hex ⟨x, hm⟩

/-- Two canonical memories that list the same entry at `a` read the same there. -/
theorem Memory.read_congr {m m' : Memory} (h : Memory.wf m = true) (h' : Memory.wf m' = true) {a b : Nat}
    (hi : ∀ v, v ≠ 0#8 → ((a, v) ∈ m ↔ (b, v) ∈ m')) : Memory.read m a = Memory.read m' b := by
  by_cases h0 : Memory.read m a = 0#8
  · by_contra hne
    have hb : Memory.read m' b ≠ 0#8 := fun hz => hne (h0.trans hz.symm)
    have := (hi _ hb).2 ((Memory.read_eq_iff h' hb).1 rfl)
    exact hne (Memory.read_of_mem h this)
  · have := (hi _ h0).1 ((Memory.read_eq_iff h h0).1 rfl)
    exact (Memory.read_of_mem h' this).symm

theorem Memory.mem_readBlock {m : Memory} {base len : Nat} {c : Host.Cell} :
    c ∈ Memory.readBlock m base len ↔ (c.1 + base, c.2) ∈ m ∧ c.1 < len := by
  simp only [Memory.readBlock, List.mem_map, List.mem_filter, Bool.and_eq_true, decide_eq_true_eq]
  constructor
  · rintro ⟨d, ⟨hd, h1, h2⟩, rfl⟩
    refine ⟨?_, by show d.1 - base < len; omega⟩
    have : d.1 - base + base = d.1 := by omega
    simpa [this] using hd
  · rintro ⟨hc, hl⟩
    exact ⟨(c.1 + base, c.2), ⟨hc, by simp, by show c.1 + base < base + len; omega⟩, by simp⟩

theorem Memory.wf_readBlock {m : Memory} (h : Memory.wf m = true) (base len : Nat) :
    Memory.wf (Memory.readBlock m base len) = true := by
  obtain ⟨hp, hz⟩ := Memory.wf_iff.1 h
  refine Memory.wf_iff.2 ⟨?_, fun c hc => hz (c.1 + base, c.2) (Memory.mem_readBlock.1 hc).1⟩
  refine List.Pairwise.map _ ?_ ((hp.filter _).imp_of_mem (S := fun c d => base ≤ c.1 ∧ c.1 < d.1) ?_)
  · rintro c d ⟨h1, h2⟩
    show c.1 - base < d.1 - base
    omega
  · intro c d hc _ hlt
    simp only [List.mem_filter, Bool.and_eq_true, decide_eq_true_eq] at hc
    exact ⟨hc.2.1, hlt⟩

theorem Memory.read_readBlock {m : Memory} (h : Memory.wf m = true) (base len a : Nat) :
    Memory.read (Memory.readBlock m base len) a = if a < len then Memory.read m (base + a) else 0#8 := by
  by_cases ha : a < len
  · rw [if_pos ha]
    refine Memory.read_congr (Memory.wf_readBlock h base len) h fun v _ => ?_
    rw [Memory.mem_readBlock, Nat.add_comm a base]
    exact ⟨fun x => x.1, fun x => ⟨x, ha⟩⟩
  · rw [if_neg ha]
    exact Memory.read_of_not_mem fun c hc hca => ha (hca ▸ (Memory.mem_readBlock.1 hc).2)

theorem Memory.mem_writeBlock {m data : Memory} {base len : Nat} {c : Host.Cell} :
    c ∈ Memory.writeBlock m base len data ↔
      (c ∈ m ∧ (c.1 < base ∨ base + len ≤ c.1)) ∨ (base ≤ c.1 ∧ c.1 < base + len ∧ (c.1 - base, c.2) ∈ data) := by
  simp only [Memory.writeBlock, List.mem_append, List.mem_map, List.mem_filter, decide_eq_true_eq]
  constructor
  · rintro ((⟨h1, h2⟩ | ⟨d, ⟨h1, h2⟩, rfl⟩) | ⟨h1, h2⟩)
    · exact .inl ⟨h1, .inl h2⟩
    · refine .inr ⟨by simp, by show d.1 + base < base + len; omega, by simpa using h1⟩
    · exact .inl ⟨h1, .inr h2⟩
  · rintro (⟨h1, h2 | h2⟩ | ⟨h1, h2, h3⟩)
    · exact .inl (.inl ⟨h1, h2⟩)
    · exact .inr ⟨h1, h2⟩
    · refine .inl (.inr ⟨_, ⟨h3, by show c.1 - base < len; omega⟩, ?_⟩)
      ext1
      · show c.1 - base + base = c.1; omega
      · rfl

/-- Replacing a block by a canonical memory keeps the canonical form. -/
theorem Memory.wf_writeBlock {m data : Memory} (h : Memory.wf m = true) (hd : Memory.wf data = true)
    (base len : Nat) : Memory.wf (Memory.writeBlock m base len data) = true := by
  obtain ⟨hp, hz⟩ := Memory.wf_iff.1 h
  obtain ⟨hpd, hzd⟩ := Memory.wf_iff.1 hd
  refine Memory.wf_iff.2 ⟨?_, fun c hc => ?_⟩
  · unfold Memory.writeBlock
    refine List.pairwise_append.2 ⟨List.pairwise_append.2 ⟨hp.filter _, ?_, ?_⟩, hp.filter _, ?_⟩
    · exact List.Pairwise.map _ (fun c d hlt => by show c.1 + base < d.1 + base; omega) (hpd.filter _)
    · intro c hc d hd'
      simp only [List.mem_filter, List.mem_map, decide_eq_true_eq] at hc hd'
      obtain ⟨e, _, rfl⟩ := hd'
      show c.1 < e.1 + base
      omega
    · intro c hc d hd'
      simp only [List.mem_append, List.mem_filter, List.mem_map, decide_eq_true_eq] at hc hd'
      rcases hc with hc | ⟨e, he, rfl⟩
      · omega
      · show e.1 + base < d.1
        omega
  · rcases Memory.mem_writeBlock.1 hc with ⟨hc, _⟩ | ⟨_, _, hc⟩
    · exact hz c hc
    · exact hzd (c.1 - base, c.2) hc

/-- Reading after a block write: the new bytes inside the block, the old ones outside. -/
theorem Memory.read_writeBlock {m data : Memory} (h : Memory.wf m = true) (hd : Memory.wf data = true)
    (base len a : Nat) :
    Memory.read (Memory.writeBlock m base len data) a =
      if base ≤ a ∧ a < base + len then Memory.read data (a - base) else Memory.read m a := by
  have hw := Memory.wf_writeBlock h hd base len
  by_cases ha : base ≤ a ∧ a < base + len
  · rw [if_pos ha]
    refine Memory.read_congr hw hd fun v _ => ?_
    rw [Memory.mem_writeBlock]
    constructor
    · rintro (⟨_, h2⟩ | ⟨_, _, h3⟩)
      · exact absurd h2 (by show ¬(a < base ∨ base + len ≤ a); omega)
      · exact h3
    · exact fun h3 => .inr ⟨ha.1, ha.2, h3⟩
  · rw [if_neg ha]
    refine Memory.read_congr hw h fun v _ => ?_
    rw [Memory.mem_writeBlock]
    constructor
    · rintro (⟨h1, _⟩ | ⟨h1, h2, _⟩)
      · exact h1
      · exact absurd ⟨h1, h2⟩ ha
    · exact fun h1 => .inl ⟨h1, by show a < base ∨ base + len ≤ a; omega⟩

theorem Memory.below_writeBlock {m data : Memory} {n base len : Nat} (h : Memory.below n m = true)
    (hn : base + len ≤ n) : Memory.below n (Memory.writeBlock m base len data) = true :=
  Memory.below_iff.2 fun c hc => by
    rcases Memory.mem_writeBlock.1 hc with ⟨hc, _⟩ | ⟨_, h2, _⟩
    · exact Memory.below_iff.1 h c hc
    · omega

/-! ### A memory given byte by byte -/

theorem Memory.wf_ofBytes (size : Nat) (f : Nat → Byte) : Memory.wf (Memory.ofBytes size f) = true := by
  refine Memory.wf_iff.2 ⟨List.Pairwise.filter _ (List.pairwise_map.2 (by simpa using List.pairwise_lt_range)), fun c hc => ?_⟩
  have := (List.mem_filter.1 hc).2
  simpa [Config.unlistedByte] using this

theorem Memory.below_ofBytes (size : Nat) (f : Nat → Byte) : Memory.below size (Memory.ofBytes size f) = true :=
  Memory.below_iff.2 fun c hc => by
    obtain ⟨a, ha, rfl⟩ := List.mem_map.1 (List.mem_filter.1 hc).1
    exact List.mem_range.1 ha

theorem Memory.read_ofBytes {size a : Nat} (f : Nat → Byte) (ha : a < size) :
    Memory.read (Memory.ofBytes size f) a = f a := by
  by_cases h0 : f a = 0#8
  · rw [h0]
    refine Memory.read_of_not_mem fun c hc hca => ?_
    obtain ⟨hm, hz⟩ := List.mem_filter.1 hc
    obtain ⟨b, _, rfl⟩ := List.mem_map.1 hm
    have hba : b = a := hca
    subst hba
    simp [Config.unlistedByte, h0] at hz
  · refine Memory.read_of_mem (Memory.wf_ofBytes size f) (List.mem_filter.2 ⟨?_, ?_⟩)
    · exact List.mem_map.2 ⟨a, List.mem_range.2 ha, rfl⟩
    · simpa [Config.unlistedByte] using h0

end Sys2Proof.Machine
end

