-- ==== Sys2Proof/Laws/Operands.lean ====
section
/-!
SUPPORT. The address codec as arithmetic and its round trips (spec/40_address_codec.md R120 to R124), the checked
operands (spec/30_encoding.md R94 to R96), the scans' lists, the packed images.
-/

namespace Sys2Proof.Machine

theorem toNat_append {m n : Nat} (x : BitVec m) (y : BitVec n) : (x ++ y).toNat = x.toNat * 2 ^ n + y.toNat := by
  rw [BitVec.toNat_append, ← Nat.shiftLeft_add_eq_or_of_lt y.isLt, Nat.shiftLeft_eq]

theorem encodeVirtual_toNat (p : PageNumber) (o : Offset) :
    (encodeVirtual p o).toNat = storeBase p + o.toNat := by
  unfold encodeVirtual storeBase; rw [toNat_append]; rfl

theorem encodePhysical_toNat (f : FrameNumber) (o : Offset) :
    (encodePhysical f o).toNat = frameBase f + o.toNat := by
  unfold encodePhysical frameBase; rw [toNat_append]; rfl

theorem pageOf_toNat (va : VirtualAddress) : (pageOf va).toNat = va.toNat / 4096 := by
  have := va.isLt
  simp only [pageOf, BitVec.extractLsb'_toNat, Nat.shiftRight_eq_div_pow]
  omega

theorem offsetOf_toNat (va : VirtualAddress) : (offsetOf va).toNat = va.toNat % 4096 := by
  simp [offsetOf, BitVec.extractLsb'_toNat]

theorem frameOf_toNat (pa : PhysicalAddress) : (frameOf pa).toNat = pa.toNat / 4096 := by
  have := pa.isLt
  simp only [frameOf, BitVec.extractLsb'_toNat, Nat.shiftRight_eq_div_pow]
  omega

theorem physicalOffsetOf_toNat (pa : PhysicalAddress) : (physicalOffsetOf pa).toNat = pa.toNat % 4096 := by
  simp [physicalOffsetOf, BitVec.extractLsb'_toNat]

@[simp] theorem pageOf_encodeVirtual (p : PageNumber) (o : Offset) : pageOf (encodeVirtual p o) = p := by
  apply BitVec.eq_of_toNat_eq
  have := o.isLt
  rw [pageOf_toNat, encodeVirtual_toNat, storeBase, Config.pageSize]
  omega

@[simp] theorem offsetOf_encodeVirtual (p : PageNumber) (o : Offset) : offsetOf (encodeVirtual p o) = o := by
  apply BitVec.eq_of_toNat_eq
  have := o.isLt
  rw [offsetOf_toNat, encodeVirtual_toNat, storeBase, Config.pageSize]
  omega

@[simp] theorem encodeVirtual_pageOf_offsetOf (va : VirtualAddress) : encodeVirtual (pageOf va) (offsetOf va) = va := by
  apply BitVec.eq_of_toNat_eq
  rw [encodeVirtual_toNat, storeBase, Config.pageSize, pageOf_toNat, offsetOf_toNat]
  omega

@[simp] theorem frameOf_encodePhysical (f : FrameNumber) (o : Offset) : frameOf (encodePhysical f o) = f := by
  apply BitVec.eq_of_toNat_eq
  have := o.isLt
  rw [frameOf_toNat, encodePhysical_toNat, frameBase, Config.pageSize]
  omega

@[simp] theorem physicalOffsetOf_encodePhysical (f : FrameNumber) (o : Offset) :
    physicalOffsetOf (encodePhysical f o) = o := by
  apply BitVec.eq_of_toNat_eq
  have := o.isLt
  rw [physicalOffsetOf_toNat, encodePhysical_toNat, frameBase, Config.pageSize]
  omega

theorem storeBase_bound (p : PageNumber) : storeBase p + Config.pageSize ≤ Config.bsSize := by
  have := p.isLt
  simp only [storeBase, Config.pageSize, Config.bsSize]
  omega

theorem frameBase_bound (f : FrameNumber) : frameBase f + Config.pageSize ≤ Config.pmSize := by
  have := f.isLt
  simp only [frameBase, Config.pageSize, Config.pmSize]
  omega

/-- Two virtual addresses with the same page and the same offset are the same address. -/
theorem virtualAddress_ext {va vb : VirtualAddress} (hp : pageOf va = pageOf vb) (ho : offsetOf va = offsetOf vb) :
    va = vb := by
  rw [← encodeVirtual_pageOf_offsetOf va, hp, ho, encodeVirtual_pageOf_offsetOf]

/-! ### Checked operands -/

theorem pageOperand_of_lt {x : Nat} (h : x < 256) : pageOperand x = some (BitVec.ofNat 8 x) := if_pos h
theorem pageOperand_of_ge {x : Nat} (h : 256 ≤ x) : pageOperand x = none := if_neg (Nat.not_lt.2 h)
theorem frameOperand_of_lt {x : Nat} (h : x < 16) : frameOperand x = some (BitVec.ofNat 4 x) := if_pos h
theorem frameOperand_of_ge {x : Nat} (h : 16 ≤ x) : frameOperand x = none := if_neg (Nat.not_lt.2 h)
theorem offsetOperand_of_lt {x : Nat} (h : x < 4096) : offsetOperand x = some (BitVec.ofNat 12 x) := if_pos h
theorem offsetOperand_of_ge {x : Nat} (h : 4096 ≤ x) : offsetOperand x = none := if_neg (Nat.not_lt.2 h)

@[simp] theorem pageOperand_toNat (p : PageNumber) : pageOperand p.toNat = some p := by
  rw [pageOperand_of_lt p.isLt]; simp

/-! ### The scans' lists -/

theorem mem_allPages (p : PageNumber) : p ∈ allPages :=
  List.mem_map.2 ⟨p.toNat, List.mem_range.2 p.isLt, by simp⟩

theorem mem_allFrames (f : FrameNumber) : f ∈ allFrames :=
  List.mem_map.2 ⟨f.toNat, List.mem_range.2 f.isLt, by simp⟩

theorem ofNat_lt_ofNat {w a b : Nat} (h : a < b) (hb : b < 2 ^ w) : BitVec.ofNat w a < BitVec.ofNat w b := by
  rw [BitVec.lt_def, BitVec.toNat_ofNat, BitVec.toNat_ofNat, Nat.mod_eq_of_lt (Nat.lt_trans h hb), Nat.mod_eq_of_lt hb]
  exact h

/-- The pages are scanned in ascending order. -/
theorem allPages_sorted : allPages.Pairwise (· < ·) :=
  List.pairwise_map.2 (List.pairwise_lt_range.imp_of_mem fun _ hb h => ofNat_lt_ofNat h (List.mem_range.1 hb))

/-- The frames are scanned in ascending order. -/
theorem allFrames_sorted : allFrames.Pairwise (· < ·) :=
  List.pairwise_map.2 (List.pairwise_lt_range.imp_of_mem fun _ hb h => ofNat_lt_ofNat h (List.mem_range.1 hb))

/-! ### Entries -/

@[simp] theorem fresh_frame (f : FrameNumber) : (Pte.fresh f).frame = f := rfl
@[simp] theorem fresh_present (f : FrameNumber) : (Pte.fresh f).present = false := rfl
@[simp] theorem fresh_mapped (f : FrameNumber) : (Pte.fresh f).mapped = true := rfl
@[simp] theorem fresh_dirty (f : FrameNumber) : (Pte.fresh f).dirty = false := rfl
@[simp] theorem evicted_frame (e : Pte) : e.evicted.frame = e.frame := rfl
@[simp] theorem evicted_present (e : Pte) : e.evicted.present = false := rfl
@[simp] theorem evicted_mapped (e : Pte) : e.evicted.mapped = true := rfl
@[simp] theorem evicted_dirty (e : Pte) : e.evicted.dirty = false := rfl
@[simp] theorem remapped_frame (e : Pte) (f : FrameNumber) : (e.remapped f).frame = f := rfl
@[simp] theorem remapped_present (e : Pte) (f : FrameNumber) : (e.remapped f).present = e.present := rfl
@[simp] theorem remapped_mapped (e : Pte) (f : FrameNumber) : (e.remapped f).mapped = true := rfl
@[simp] theorem remapped_dirty (e : Pte) (f : FrameNumber) : (e.remapped f).dirty = e.dirty := rfl
@[simp] theorem loaded_frame (e : Pte) : e.loaded.frame = e.frame := rfl
@[simp] theorem loaded_present (e : Pte) : e.loaded.present = true := rfl
@[simp] theorem loaded_mapped (e : Pte) : e.loaded.mapped = e.mapped := rfl
@[simp] theorem loaded_dirty (e : Pte) : e.loaded.dirty = false := rfl
@[simp] theorem loaded_age (e : Pte) : e.loaded.age = e.age := rfl
@[simp] theorem markDirty_frame (e : Pte) : e.markDirty.frame = e.frame := rfl
@[simp] theorem markDirty_present (e : Pte) : e.markDirty.present = e.present := rfl
@[simp] theorem markDirty_mapped (e : Pte) : e.markDirty.mapped = e.mapped := rfl
@[simp] theorem markDirty_dirty (e : Pte) : e.markDirty.dirty = true := rfl
@[simp] theorem markClean_frame (e : Pte) : e.markClean.frame = e.frame := rfl
@[simp] theorem markClean_present (e : Pte) : e.markClean.present = e.present := rfl
@[simp] theorem markClean_mapped (e : Pte) : e.markClean.mapped = e.mapped := rfl
@[simp] theorem markReferenced_frame (e : Pte) : e.markReferenced.frame = e.frame := rfl
@[simp] theorem markReferenced_present (e : Pte) : e.markReferenced.present = e.present := rfl
@[simp] theorem markReferenced_mapped (e : Pte) : e.markReferenced.mapped = e.mapped := rfl
@[simp] theorem markReferenced_dirty (e : Pte) : e.markReferenced.dirty = e.dirty := rfl
@[simp] theorem markUnreferenced_frame (e : Pte) : e.markUnreferenced.frame = e.frame := rfl
@[simp] theorem markUnreferenced_present (e : Pte) : e.markUnreferenced.present = e.present := rfl
@[simp] theorem markUnreferenced_mapped (e : Pte) : e.markUnreferenced.mapped = e.mapped := rfl
@[simp] theorem markUnreferenced_dirty (e : Pte) : e.markUnreferenced.dirty = e.dirty := rfl
@[simp] theorem markUnreferenced_zero : Pte.zero.markUnreferenced = Pte.zero := rfl
@[simp] theorem taken_occupied (p : PageNumber) : (Fte.taken p).occupied = true := rfl
@[simp] theorem taken_owner (p : PageNumber) : (Fte.taken p).owner = p := rfl
@[simp] theorem free_occupied : Fte.free.occupied = false := rfl
@[simp] theorem free_owner : Fte.free.owner = 0 := rfl
@[simp] theorem zero_present : Pte.zero.present = false := rfl
@[simp] theorem zero_mapped : Pte.zero.mapped = false := rfl
@[simp] theorem zero_dirty : Pte.zero.dirty = false := rfl
@[simp] theorem zero_frame : Pte.zero.frame = 0 := rfl

/-- Marking a page referenced twice equals marking it once (R141). -/
@[simp] theorem markReferenced_markReferenced (e : Pte) : e.markReferenced.markReferenced = e.markReferenced := by
  simp [Pte.markReferenced, BitVec.or_assoc]

end Sys2Proof.Machine
end

