-- ==== Sys2Proof/Laws/State.lean ====
section
/-!
SUPPORT. What each update of the state leaves of each field, and of each table entry: one lemma per field per update,
true by rfl, so that no later proof unfolds a record update.
-/

namespace Sys2Proof.Machine

/-! ### setPte -/

@[simp] theorem setPte_mode (s : State) (p : PageNumber) (e : Pte) : (s.setPte p e).mode = s.mode := rfl
@[simp] theorem setPte_ft (s : State) (p : PageNumber) (e : Pte) : (s.setPte p e).ft = s.ft := rfl
@[simp] theorem setPte_pm (s : State) (p : PageNumber) (e : Pte) : (s.setPte p e).pm = s.pm := rfl
@[simp] theorem setPte_bs (s : State) (p : PageNumber) (e : Pte) : (s.setPte p e).bs = s.bs := rfl
@[simp] theorem setPte_input (s : State) (p : PageNumber) (e : Pte) : (s.setPte p e).input = s.input := rfl
@[simp] theorem setPte_io (s : State) (p : PageNumber) (e : Pte) : (s.setPte p e).io = s.io := rfl
@[simp] theorem setPte_ops (s : State) (p : PageNumber) (e : Pte) : (s.setPte p e).ops = s.ops := rfl
@[simp] theorem setPte_resp (s : State) (p : PageNumber) (e : Pte) : (s.setPte p e).resp = s.resp := rfl
@[simp] theorem setPte_freeCount (s : State) (p : PageNumber) (e : Pte) : (s.setPte p e).freeCount = s.freeCount := rfl
@[simp] theorem setPte_fte (s : State) (p : PageNumber) (e : Pte) (x : FrameNumber) : (s.setPte p e).fte x = s.fte x := rfl

/-! ### setFte -/

@[simp] theorem setFte_mode (s : State) (f : FrameNumber) (e : Fte) : (s.setFte f e).mode = s.mode := rfl
@[simp] theorem setFte_pt (s : State) (f : FrameNumber) (e : Fte) : (s.setFte f e).pt = s.pt := rfl
@[simp] theorem setFte_pm (s : State) (f : FrameNumber) (e : Fte) : (s.setFte f e).pm = s.pm := rfl
@[simp] theorem setFte_bs (s : State) (f : FrameNumber) (e : Fte) : (s.setFte f e).bs = s.bs := rfl
@[simp] theorem setFte_input (s : State) (f : FrameNumber) (e : Fte) : (s.setFte f e).input = s.input := rfl
@[simp] theorem setFte_io (s : State) (f : FrameNumber) (e : Fte) : (s.setFte f e).io = s.io := rfl
@[simp] theorem setFte_ops (s : State) (f : FrameNumber) (e : Fte) : (s.setFte f e).ops = s.ops := rfl
@[simp] theorem setFte_resp (s : State) (f : FrameNumber) (e : Fte) : (s.setFte f e).resp = s.resp := rfl
@[simp] theorem setFte_freeCount (s : State) (f : FrameNumber) (e : Fte) : (s.setFte f e).freeCount = s.freeCount := rfl
@[simp] theorem setFte_pte (s : State) (f : FrameNumber) (e : Fte) (x : PageNumber) : (s.setFte f e).pte x = s.pte x := rfl

/-! ### markReferenced -/

@[simp] theorem markReferenced_mode (s : State) (p : PageNumber) : (s.markReferenced p).mode = s.mode := rfl
@[simp] theorem markReferenced_ft (s : State) (p : PageNumber) : (s.markReferenced p).ft = s.ft := rfl
@[simp] theorem markReferenced_pm (s : State) (p : PageNumber) : (s.markReferenced p).pm = s.pm := rfl
@[simp] theorem markReferenced_bs (s : State) (p : PageNumber) : (s.markReferenced p).bs = s.bs := rfl
@[simp] theorem markReferenced_input (s : State) (p : PageNumber) : (s.markReferenced p).input = s.input := rfl
@[simp] theorem markReferenced_io (s : State) (p : PageNumber) : (s.markReferenced p).io = s.io := rfl
@[simp] theorem markReferenced_ops (s : State) (p : PageNumber) : (s.markReferenced p).ops = s.ops := rfl
@[simp] theorem markReferenced_resp (s : State) (p : PageNumber) : (s.markReferenced p).resp = s.resp := rfl
@[simp] theorem markReferenced_freeCount (s : State) (p : PageNumber) : (s.markReferenced p).freeCount = s.freeCount := rfl
@[simp] theorem markReferenced_fte (s : State) (p : PageNumber) (x : FrameNumber) : (s.markReferenced p).fte x = s.fte x := rfl

/-! ### markWritten -/

@[simp] theorem markWritten_mode (s : State) (p : PageNumber) : (s.markWritten p).mode = s.mode := rfl
@[simp] theorem markWritten_ft (s : State) (p : PageNumber) : (s.markWritten p).ft = s.ft := rfl
@[simp] theorem markWritten_pm (s : State) (p : PageNumber) : (s.markWritten p).pm = s.pm := rfl
@[simp] theorem markWritten_bs (s : State) (p : PageNumber) : (s.markWritten p).bs = s.bs := rfl
@[simp] theorem markWritten_input (s : State) (p : PageNumber) : (s.markWritten p).input = s.input := rfl
@[simp] theorem markWritten_io (s : State) (p : PageNumber) : (s.markWritten p).io = s.io := rfl
@[simp] theorem markWritten_ops (s : State) (p : PageNumber) : (s.markWritten p).ops = s.ops := rfl
@[simp] theorem markWritten_resp (s : State) (p : PageNumber) : (s.markWritten p).resp = s.resp := rfl
@[simp] theorem markWritten_freeCount (s : State) (p : PageNumber) : (s.markWritten p).freeCount = s.freeCount := rfl
@[simp] theorem markWritten_fte (s : State) (p : PageNumber) (x : FrameNumber) : (s.markWritten p).fte x = s.fte x := rfl

/-! ### markOccupied -/

@[simp] theorem markOccupied_mode (s : State) (f : FrameNumber) (p : PageNumber) : (markOccupied f p s).mode = s.mode := rfl
@[simp] theorem markOccupied_pt (s : State) (f : FrameNumber) (p : PageNumber) : (markOccupied f p s).pt = s.pt := rfl
@[simp] theorem markOccupied_pm (s : State) (f : FrameNumber) (p : PageNumber) : (markOccupied f p s).pm = s.pm := rfl
@[simp] theorem markOccupied_bs (s : State) (f : FrameNumber) (p : PageNumber) : (markOccupied f p s).bs = s.bs := rfl
@[simp] theorem markOccupied_input (s : State) (f : FrameNumber) (p : PageNumber) : (markOccupied f p s).input = s.input := rfl
@[simp] theorem markOccupied_io (s : State) (f : FrameNumber) (p : PageNumber) : (markOccupied f p s).io = s.io := rfl
@[simp] theorem markOccupied_ops (s : State) (f : FrameNumber) (p : PageNumber) : (markOccupied f p s).ops = s.ops := rfl
@[simp] theorem markOccupied_resp (s : State) (f : FrameNumber) (p : PageNumber) : (markOccupied f p s).resp = s.resp := rfl
@[simp] theorem markOccupied_freeCount (s : State) (f : FrameNumber) (p : PageNumber) : (markOccupied f p s).freeCount = s.freeCount := rfl
@[simp] theorem markOccupied_pte (s : State) (f : FrameNumber) (p : PageNumber) (x : PageNumber) : (markOccupied f p s).pte x = s.pte x := rfl

/-! ### markFree -/

@[simp] theorem markFree_mode (s : State) (f : FrameNumber) : (markFree f s).mode = s.mode := rfl
@[simp] theorem markFree_pt (s : State) (f : FrameNumber) : (markFree f s).pt = s.pt := rfl
@[simp] theorem markFree_pm (s : State) (f : FrameNumber) : (markFree f s).pm = s.pm := rfl
@[simp] theorem markFree_bs (s : State) (f : FrameNumber) : (markFree f s).bs = s.bs := rfl
@[simp] theorem markFree_input (s : State) (f : FrameNumber) : (markFree f s).input = s.input := rfl
@[simp] theorem markFree_io (s : State) (f : FrameNumber) : (markFree f s).io = s.io := rfl
@[simp] theorem markFree_ops (s : State) (f : FrameNumber) : (markFree f s).ops = s.ops := rfl
@[simp] theorem markFree_resp (s : State) (f : FrameNumber) : (markFree f s).resp = s.resp := rfl
@[simp] theorem markFree_freeCount (s : State) (f : FrameNumber) : (markFree f s).freeCount = s.freeCount := rfl
@[simp] theorem markFree_pte (s : State) (f : FrameNumber) (x : PageNumber) : (markFree f s).pte x = s.pte x := rfl

/-! ### memWrite -/

@[simp] theorem memWrite_mode (s : State) (pa : PhysicalAddress) (v : Byte) : (memWrite pa v s).mode = s.mode := rfl
@[simp] theorem memWrite_pt (s : State) (pa : PhysicalAddress) (v : Byte) : (memWrite pa v s).pt = s.pt := rfl
@[simp] theorem memWrite_ft (s : State) (pa : PhysicalAddress) (v : Byte) : (memWrite pa v s).ft = s.ft := rfl
@[simp] theorem memWrite_bs (s : State) (pa : PhysicalAddress) (v : Byte) : (memWrite pa v s).bs = s.bs := rfl
@[simp] theorem memWrite_input (s : State) (pa : PhysicalAddress) (v : Byte) : (memWrite pa v s).input = s.input := rfl
@[simp] theorem memWrite_io (s : State) (pa : PhysicalAddress) (v : Byte) : (memWrite pa v s).io = s.io := rfl
@[simp] theorem memWrite_ops (s : State) (pa : PhysicalAddress) (v : Byte) : (memWrite pa v s).ops = s.ops := rfl
@[simp] theorem memWrite_resp (s : State) (pa : PhysicalAddress) (v : Byte) : (memWrite pa v s).resp = s.resp := rfl
@[simp] theorem memWrite_freeCount (s : State) (pa : PhysicalAddress) (v : Byte) : (memWrite pa v s).freeCount = s.freeCount := rfl
@[simp] theorem memWrite_pte (s : State) (pa : PhysicalAddress) (v : Byte) (x : PageNumber) : (memWrite pa v s).pte x = s.pte x := rfl
@[simp] theorem memWrite_fte (s : State) (pa : PhysicalAddress) (v : Byte) (x : FrameNumber) : (memWrite pa v s).fte x = s.fte x := rfl

/-! ### pmWritePage -/

@[simp] theorem pmWritePage_mode (s : State) (f : FrameNumber) (data : Memory) : (pmWritePage f data s).mode = s.mode := rfl
@[simp] theorem pmWritePage_pt (s : State) (f : FrameNumber) (data : Memory) : (pmWritePage f data s).pt = s.pt := rfl
@[simp] theorem pmWritePage_ft (s : State) (f : FrameNumber) (data : Memory) : (pmWritePage f data s).ft = s.ft := rfl
@[simp] theorem pmWritePage_bs (s : State) (f : FrameNumber) (data : Memory) : (pmWritePage f data s).bs = s.bs := rfl
@[simp] theorem pmWritePage_input (s : State) (f : FrameNumber) (data : Memory) : (pmWritePage f data s).input = s.input := rfl
@[simp] theorem pmWritePage_io (s : State) (f : FrameNumber) (data : Memory) : (pmWritePage f data s).io = s.io := rfl
@[simp] theorem pmWritePage_ops (s : State) (f : FrameNumber) (data : Memory) : (pmWritePage f data s).ops = s.ops := rfl
@[simp] theorem pmWritePage_resp (s : State) (f : FrameNumber) (data : Memory) : (pmWritePage f data s).resp = s.resp := rfl
@[simp] theorem pmWritePage_freeCount (s : State) (f : FrameNumber) (data : Memory) : (pmWritePage f data s).freeCount = s.freeCount := rfl
@[simp] theorem pmWritePage_pte (s : State) (f : FrameNumber) (data : Memory) (x : PageNumber) : (pmWritePage f data s).pte x = s.pte x := rfl
@[simp] theorem pmWritePage_fte (s : State) (f : FrameNumber) (data : Memory) (x : FrameNumber) : (pmWritePage f data s).fte x = s.fte x := rfl

/-! ### pmZero -/

@[simp] theorem pmZero_mode (s : State) (f : FrameNumber) : (pmZero f s).mode = s.mode := rfl
@[simp] theorem pmZero_pt (s : State) (f : FrameNumber) : (pmZero f s).pt = s.pt := rfl
@[simp] theorem pmZero_ft (s : State) (f : FrameNumber) : (pmZero f s).ft = s.ft := rfl
@[simp] theorem pmZero_bs (s : State) (f : FrameNumber) : (pmZero f s).bs = s.bs := rfl
@[simp] theorem pmZero_input (s : State) (f : FrameNumber) : (pmZero f s).input = s.input := rfl
@[simp] theorem pmZero_io (s : State) (f : FrameNumber) : (pmZero f s).io = s.io := rfl
@[simp] theorem pmZero_ops (s : State) (f : FrameNumber) : (pmZero f s).ops = s.ops := rfl
@[simp] theorem pmZero_resp (s : State) (f : FrameNumber) : (pmZero f s).resp = s.resp := rfl
@[simp] theorem pmZero_freeCount (s : State) (f : FrameNumber) : (pmZero f s).freeCount = s.freeCount := rfl
@[simp] theorem pmZero_pte (s : State) (f : FrameNumber) (x : PageNumber) : (pmZero f s).pte x = s.pte x := rfl
@[simp] theorem pmZero_fte (s : State) (f : FrameNumber) (x : FrameNumber) : (pmZero f s).fte x = s.fte x := rfl

/-! ### storePage -/

@[simp] theorem storePage_mode (s : State) (p : PageNumber) (data : Memory) : (storePage p data s).mode = s.mode := rfl
@[simp] theorem storePage_pt (s : State) (p : PageNumber) (data : Memory) : (storePage p data s).pt = s.pt := rfl
@[simp] theorem storePage_ft (s : State) (p : PageNumber) (data : Memory) : (storePage p data s).ft = s.ft := rfl
@[simp] theorem storePage_pm (s : State) (p : PageNumber) (data : Memory) : (storePage p data s).pm = s.pm := rfl
@[simp] theorem storePage_input (s : State) (p : PageNumber) (data : Memory) : (storePage p data s).input = s.input := rfl
@[simp] theorem storePage_io (s : State) (p : PageNumber) (data : Memory) : (storePage p data s).io = s.io := rfl
@[simp] theorem storePage_ops (s : State) (p : PageNumber) (data : Memory) : (storePage p data s).ops = s.ops := rfl
@[simp] theorem storePage_resp (s : State) (p : PageNumber) (data : Memory) : (storePage p data s).resp = s.resp := rfl
@[simp] theorem storePage_freeCount (s : State) (p : PageNumber) (data : Memory) : (storePage p data s).freeCount = s.freeCount := rfl
@[simp] theorem storePage_pte (s : State) (p : PageNumber) (data : Memory) (x : PageNumber) : (storePage p data s).pte x = s.pte x := rfl
@[simp] theorem storePage_fte (s : State) (p : PageNumber) (data : Memory) (x : FrameNumber) : (storePage p data s).fte x = s.fte x := rfl

/-! ### attempt -/

@[simp] theorem attempt_mode (s : State) (kind : StoreOpKind) (p : PageNumber) : (s.attempt kind p).mode = s.mode := rfl
@[simp] theorem attempt_pt (s : State) (kind : StoreOpKind) (p : PageNumber) : (s.attempt kind p).pt = s.pt := rfl
@[simp] theorem attempt_ft (s : State) (kind : StoreOpKind) (p : PageNumber) : (s.attempt kind p).ft = s.ft := rfl
@[simp] theorem attempt_pm (s : State) (kind : StoreOpKind) (p : PageNumber) : (s.attempt kind p).pm = s.pm := rfl
@[simp] theorem attempt_bs (s : State) (kind : StoreOpKind) (p : PageNumber) : (s.attempt kind p).bs = s.bs := rfl
@[simp] theorem attempt_input (s : State) (kind : StoreOpKind) (p : PageNumber) : (s.attempt kind p).input = s.input := rfl
@[simp] theorem attempt_resp (s : State) (kind : StoreOpKind) (p : PageNumber) : (s.attempt kind p).resp = s.resp := rfl
@[simp] theorem attempt_freeCount (s : State) (kind : StoreOpKind) (p : PageNumber) : (s.attempt kind p).freeCount = s.freeCount := rfl
@[simp] theorem attempt_pte (s : State) (kind : StoreOpKind) (p : PageNumber) (x : PageNumber) : (s.attempt kind p).pte x = s.pte x := rfl
@[simp] theorem attempt_fte (s : State) (kind : StoreOpKind) (p : PageNumber) (x : FrameNumber) : (s.attempt kind p).fte x = s.fte x := rfl

/-! ### dropPage -/

@[simp] theorem dropPage_mode (s : State) (p : PageNumber) : (dropPage p s).mode = s.mode := rfl
@[simp] theorem dropPage_bs (s : State) (p : PageNumber) : (dropPage p s).bs = s.bs := rfl
@[simp] theorem dropPage_input (s : State) (p : PageNumber) : (dropPage p s).input = s.input := rfl
@[simp] theorem dropPage_io (s : State) (p : PageNumber) : (dropPage p s).io = s.io := rfl
@[simp] theorem dropPage_ops (s : State) (p : PageNumber) : (dropPage p s).ops = s.ops := rfl
@[simp] theorem dropPage_resp (s : State) (p : PageNumber) : (dropPage p s).resp = s.resp := rfl
@[simp] theorem dropPage_freeCount (s : State) (p : PageNumber) : (dropPage p s).freeCount = s.freeCount := rfl

/-! ### fillFrame -/

@[simp] theorem fillFrame_mode (s : State) (p : PageNumber) (data : Memory) : (fillFrame p data s).mode = s.mode := rfl
@[simp] theorem fillFrame_bs (s : State) (p : PageNumber) (data : Memory) : (fillFrame p data s).bs = s.bs := rfl
@[simp] theorem fillFrame_input (s : State) (p : PageNumber) (data : Memory) : (fillFrame p data s).input = s.input := rfl
@[simp] theorem fillFrame_io (s : State) (p : PageNumber) (data : Memory) : (fillFrame p data s).io = s.io := rfl
@[simp] theorem fillFrame_ops (s : State) (p : PageNumber) (data : Memory) : (fillFrame p data s).ops = s.ops := rfl
@[simp] theorem fillFrame_resp (s : State) (p : PageNumber) (data : Memory) : (fillFrame p data s).resp = s.resp := rfl
@[simp] theorem fillFrame_freeCount (s : State) (p : PageNumber) (data : Memory) : (fillFrame p data s).freeCount = s.freeCount := rfl

/-! ### deliverOk -/

@[simp] theorem deliverOk_mode (s : State) (value : BitVec 32) (data : List Byte) : (deliverOk value data s).mode = s.mode := rfl
@[simp] theorem deliverOk_pt (s : State) (value : BitVec 32) (data : List Byte) : (deliverOk value data s).pt = s.pt := rfl
@[simp] theorem deliverOk_ft (s : State) (value : BitVec 32) (data : List Byte) : (deliverOk value data s).ft = s.ft := rfl
@[simp] theorem deliverOk_pm (s : State) (value : BitVec 32) (data : List Byte) : (deliverOk value data s).pm = s.pm := rfl
@[simp] theorem deliverOk_bs (s : State) (value : BitVec 32) (data : List Byte) : (deliverOk value data s).bs = s.bs := rfl
@[simp] theorem deliverOk_input (s : State) (value : BitVec 32) (data : List Byte) : (deliverOk value data s).input = s.input := rfl
@[simp] theorem deliverOk_io (s : State) (value : BitVec 32) (data : List Byte) : (deliverOk value data s).io = s.io := rfl
@[simp] theorem deliverOk_ops (s : State) (value : BitVec 32) (data : List Byte) : (deliverOk value data s).ops = s.ops := rfl
@[simp] theorem deliverOk_freeCount (s : State) (value : BitVec 32) (data : List Byte) : (deliverOk value data s).freeCount = s.freeCount := rfl
@[simp] theorem deliverOk_pte (s : State) (value : BitVec 32) (data : List Byte) (x : PageNumber) : (deliverOk value data s).pte x = s.pte x := rfl
@[simp] theorem deliverOk_fte (s : State) (value : BitVec 32) (data : List Byte) (x : FrameNumber) : (deliverOk value data s).fte x = s.fte x := rfl

/-! ### deliverFailure -/

@[simp] theorem deliverFailure_pt (s : State) (k : Failure) (n : Nat) : (deliverFailure k n s).pt = s.pt := rfl
@[simp] theorem deliverFailure_ft (s : State) (k : Failure) (n : Nat) : (deliverFailure k n s).ft = s.ft := rfl
@[simp] theorem deliverFailure_pm (s : State) (k : Failure) (n : Nat) : (deliverFailure k n s).pm = s.pm := rfl
@[simp] theorem deliverFailure_bs (s : State) (k : Failure) (n : Nat) : (deliverFailure k n s).bs = s.bs := rfl
@[simp] theorem deliverFailure_input (s : State) (k : Failure) (n : Nat) : (deliverFailure k n s).input = s.input := rfl
@[simp] theorem deliverFailure_io (s : State) (k : Failure) (n : Nat) : (deliverFailure k n s).io = s.io := rfl
@[simp] theorem deliverFailure_ops (s : State) (k : Failure) (n : Nat) : (deliverFailure k n s).ops = s.ops := rfl
@[simp] theorem deliverFailure_freeCount (s : State) (k : Failure) (n : Nat) : (deliverFailure k n s).freeCount = s.freeCount := rfl
@[simp] theorem deliverFailure_pte (s : State) (k : Failure) (n : Nat) (x : PageNumber) : (deliverFailure k n s).pte x = s.pte x := rfl
@[simp] theorem deliverFailure_fte (s : State) (k : Failure) (n : Nat) (x : FrameNumber) : (deliverFailure k n s).fte x = s.fte x := rfl

/-! ### createPool -/

@[simp] theorem createPool_bs (s : State) : (createPool s).bs = s.bs := rfl
@[simp] theorem createPool_input (s : State) : (createPool s).input = s.input := rfl
@[simp] theorem createPool_io (s : State) : (createPool s).io = s.io := rfl
@[simp] theorem createPool_ops (s : State) : (createPool s).ops = s.ops := rfl
@[simp] theorem createPool_resp (s : State) : (createPool s).resp = s.resp := rfl
@[simp] theorem createPool_freeCount (s : State) : (createPool s).freeCount = s.freeCount := rfl

/-! ### releasePool -/

@[simp] theorem releasePool_bs (s : State) : (releasePool s).bs = s.bs := rfl
@[simp] theorem releasePool_input (s : State) : (releasePool s).input = s.input := rfl
@[simp] theorem releasePool_io (s : State) : (releasePool s).io = s.io := rfl
@[simp] theorem releasePool_ops (s : State) : (releasePool s).ops = s.ops := rfl
@[simp] theorem releasePool_resp (s : State) : (releasePool s).resp = s.resp := rfl

/-! ### powerOnReset -/

@[simp] theorem powerOnReset_input (s : State) : (powerOnReset s).input = s.input := rfl
@[simp] theorem powerOnReset_io (s : State) : (powerOnReset s).io = s.io := rfl

/-! ### acceptCommand -/

@[simp] theorem acceptCommand_mode (s : State) (answers : IoAnswers) (later : List PortEvent) : (acceptCommand answers later s).mode = s.mode := rfl
@[simp] theorem acceptCommand_pt (s : State) (answers : IoAnswers) (later : List PortEvent) : (acceptCommand answers later s).pt = s.pt := rfl
@[simp] theorem acceptCommand_ft (s : State) (answers : IoAnswers) (later : List PortEvent) : (acceptCommand answers later s).ft = s.ft := rfl
@[simp] theorem acceptCommand_pm (s : State) (answers : IoAnswers) (later : List PortEvent) : (acceptCommand answers later s).pm = s.pm := rfl
@[simp] theorem acceptCommand_bs (s : State) (answers : IoAnswers) (later : List PortEvent) : (acceptCommand answers later s).bs = s.bs := rfl
@[simp] theorem acceptCommand_resp (s : State) (answers : IoAnswers) (later : List PortEvent) : (acceptCommand answers later s).resp = s.resp := rfl
@[simp] theorem acceptCommand_freeCount (s : State) (answers : IoAnswers) (later : List PortEvent) : (acceptCommand answers later s).freeCount = s.freeCount := rfl
@[simp] theorem acceptCommand_pte (s : State) (answers : IoAnswers) (later : List PortEvent) (x : PageNumber) : (acceptCommand answers later s).pte x = s.pte x := rfl
@[simp] theorem acceptCommand_fte (s : State) (answers : IoAnswers) (later : List PortEvent) (x : FrameNumber) : (acceptCommand answers later s).fte x = s.fte x := rfl

/-! ### Record updates written out: one field changed, every entry of a table that is not that field unchanged -/

@[simp] theorem pte_with_bs (s : State) (m : Memory) (x : PageNumber) : State.pte { s with bs := m } x = s.pte x := rfl
@[simp] theorem fte_with_bs (s : State) (m : Memory) (x : FrameNumber) : State.fte { s with bs := m } x = s.fte x := rfl
@[simp] theorem fte_with_pt (s : State) (t : PageTable) (x : FrameNumber) : State.fte { s with pt := t } x = s.fte x :=
  rfl

/-! ### The tables -/

/-- What an entry reads as after an entry is written. -/
theorem setPte_pte (s : State) (p : PageNumber) (e : Pte) (q : PageNumber) :
    (s.setPte p e).pte q = if q = p then e else s.pte q := by
  unfold State.pte State.setPte
  by_cases h : q = p
  · subst h; simp
  · have : p.toNat ≠ q.toNat := fun hc => h (BitVec.eq_of_toNat_eq hc).symm
    simp [h, this]

@[simp] theorem setPte_pte_self (s : State) (p : PageNumber) (e : Pte) : (s.setPte p e).pte p = e := by
  simp [setPte_pte]

/-- What a frame-table entry reads as after one is written. -/
theorem setFte_fte (s : State) (f : FrameNumber) (e : Fte) (g : FrameNumber) :
    (s.setFte f e).fte g = if g = f then e else s.fte g := by
  unfold State.fte State.setFte
  by_cases h : g = f
  · subst h; simp
  · have : f.toNat ≠ g.toNat := fun hc => h (BitVec.eq_of_toNat_eq hc).symm
    simp [h, this]

@[simp] theorem setFte_fte_self (s : State) (f : FrameNumber) (e : Fte) : (s.setFte f e).fte f = e := by
  simp [setFte_fte]

theorem markReferenced_pte (s : State) (p q : PageNumber) :
    (s.markReferenced p).pte q = if q = p then (s.pte p).markReferenced else s.pte q := setPte_pte s p _ q

theorem markWritten_pte (s : State) (p q : PageNumber) :
    (s.markWritten p).pte q = if q = p then (s.pte p).markDirty.markReferenced else s.pte q := setPte_pte s p _ q

theorem markOccupied_fte (s : State) (f : FrameNumber) (p : PageNumber) (g : FrameNumber) :
    (markOccupied f p s).fte g = if g = f then Fte.taken p else s.fte g := setFte_fte s f _ g

theorem markFree_fte (s : State) (f g : FrameNumber) :
    (markFree f s).fte g = if g = f then Fte.free else s.fte g := setFte_fte s f _ g

theorem dropPage_pte (s : State) (p q : PageNumber) :
    (dropPage p s).pte q = if q = p then (s.pte p).evicted else s.pte q := setPte_pte s p _ q

theorem dropPage_fte (s : State) (p : PageNumber) (g : FrameNumber) :
    (dropPage p s).fte g = if g = (s.pte p).frame then Fte.free else s.fte g :=
  setFte_fte (pmZero (s.pte p).frame (s.setPte p (s.pte p).evicted)) (s.pte p).frame _ g

theorem fillFrame_pte (s : State) (p : PageNumber) (data : Memory) (q : PageNumber) :
    (fillFrame p data s).pte q = if q = p then (s.pte p).loaded else s.pte q :=
  setPte_pte (markOccupied (s.pte p).frame p (pmWritePage (s.pte p).frame data s)) p _ q

theorem fillFrame_fte (s : State) (p : PageNumber) (data : Memory) (g : FrameNumber) :
    (fillFrame p data s).fte g = if g = (s.pte p).frame then Fte.taken p else s.fte g :=
  setFte_fte (pmWritePage (s.pte p).frame data s) (s.pte p).frame _ g

/-- Writing back what an entry holds changes nothing. -/
@[simp] theorem setPte_pte_same (s : State) (p : PageNumber) : s.setPte p (s.pte p) = s := by
  unfold State.setPte State.pte
  simp

@[simp] theorem createPool_mode (s : State) : (createPool s).mode = .run := rfl
@[simp] theorem createPool_pm (s : State) : (createPool s).pm = [] := rfl
@[simp] theorem createPool_pte (s : State) (p : PageNumber) : (createPool s).pte p = Pte.zero := by
  unfold State.pte createPool; simp
@[simp] theorem createPool_fte (s : State) (f : FrameNumber) : (createPool s).fte f = Fte.free := by
  unfold State.fte createPool; simp

theorem releasePool_pm (s : State) :
    (releasePool s).pm = Memory.ofBytes Config.pmSize (Config.unspecifiedPmByte s.freeCount) := by
  simp only [releasePool]
theorem powerOnReset_pm (s : State) :
    (powerOnReset s).pm = Memory.ofBytes Config.pmSize (Config.unspecifiedPmByte s.freeCount) := by
  simp only [powerOnReset, releasePool]
theorem powerOnReset_bs (s : State) :
    (powerOnReset s).bs = Memory.ofBytes Config.bsSize (Config.unspecifiedBsByte s.freeCount) := by
  simp only [powerOnReset]
@[simp] theorem releasePool_mode (s : State) : (releasePool s).mode = .off := rfl
@[simp] theorem powerOnReset_mode (s : State) : (powerOnReset s).mode = .off := rfl
@[simp] theorem powerOnReset_resp (s : State) : (powerOnReset s).resp = none := rfl

@[simp] theorem reset_pte (p : PageNumber) : State.reset.pte p = Pte.zero := by
  unfold State.pte State.reset; simp
@[simp] theorem reset_fte (f : FrameNumber) : State.reset.fte f = Fte.free := by
  unfold State.fte State.reset; simp

@[simp] theorem deliverOk_resp (s : State) (value : BitVec 32) (data : List Byte) :
    (deliverOk value data s).resp = some ⟨.ok, 0, value, data⟩ := rfl

@[simp] theorem deliverFailure_resp (s : State) (k : Failure) (n : Nat) :
    (deliverFailure k n s).resp = some ⟨k.status, k.info, BitVec.ofNat 32 n, []⟩ := rfl

@[simp] theorem deliverFailure_mode (s : State) (k : Failure) (n : Nat) :
    (deliverFailure k n s).mode = if k.fatal then .aborted else s.mode := rfl

@[simp] theorem acceptCommand_input (s : State) (answers : IoAnswers) (later : List PortEvent) :
    (acceptCommand answers later s).input = later := rfl
@[simp] theorem acceptCommand_io (s : State) (answers : IoAnswers) (later : List PortEvent) :
    (acceptCommand answers later s).io = answers := rfl
@[simp] theorem acceptCommand_ops (s : State) (answers : IoAnswers) (later : List PortEvent) :
    (acceptCommand answers later s).ops = [] := rfl
@[simp] theorem acceptCommand_toBlock (s : State) (answers : IoAnswers) (later : List PortEvent) :
    (acceptCommand answers later s).toBlock = s.toBlock := rfl
@[simp] theorem deliverOk_toBlock (s : State) (value : BitVec 32) (data : List Byte) :
    (deliverOk value data s).toBlock = s.toBlock := rfl
@[simp] theorem attempt_toBlock (s : State) (kind : StoreOpKind) (p : PageNumber) :
    (s.attempt kind p).toBlock = s.toBlock := rfl
@[simp] theorem attempt_io (s : State) (kind : StoreOpKind) (p : PageNumber) :
    (s.attempt kind p).io = s.io.next.2 := rfl
@[simp] theorem attempt_ops (s : State) (kind : StoreOpKind) (p : PageNumber) :
    (s.attempt kind p).ops = s.ops ++ [⟨kind, p, s.io.next.1⟩] := rfl

/-- A failure that is not fatal leaves the block as it is. -/
theorem deliverFailure_toBlock (s : State) (k : Failure) (n : Nat) (h : k.fatal = false) :
    (deliverFailure k n s).toBlock = s.toBlock := by
  unfold deliverFailure; rw [h]; rfl

/-- Two page tables with the same entries are the same table. -/
theorem pageTable_ext {s t : State} (h : ∀ p, s.pte p = t.pte p) : s.pt = t.pt := by
  apply Vector.ext
  intro i hi
  have := h (BitVec.ofNat 8 i)
  have hn : (BitVec.ofNat 8 i).toNat = i := by simp; omega
  simpa only [State.pte, hn] using this

/-- Two frame tables with the same entries are the same table. -/
theorem frameTable_ext {s t : State} (h : ∀ f, s.fte f = t.fte f) : s.ft = t.ft := by
  apply Vector.ext
  intro i hi
  have := h (BitVec.ofNat 4 i)
  have hn : (BitVec.ofNat 4 i).toNat = i := by simp; omega
  simpa only [State.fte, hn] using this

/-- The same change to every entry. -/
theorem mapTable_pte (s : State) (g : Pte → Pte) (p : PageNumber) :
    State.pte { s with pt := mapTable s.pt g } p = g (s.pte p) := by
  unfold State.pte mapTable; simp

end Sys2Proof.Machine
end

