-- ==== Sys2Proof/Laws/Ops.lean ====
section
/-!
SUPPORT. For each shared operation one lemma that says once everything it can answer.
-/

namespace Sys2Proof.Machine

/-! ### Operations that can fail -/

/-- What holds of an operation's answer: `Q` of a value and its state, `E` of a failure and its state. -/
def Res.Sat {α : Type} (r : Res α) (Q : α → State → Prop) (E : Failure → State → Prop) : Prop :=
  match r with
  | .ok a s => Q a s
  | .raise k s => E k s

@[simp] theorem bind_ok {α β : Type} (a : α) (s : State) (f : α → State → Res β) : (Res.ok a s).bind f = f a s := rfl
@[simp] theorem bind_raise {α β : Type} (k : Failure) (s : State) (f : α → State → Res β) :
    (Res.raise k s).bind f = .raise k s := rfl
@[simp] theorem sat_ok {α : Type} (a : α) (s : State) (Q : α → State → Prop) (E : Failure → State → Prop) :
    (Res.ok a s).Sat Q E ↔ Q a s := Iff.rfl
@[simp] theorem sat_raise {α : Type} (k : Failure) (s : State) (Q : α → State → Prop) (E : Failure → State → Prop) :
    (Res.raise k s : Res α).Sat Q E ↔ E k s := Iff.rfl

theorem sat_bind {α β : Type} {r : Res α} {f : α → State → Res β} {Q : α → State → Prop} {Q' : β → State → Prop}
    {E : Failure → State → Prop} (h : r.Sat Q E) (hf : ∀ a s, Q a s → (f a s).Sat Q' E) : (r.bind f).Sat Q' E := by
  cases r with
  | ok a s => exact hf a s h
  | raise k s => exact h

theorem sat_imp {α : Type} {r : Res α} {Q Q' : α → State → Prop} {E E' : Failure → State → Prop} (h : r.Sat Q E)
    (hq : ∀ a s, Q a s → Q' a s) (he : ∀ k s, E k s → E' k s) : r.Sat Q' E' := by
  cases r with
  | ok a s => exact hq a s h
  | raise k s => exact he k s h

theorem sat_and {α : Type} {r : Res α} {Q Q' : α → State → Prop} {E E' : Failure → State → Prop} (h : r.Sat Q E)
    (h' : r.Sat Q' E') : r.Sat (fun a s => Q a s ∧ Q' a s) (fun k s => E k s ∧ E' k s) := by
  cases r with
  | ok a s => exact ⟨h, h'⟩
  | raise k s => exact ⟨h, h'⟩

theorem bind_eq_ok {α β : Type} {r : Res α} {f : α → State → Res β} {b : β} {t : State} :
    r.bind f = .ok b t ↔ ∃ a s1, r = .ok a s1 ∧ f a s1 = .ok b t := by
  cases r with
  | ok a s => simp
  | raise k s => simp

theorem bind_eq_raise {α β : Type} {r : Res α} {f : α → State → Res β} {k : Failure} {t : State} :
    r.bind f = .raise k t ↔ r = .raise k t ∨ ∃ a s1, r = .ok a s1 ∧ f a s1 = .raise k t := by
  cases r with
  | ok a s => simp
  | raise k s => simp

/-! ### The backing store -/

theorem bsRead_cases (p : PageNumber) (s : State) :
    (s.io.next.1 = .ok ∧
      bsRead p s = .ok (Memory.readBlock s.bs (storeBase p) Config.pageSize) (s.attempt .read p)) ∨
    (s.io.next.1 = .fail ∧ bsRead p s = .raise (.backingStoreUnavailable p) (s.attempt .read p)) := by
  unfold bsRead
  cases h : s.io.next.1 <;> simp

theorem bsWrite_cases (p : PageNumber) (data : Memory) (s : State) :
    (s.io.next.1 = .ok ∧ bsWrite p data s = .ok () (storePage p data (s.attempt .write p))) ∨
    (s.io.next.1 = .fail ∧ bsWrite p data s = .raise (.backingStoreUnavailable p) (s.attempt .write p)) := by
  unfold bsWrite
  cases h : s.io.next.1 <;> simp

theorem bsCreate_cases (s : State) :
    (s.io.next.1 = .ok ∧ bsCreate s = .ok () { s.attempt .create 0 with bs := [] }) ∨
    (s.io.next.1 = .fail ∧ bsCreate s = .raise (.backingStoreUnavailable 0) (s.attempt .create 0)) := by
  unfold bsCreate
  cases h : s.io.next.1 <;> simp

/-! ### The two scans -/

/-- The first element of a sorted list that satisfies a test is below every other that does. -/
theorem find_sorted {w : Nat} {l : List (BitVec w)} (hl : l.Pairwise (· < ·)) {t : BitVec w → Bool} {x : BitVec w}
    (h : l.find? t = some x) : t x = true ∧ ∀ y ∈ l, y < x → t y = false := by
  induction l with
  | nil => cases h
  | cons a l ih =>
    obtain ⟨ha, hl⟩ := List.pairwise_cons.1 hl
    by_cases hta : t a = true
    · rw [List.find?_cons_of_pos hta] at h
      cases h
      refine ⟨hta, fun y hy hlt => ?_⟩
      rcases List.mem_cons.1 hy with rfl | hy
      · exact absurd hlt (BitVec.lt_irrefl _)
      · exact absurd (BitVec.lt_trans hlt (ha y hy)) (BitVec.lt_irrefl _)
    · rw [List.find?_cons_of_neg hta] at h
      obtain ⟨h1, h2⟩ := ih hl h
      refine ⟨h1, fun y hy hlt => ?_⟩
      rcases List.mem_cons.1 hy with rfl | hy
      · simpa using hta
      · exact h2 y hy hlt

/-- A found frame is free and every lower one is occupied (R152). -/
theorem findFreeFrame_some {s : State} {f : FrameNumber} (h : findFreeFrame s = some f) :
    (s.fte f).occupied = false ∧ ∀ g, g < f → (s.fte g).occupied = true := by
  obtain ⟨h1, h2⟩ := find_sorted allFrames_sorted h
  exact ⟨by simpa using h1, fun g hg => by simpa using h2 g (mem_allFrames g) hg⟩

/-- No frame is found exactly when every frame is occupied (R152). -/
theorem findFreeFrame_none {s : State} : findFreeFrame s = none ↔ ∀ f, (s.fte f).occupied = true := by
  unfold findFreeFrame
  rw [List.find?_eq_none]
  exact ⟨fun h f => by simpa using h f (mem_allFrames f), fun h f _ => by simp [h f]⟩

/-- `v` is the victim among the pages of a list: a candidate of smallest age, lowest page number on a tie (R180). -/
def IsVictim (s : State) (l : List PageNumber) (v : PageNumber) : Prop :=
  v ∈ l ∧ candidate s v = true ∧
    ∀ q ∈ l, candidate s q = true → (s.pte v).age < (s.pte q).age ∨ ((s.pte v).age = (s.pte q).age ∧ v ≤ q)

/-- What the scan holds after the pages of a list: no candidate, or the victim among them. -/
def ScanHolds (s : State) (l : List PageNumber) : Option PageNumber → Prop
  | none => ∀ q ∈ l, candidate s q = false
  | some v => IsVictim s l v

theorem scanHolds_betterVictim {s : State} {l : List PageNumber} {best : Option PageNumber} {q : PageNumber}
    (h : ScanHolds s l best) (hq : ∀ x ∈ l, x < q) : ScanHolds s (l ++ [q]) (betterVictim s best q) := by
  unfold betterVictim
  by_cases hc : candidate s q = true
  · rw [if_pos hc]
    cases best with
    | none =>
      refine ⟨by simp, hc, fun x hx hcx => ?_⟩
      rcases List.mem_append.1 hx with hx | hx
      · exact absurd hcx (by simp [h x hx])
      · cases List.mem_singleton.1 hx
        exact .inr ⟨rfl, BitVec.le_refl _⟩
    | some b =>
      obtain ⟨hb, hcb, hmin⟩ := h
      simp only
      split
      · rename_i hlt
        refine ⟨by simp, hc, fun x hx hcx => ?_⟩
        rcases List.mem_append.1 hx with hx | hx
        · rcases hmin x hx hcx with h1 | ⟨h1, _⟩
          · exact .inl (BitVec.lt_trans hlt h1)
          · exact .inl (h1 ▸ hlt)
        · cases List.mem_singleton.1 hx
          exact .inr ⟨rfl, BitVec.le_refl _⟩
      · rename_i hnlt
        refine ⟨by simp [hb], hcb, fun x hx hcx => ?_⟩
        rcases List.mem_append.1 hx with hx | hx
        · exact hmin x hx hcx
        · cases List.mem_singleton.1 hx
          rcases Nat.lt_or_ge (s.pte b).age.toNat (s.pte q).age.toNat with h1 | h1
          · exact .inl (BitVec.lt_def.2 h1)
          · refine .inr ⟨BitVec.eq_of_toNat_eq (Nat.le_antisymm ?_ h1), BitVec.le_of_lt (hq b hb)⟩
            exact Nat.le_of_not_lt fun h2 => hnlt (BitVec.lt_def.2 h2)
  · rw [if_neg hc]
    cases best with
    | none =>
      intro x hx
      rcases List.mem_append.1 hx with hx | hx
      · exact h x hx
      · cases List.mem_singleton.1 hx
        simpa using hc
    | some b =>
      obtain ⟨hb, hcb, hmin⟩ := h
      refine ⟨by simp [hb], hcb, fun x hx hcx => ?_⟩
      rcases List.mem_append.1 hx with hx | hx
      · exact hmin x hx hcx
      · cases List.mem_singleton.1 hx
        exact absurd hcx hc

theorem scanHolds_foldl {s : State} (l : List PageNumber) {done : List PageNumber} {best : Option PageNumber}
    (hs : (done ++ l).Pairwise (· < ·)) (h : ScanHolds s done best) :
    ScanHolds s (done ++ l) (l.foldl (betterVictim s) best) := by
  induction l generalizing done best with
  | nil => simpa using h
  | cons q l ih =>
    have hq : ∀ x ∈ done, x < q := fun x hx => (List.pairwise_append.1 hs).2.2 x hx q (by simp)
    have he : done ++ q :: l = (done ++ [q]) ++ l := by simp
    rw [he, List.foldl_cons]
    exact ih (he ▸ hs) (scanHolds_betterVictim h hq)

theorem scanHolds_chooseVictim (s : State) : ScanHolds s allPages (chooseVictim s) :=
  scanHolds_foldl allPages (done := []) allPages_sorted (best := none) (fun _ hq => by cases hq)

/-- The victim: a candidate, of the smallest age, the lowest page number on a tie (R180). -/
theorem chooseVictim_some {s : State} {v : PageNumber} (h : chooseVictim s = some v) :
    candidate s v = true ∧
      ∀ q, candidate s q = true → (s.pte v).age < (s.pte q).age ∨ ((s.pte v).age = (s.pte q).age ∧ v ≤ q) := by
  have := scanHolds_chooseVictim s
  rw [h] at this
  exact ⟨this.2.1, fun q hq => this.2.2 q (mem_allPages q) hq⟩

/-- There is no victim exactly when there is no candidate (R182). -/
theorem chooseVictim_none {s : State} : chooseVictim s = none ↔ ∀ q, candidate s q = false := by
  have := scanHolds_chooseVictim s
  constructor
  · intro h
    rw [h] at this
    exact fun q => this q (mem_allPages q)
  · intro h
    cases hv : chooseVictim s with
    | none => rfl
    | some v =>
      rw [hv] at this
      exact absurd this.2.1 (by simp [h v])

/-! ### Evict and load -/

/-- The state after the write-back of page `p` (R190). -/
def writtenBack (p : PageNumber) (s : State) : State :=
  storePage p (pmReadPage (s.pte p).frame s) (s.attempt .write p)

@[simp] theorem writtenBack_pte (p : PageNumber) (s : State) (q : PageNumber) : (writtenBack p s).pte q = s.pte q := rfl
@[simp] theorem writtenBack_fte (p : PageNumber) (s : State) (f : FrameNumber) : (writtenBack p s).fte f = s.fte f := rfl
@[simp] theorem writtenBack_pm (p : PageNumber) (s : State) : (writtenBack p s).pm = s.pm := rfl
@[simp] theorem writtenBack_mode (p : PageNumber) (s : State) : (writtenBack p s).mode = s.mode := rfl

/-- Everything `evict` can answer (R190). -/
theorem evict_cases (p : PageNumber) (s : State) :
    ((s.pte p).present = false ∧ evict p s = .ok () s) ∨
    ((s.pte p).present = true ∧ (s.pte p).dirty = false ∧ evict p s = .ok () (dropPage p s)) ∨
    ((s.pte p).present = true ∧ (s.pte p).dirty = true ∧ s.io.next.1 = .ok ∧
      evict p s = .ok () (dropPage p (writtenBack p s))) ∨
    ((s.pte p).present = true ∧ (s.pte p).dirty = true ∧ s.io.next.1 = .fail ∧
      evict p s = .raise (.backingStoreUnavailable p) (s.attempt .write p)) := by
  unfold evict
  cases hp : (s.pte p).present
  · simp
  · cases hd : (s.pte p).dirty
    · simp
    · rcases bsWrite_cases p (pmReadPage (s.pte p).frame s) s with ⟨hi, hw⟩ | ⟨hi, hw⟩
      · right; right; left; simp [hi, hw, writtenBack]
      · right; right; right; simp [hi, hw]

/-- The state after the store read of page `p` and the writes of `load` (R192). -/
def loadedFrom (p : PageNumber) (s : State) : State :=
  fillFrame p (Memory.readBlock s.bs (storeBase p) Config.pageSize) (s.attempt .read p)

/-- Everything `load` can answer (R192). -/
theorem load_cases (p : PageNumber) (s : State) :
    (s.io.next.1 = .ok ∧ load p s = .ok () (loadedFrom p s)) ∨
    (s.io.next.1 = .fail ∧ load p s = .raise (.backingStoreUnavailable p) (s.attempt .read p)) := by
  unfold load
  rcases bsRead_cases p s with ⟨hi, hr⟩ | ⟨hi, hr⟩
  · left; simp [hi, hr, loadedFrom]
  · right; simp [hi, hr]

/-- Everything `replace` can answer (R171, R174). -/
theorem replace_cases (p : PageNumber) (s : State) :
    (chooseVictim s = none ∧ replace p s = .raise .invariantViolation s) ∨
    (∃ v k t, chooseVictim s = some v ∧ evict v s = .raise k t ∧ replace p s = .raise k t) ∨
    (∃ v t, chooseVictim s = some v ∧ evict v s = .ok () t ∧
      replace p s = load p (t.setPte p ((t.pte p).remapped (s.pte v).frame))) := by
  unfold replace
  cases hv : chooseVictim s with
  | none => simp
  | some v =>
    right
    cases he : evict v s with
    | ok u t => right; exact ⟨v, t, rfl, he, by simp [he]⟩
    | raise k t => left; exact ⟨v, k, t, rfl, he, by simp [he]⟩

/-- Everything the branches of `resolve` can do (R171 to R175). -/
theorem makeResident_cases (p : PageNumber) (s : State) :
    ((s.pte p).mapped = true ∧ (s.pte p).present = true ∧ makeResident p s = .ok () s) ∨
    ((s.pte p).mapped = true ∧ (s.pte p).present = false ∧ (s.fte (s.pte p).frame).occupied = false ∧
      makeResident p s = load p s) ∨
    ((s.pte p).mapped = true ∧ (s.pte p).present = false ∧ (s.fte (s.pte p).frame).occupied = true ∧
      makeResident p s = replace p s) ∨
    (∃ f, (s.pte p).mapped = false ∧ findFreeFrame s = some f ∧
      makeResident p s = load p (s.setPte p (Pte.fresh f))) ∨
    ((s.pte p).mapped = false ∧ findFreeFrame s = none ∧ makeResident p s = replace p s) := by
  unfold makeResident
  cases hm : (s.pte p).mapped
  · cases hf : findFreeFrame s with
    | none => simp
    | some f => simp
  · cases hp : (s.pte p).present
    · cases ho : (s.fte (s.pte p).frame).occupied <;> simp
    · simp

/-! ### What every operation leaves alone -/

/-- The fields no operation of the fault path writes: the mode, the input, the response, the free counter. -/
structure SameOutside (s t : State) : Prop where
  mode : t.mode = s.mode
  input : t.input = s.input
  resp : t.resp = s.resp
  freeCount : t.freeCount = s.freeCount

theorem SameOutside.refl (s : State) : SameOutside s s := ⟨rfl, rfl, rfl, rfl⟩

theorem SameOutside.trans {s t u : State} (h : SameOutside s t) (h' : SameOutside t u) : SameOutside s u :=
  ⟨h'.mode.trans h.mode, h'.input.trans h.input, h'.resp.trans h.resp, h'.freeCount.trans h.freeCount⟩

end Sys2Proof.Machine
end

