-- ==== Sys2Proof/Laws/Invariants.lean ====
section
/-!
SUPPORT. What the shared operations keep: the fields outside the fault path, the canonical form of the memories,
well-formedness (spec/10_state.md R40 to R43, R45), coherence (R44) and the virtual memory (spec/20_memory.md R72, R73).
-/

namespace Sys2Proof.Machine

/-! ### Bytes of frames and of the store -/

theorem frame_range (f g : FrameNumber) (o : Offset) :
    (frameBase f ≤ frameBase g + o.toNat ∧ frameBase g + o.toNat < frameBase f + Config.pageSize) ↔ g = f := by
  have := o.isLt
  constructor
  · intro h
    apply BitVec.eq_of_toNat_eq
    simp only [frameBase, Config.pageSize] at h
    omega
  · rintro rfl
    simp only [Config.pageSize]
    omega

theorem store_range (p q : PageNumber) (o : Offset) :
    (storeBase p ≤ storeBase q + o.toNat ∧ storeBase q + o.toNat < storeBase p + Config.pageSize) ↔ q = p := by
  have := o.isLt
  constructor
  · intro h
    apply BitVec.eq_of_toNat_eq
    simp only [storeBase, Config.pageSize] at h
    omega
  · rintro rfl
    simp only [Config.pageSize]
    omega

theorem frameByte_eq (s : State) (f : FrameNumber) (o : Offset) :
    s.frameByte f o = Memory.read s.pm (frameBase f + o.toNat) := by
  unfold State.frameByte memRead; rw [encodePhysical_toNat]

theorem storeByte_eq (s : State) (p : PageNumber) (o : Offset) :
    s.storeByte p o = Memory.read s.bs (storeBase p + o.toNat) := by
  unfold State.storeByte; rw [encodeVirtual_toNat]

/-- An evicted frame is zeroed, every other frame is untouched (R190). -/
theorem frameByte_dropPage {s : State} (h : Memory.wf s.pm = true) (p : PageNumber) (f : FrameNumber) (o : Offset) :
    (dropPage p s).frameByte f o = if f = (s.pte p).frame then 0 else s.frameByte f o := by
  rw [frameByte_eq, frameByte_eq]
  show Memory.read (Memory.writeBlock s.pm (frameBase (s.pte p).frame) Config.pageSize []) _ = _
  rw [Memory.read_writeBlock h rfl]
  by_cases hf : f = (s.pte p).frame
  · rw [if_pos ((frame_range _ _ _).2 hf), if_pos hf, Memory.read_nil]; rfl
  · rw [if_neg (fun hc => hf ((frame_range _ _ _).1 hc)), if_neg hf]

/-- A loaded frame holds the page's store image, every other frame is untouched (R192). -/
theorem frameByte_loadedFrom {s : State} (h : Memory.wf s.pm = true) (hb : Memory.wf s.bs = true) (p : PageNumber)
    (f : FrameNumber) (o : Offset) :
    (loadedFrom p s).frameByte f o = if f = (s.pte p).frame then s.storeByte p o else s.frameByte f o := by
  rw [frameByte_eq, frameByte_eq, storeByte_eq]
  show Memory.read (Memory.writeBlock s.pm (frameBase (s.pte p).frame) Config.pageSize
    (Memory.readBlock s.bs (storeBase p) Config.pageSize)) _ = _
  rw [Memory.read_writeBlock h (Memory.wf_readBlock hb _ _)]
  by_cases hf : f = (s.pte p).frame
  · subst hf
    have ho : o.toNat < Config.pageSize := o.isLt
    rw [if_pos ((frame_range _ _ _).2 rfl), if_pos rfl, Nat.add_sub_cancel_left, Memory.read_readBlock hb, if_pos ho]
  · rw [if_neg (fun hc => hf ((frame_range _ _ _).1 hc)), if_neg hf]

/-- A written-back page's store image holds its frame's bytes, every other page's image is untouched (R163, R190). -/
theorem storeByte_writtenBack {s : State} (h : Memory.wf s.pm = true) (hb : Memory.wf s.bs = true) (p q : PageNumber)
    (o : Offset) :
    (writtenBack p s).storeByte q o = if q = p then s.frameByte (s.pte p).frame o else s.storeByte q o := by
  rw [frameByte_eq, storeByte_eq, storeByte_eq]
  show Memory.read (Memory.writeBlock s.bs (storeBase p) Config.pageSize
    (Memory.readBlock s.pm (frameBase (s.pte p).frame) Config.pageSize)) _ = _
  rw [Memory.read_writeBlock hb (Memory.wf_readBlock h _ _)]
  by_cases hq : q = p
  · subst hq
    have ho : o.toNat < Config.pageSize := o.isLt
    rw [if_pos ((store_range _ _ _).2 rfl), if_pos rfl, Nat.add_sub_cancel_left, Memory.read_readBlock h, if_pos ho]
  · rw [if_neg (fun hc => hq ((store_range _ _ _).1 hc)), if_neg hq]

/-- A byte write changes one byte of one frame (R157). -/
theorem frameByte_memWrite {s : State} (h : Memory.wf s.pm = true) (f g : FrameNumber) (o x : Offset) (v : Byte) :
    (memWrite (encodePhysical f o) v s).frameByte g x = if g = f ∧ x = o then v else s.frameByte g x := by
  rw [frameByte_eq, frameByte_eq]
  show Memory.read (Memory.write s.pm (encodePhysical f o).toNat v) _ = _
  rw [Memory.read_write h, encodePhysical_toNat]
  by_cases hc : g = f ∧ x = o
  · obtain ⟨rfl, rfl⟩ := hc
    simp
  · rw [if_neg hc, if_neg]
    intro he
    apply hc
    have := o.isLt
    have := x.isLt
    simp only [frameBase, Config.pageSize] at he
    exact ⟨BitVec.eq_of_toNat_eq (by omega), BitVec.eq_of_toNat_eq (by omega)⟩

/-! ### The memories stay canonical -/

/-- Canonicity is about the two memories only. -/
theorem MemoriesCanonical_of_eq {s t : State} (h : s.MemoriesCanonical) (hp : t.pm = s.pm) (hb : t.bs = s.bs) :
    t.MemoriesCanonical :=
  ⟨hp ▸ h.pm_wf, hp ▸ h.pm_below, hb ▸ h.bs_wf, hb ▸ h.bs_below⟩

theorem canonical_memWrite {s : State} (h : s.MemoriesCanonical) (pa : PhysicalAddress) (v : Byte) :
    (memWrite pa v s).MemoriesCanonical :=
  ⟨Memory.wf_write h.pm_wf _ _, Memory.below_write h.pm_below pa.isLt, h.bs_wf, h.bs_below⟩

theorem canonical_dropPage {s : State} (h : s.MemoriesCanonical) (p : PageNumber) :
    (dropPage p s).MemoriesCanonical :=
  ⟨Memory.wf_writeBlock h.pm_wf rfl _ _, Memory.below_writeBlock h.pm_below (frameBase_bound _), h.bs_wf, h.bs_below⟩

theorem canonical_writtenBack {s : State} (h : s.MemoriesCanonical) (p : PageNumber) :
    (writtenBack p s).MemoriesCanonical :=
  ⟨h.pm_wf, h.pm_below, Memory.wf_writeBlock h.bs_wf (Memory.wf_readBlock h.pm_wf _ _) _ _,
    Memory.below_writeBlock h.bs_below (storeBase_bound _)⟩

theorem canonical_loadedFrom {s : State} (h : s.MemoriesCanonical) (p : PageNumber) :
    (loadedFrom p s).MemoriesCanonical :=
  ⟨Memory.wf_writeBlock h.pm_wf (Memory.wf_readBlock h.bs_wf _ _) _ _,
    Memory.below_writeBlock h.pm_below (frameBase_bound _), h.bs_wf, h.bs_below⟩

theorem canonical_releasePool {s : State} (h : s.MemoriesCanonical) : (releasePool s).MemoriesCanonical where
  pm_wf := by rw [releasePool_pm]; exact Memory.wf_ofBytes _ _
  pm_below := by rw [releasePool_pm]; exact Memory.below_ofBytes _ _
  bs_wf := h.bs_wf
  bs_below := h.bs_below

theorem canonical_powerOnReset (s : State) : (powerOnReset s).MemoriesCanonical where
  pm_wf := by rw [powerOnReset_pm]; exact Memory.wf_ofBytes _ _
  pm_below := by rw [powerOnReset_pm]; exact Memory.below_ofBytes _ _
  bs_wf := by rw [powerOnReset_bs]; exact Memory.wf_ofBytes _ _
  bs_below := by rw [powerOnReset_bs]; exact Memory.below_ofBytes _ _

/-! ### Well-formedness -/

/-- Well-formedness without the unique existence: every resident page's frame is taken by it, every occupied frame's
owner is resident in it, a free frame's owner is 0. -/
theorem wellFormed_iff (s : State) :
    s.WellFormed ↔ s.inv1 ∧ (∀ p, (s.pte p).present = true → s.fte (s.pte p).frame = Fte.taken p) ∧
      (∀ f, (s.fte f).occupied = true → s.resident (s.fte f).owner f) ∧
      (∀ f, (s.fte f).occupied = false → (s.fte f).owner = 0) := by
  constructor
  · rintro ⟨h1, h2, h3, h4⟩
    refine ⟨h1, fun p hp => ?_, fun f => (h4 f).1, fun f => (h4 f).2⟩
    have hr : s.resident p (s.pte p).frame := ⟨hp, rfl⟩
    have ho : (s.fte (s.pte p).frame).occupied = true := (h3 _).2 ⟨p, hr, fun q hq => h2 _ _ _ hq hr⟩
    have hw := h2 _ _ _ ((h4 _).1 ho) hr
    cases hf : s.fte (s.pte p).frame with
    | mk occ own =>
      rw [hf] at ho hw
      simp only at ho hw
      rw [ho, hw]; rfl
  · rintro ⟨h1, h2, h3, h4⟩
    refine ⟨h1, fun f p q hp hq => ?_, fun f => ⟨fun ho => ⟨_, h3 f ho, fun q hq => ?_⟩, ?_⟩, fun f => ⟨h3 f, h4 f⟩⟩
    · have hp' := h2 p hp.1
      have hq' := h2 q hq.1
      rw [hp.2] at hp'
      rw [hq.2, hp'] at hq'
      exact congrArg Fte.owner hq'
    · have := h2 q hq.1
      rw [hq.2] at this
      rw [this]; rfl
    · rintro ⟨p, hp, _⟩
      have := h2 p hp.1
      rw [hp.2] at this
      rw [this]; rfl

/-- Well-formedness is about the two tables only. -/
theorem wellFormed_of_eq {s t : State} (h : s.WellFormed) (hp : ∀ p, t.pte p = s.pte p) (hf : ∀ f, t.fte f = s.fte f) :
    t.WellFormed := by
  rw [wellFormed_iff] at h ⊢
  simp only [State.inv1, State.resident, hp, hf] at h ⊢
  exact h

/-- Writing an entry that keeps `present`, and keeps `frame` and `mapped` where present, keeps well-formedness (R133). -/
theorem wellFormed_setPte {s : State} (h : s.WellFormed) (p : PageNumber) (e : Pte)
    (hp : e.present = (s.pte p).present)
    (hf : e.present = true → e.frame = (s.pte p).frame ∧ e.mapped = true) : (s.setPte p e).WellFormed := by
  rw [wellFormed_iff] at h ⊢
  obtain ⟨h1, h2, h3, h4⟩ := h
  refine ⟨fun q hq => ?_, fun q hq => ?_, fun f ho => ?_, h4⟩
  · rw [setPte_pte] at hq ⊢
    split at hq
    · rename_i hqp; rw [if_pos hqp]; exact (hf hq).2
    · rename_i hqp; rw [if_neg hqp]; exact h1 q hq
  · rw [setPte_pte] at hq ⊢
    rw [setPte_fte]
    split at hq
    · rename_i hqp; rw [if_pos hqp, (hf hq).1, hqp]; exact h2 p (hp ▸ hq)
    · rename_i hqp; rw [if_neg hqp]; exact h2 q hq
  · have hr := h3 f ho
    unfold State.resident at hr ⊢
    rw [setPte_fte, setPte_pte]
    split
    · rename_i hqp
      rw [hqp] at hr
      have he : e.present = true := hp.trans hr.1
      exact ⟨he, (hf he).1.trans hr.2⟩
    · exact hr

theorem wellFormed_dropPage {s : State} (h : s.WellFormed) {p : PageNumber} (hp : (s.pte p).present = true) :
    (dropPage p s).WellFormed := by
  rw [wellFormed_iff] at h ⊢
  obtain ⟨h1, h2, h3, h4⟩ := h
  refine ⟨fun q hq => ?_, fun q hq => ?_, fun f ho => ?_, fun f ho => ?_⟩
  · rw [dropPage_pte] at hq ⊢
    split at hq
    · simp at hq
    · rename_i hqp; rw [if_neg hqp]; exact h1 q hq
  · rw [dropPage_pte] at hq ⊢
    split at hq
    · simp at hq
    · rename_i hqp
      rw [if_neg hqp, dropPage_fte, if_neg]
      · exact h2 q hq
      · intro hc
        have hpt := h2 p hp
        rw [← hc, h2 q hq] at hpt
        exact hqp (congrArg Fte.owner hpt)
  · rw [dropPage_fte] at ho ⊢
    split at ho
    · simp at ho
    · rename_i hff
      rw [if_neg hff]
      have hr := h3 f ho
      have hne : (s.fte f).owner ≠ p := fun hc => hff (by rw [← hc]; exact hr.2.symm)
      unfold State.resident
      rw [dropPage_pte, if_neg hne]
      exact hr
  · rw [dropPage_fte] at ho ⊢
    split
    · rfl
    · rename_i hff; rw [if_neg hff] at ho; exact h4 f ho

theorem wellFormed_loadedFrom {s : State} (h : s.WellFormed) {p : PageNumber} (hm : (s.pte p).mapped = true)
    (hf : (s.fte (s.pte p).frame).occupied = true → (s.fte (s.pte p).frame).owner = p) :
    (loadedFrom p s).WellFormed := by
  rw [wellFormed_iff] at h ⊢
  obtain ⟨h1, h2, h3, h4⟩ := h
  unfold loadedFrom
  refine ⟨fun q hq => ?_, fun q hq => ?_, fun f ho => ?_, fun f ho => ?_⟩
  · rw [fillFrame_pte] at hq ⊢
    split at hq
    · rename_i hqp; rw [if_pos hqp]; exact hm
    · rename_i hqp; rw [if_neg hqp]; exact h1 q hq
  · rw [fillFrame_pte] at hq ⊢
    split at hq
    · rename_i hqp
      rw [if_pos hqp, fillFrame_fte, loaded_frame, if_pos rfl, hqp]
    · rename_i hqp
      have hq' := h2 q hq
      rw [if_neg hqp, fillFrame_fte, if_neg]
      · exact hq'
      · intro hc
        replace hc : (s.pte q).frame = (s.pte p).frame := hc
        rw [← hc, hq'] at hf
        exact hqp (hf rfl)
  · rw [fillFrame_fte] at ho ⊢
    unfold State.resident
    by_cases hff : f = ((s.attempt .read p).pte p).frame
    · rw [if_pos hff, taken_owner, fillFrame_pte, if_pos rfl]
      exact ⟨rfl, hff.symm⟩
    · rw [if_neg hff] at ho ⊢
      have hr := h3 f ho
      have hne : (s.fte f).owner ≠ p := fun hc => hff (by rw [attempt_pte, ← hc]; exact hr.2.symm)
      rw [fillFrame_pte, if_neg]
      · exact hr
      · exact hne
  · rw [fillFrame_fte] at ho ⊢
    split at ho
    · simp at ho
    · rename_i hff; rw [if_neg hff]; exact h4 f ho

theorem wellFormed_createPool (s : State) : (createPool s).WellFormed := by
  rw [wellFormed_iff]
  exact ⟨by simp [State.inv1], by simp, by simp, by simp⟩

theorem wellFormed_tick {s : State} (h : s.WellFormed) :
    State.WellFormed { s with pt := mapTable s.pt Pte.markUnreferenced } := by
  rw [wellFormed_iff] at h ⊢
  simp only [State.inv1, State.resident, mapTable_pte, fte_with_pt, markUnreferenced_present,
    markUnreferenced_mapped, markUnreferenced_frame] at h ⊢
  exact h

/-- In a well-formed state two present pages in one frame are the same page. -/
theorem frame_injective {s : State} (h : s.WellFormed) {p q : PageNumber} (hp : (s.pte p).present = true)
    (hq : (s.pte q).present = true) (hf : (s.pte p).frame = (s.pte q).frame) : p = q :=
  h.inv2 _ _ _ ⟨hp, rfl⟩ ⟨hq, hf.symm⟩

/-- In a well-formed state a present page's frame is occupied by it. -/
theorem fte_of_present {s : State} (h : s.WellFormed) {p : PageNumber} (hp : (s.pte p).present = true) :
    s.fte (s.pte p).frame = Fte.taken p := ((wellFormed_iff s).1 h).2.1 p hp

/-! ### Sound states: canonical, well-formed, coherent; evict and load keep them and the virtual memory -/

/-- Every property of a sound state and its virtual memory is about the tables and the bytes. -/
theorem sound_of_eq {s t : State} (h : Sound s) (hpt : t.pt = s.pt) (hft : t.ft = s.ft) (hpm : t.pm = s.pm)
    (hbs : t.bs = s.bs) : Sound t ∧ ∀ va, t.vm va = s.vm va := by
  have hp : ∀ p, t.pte p = s.pte p := fun p => by unfold State.pte; simp only [hpt]
  have hf : ∀ f, t.fte f = s.fte f := fun f => by unfold State.fte; simp only [hft]
  have hfb : ∀ f o, t.frameByte f o = s.frameByte f o := fun f o => by rw [frameByte_eq, frameByte_eq, hpm]
  have hsb : ∀ p o, t.storeByte p o = s.storeByte p o := fun p o => by rw [storeByte_eq, storeByte_eq, hbs]
  refine ⟨⟨MemoriesCanonical_of_eq h.canonical hpm hbs, wellFormed_of_eq h.wellFormed hp hf, ?_⟩, ?_⟩
  · obtain ⟨c1, c2, c3, c4⟩ := h.coherent
    refine ⟨?_, ?_, ?_, ?_⟩
    · simpa only [State.coh1, hp, hfb, hsb] using c1
    · simpa only [State.coh2, hf, hfb] using c2
    · simpa only [State.coh3, hp] using c3
    · simpa only [State.coh4, hp] using c4
  · intro va
    simp only [State.vm, hp, hfb, hsb]

/-- Dropping a clean page of a sound state. -/
theorem sound_dropPage {s : State} (h : Sound s) {p : PageNumber} (hp : (s.pte p).present = true)
    (hd : ∀ o, s.frameByte (s.pte p).frame o = s.storeByte p o) :
    Sound (dropPage p s) ∧ ∀ va, (dropPage p s).vm va = s.vm va := by
  have hw := h.canonical.pm_wf
  have hne : ∀ q, q ≠ p → (s.pte q).present = true → (s.pte q).frame ≠ (s.pte p).frame := fun q hq hpr hc =>
    hq (frame_injective h.wellFormed hpr hp hc)
  have hsb : ∀ q o, (dropPage p s).storeByte q o = s.storeByte q o := fun q o => rfl
  refine ⟨⟨canonical_dropPage h.canonical p, wellFormed_dropPage h.wellFormed hp, ?_⟩, ?_⟩
  · obtain ⟨c1, c2, c3, c4⟩ := h.coherent
    refine ⟨fun q o hq hqd => ?_, fun f o ho => ?_, fun q hq => ?_, fun q hq => ?_⟩
    · rw [dropPage_pte] at hq hqd ⊢
      by_cases hqp : q = p
      · rw [if_pos hqp] at hq; simp at hq
      · rw [if_neg hqp] at hq hqd ⊢
        rw [frameByte_dropPage hw, if_neg (hne q hqp hq), hsb]
        exact c1 q o hq hqd
    · rw [dropPage_fte] at ho
      rw [frameByte_dropPage hw]
      split
      · rfl
      · rename_i hff; rw [if_neg hff] at ho; exact c2 f o ho
    · rw [dropPage_pte] at hq ⊢
      by_cases hqp : q = p
      · rw [if_pos hqp] at hq; simp at hq
      · rw [if_neg hqp] at hq ⊢; exact c3 q hq
    · rw [dropPage_pte] at hq ⊢
      by_cases hqp : q = p
      · rw [if_pos hqp] at hq; simp at hq
      · rw [if_neg hqp] at hq ⊢; exact c4 q hq
  · intro va
    unfold State.vm
    rw [dropPage_pte]
    by_cases hqp : pageOf va = p
    · rw [if_pos hqp, hqp]
      simp only [evicted_present, Bool.false_eq_true, if_false, hp, if_true, hsb]
      exact (hd _).symm
    · rw [if_neg hqp]
      split
      · rename_i hq
        rw [frameByte_dropPage hw, if_neg (hne _ hqp hq)]
      · exact hsb _ _

/-- Writing a present page back keeps a sound state and makes its store image current. -/
theorem sound_writtenBack {s : State} (h : Sound s) {p : PageNumber} (hp : (s.pte p).present = true) :
    Sound (writtenBack p s) ∧ (∀ va, (writtenBack p s).vm va = s.vm va) ∧
      ∀ o, (writtenBack p s).frameByte (s.pte p).frame o = (writtenBack p s).storeByte p o := by
  have hw := h.canonical.pm_wf
  have hb := h.canonical.bs_wf
  have hfb : ∀ f o, (writtenBack p s).frameByte f o = s.frameByte f o := fun f o => rfl
  refine ⟨⟨canonical_writtenBack h.canonical p, wellFormed_of_eq h.wellFormed (fun _ => rfl) (fun _ => rfl), ?_⟩, ?_, ?_⟩
  · obtain ⟨c1, c2, c3, c4⟩ := h.coherent
    refine ⟨fun q o hq hqd => ?_, c2, c3, c4⟩
    rw [hfb, storeByte_writtenBack hw hb]
    split
    · rename_i hqp; rw [hqp]; rfl
    · exact c1 q o hq hqd
  · intro va
    unfold State.vm
    rw [writtenBack_pte, hfb]
    split
    · rfl
    · rename_i hq
      rw [storeByte_writtenBack hw hb, if_neg]
      intro hc
      rw [hc] at hq
      exact hq hp
  · intro o
    rw [hfb, storeByte_writtenBack hw hb, if_pos rfl]

/-- `evict` keeps a sound state and the virtual memory, whatever the answers, and the page is not present after it
completes (R190, R195). -/
theorem evict_sound {s : State} (h : Sound s) (p : PageNumber) :
    (evict p s).Sat (fun _ t => (Sound t ∧ ∀ va, t.vm va = s.vm va) ∧ (t.pte p).present = false)
      (fun _ t => Sound t ∧ ∀ va, t.vm va = s.vm va) := by
  rcases evict_cases p s with ⟨h1, he⟩ | ⟨h1, h2, he⟩ | ⟨h1, _, _, he⟩ | ⟨_, _, _, he⟩ <;> rw [he]
  · exact ⟨⟨h, fun _ => rfl⟩, h1⟩
  · exact ⟨sound_dropPage h h1 fun o => h.coherent.coh1 p o h1 h2, by simp [dropPage_pte]⟩
  · obtain ⟨hs, hv, hd⟩ := sound_writtenBack h h1
    obtain ⟨hs', hv'⟩ := sound_dropPage hs h1 hd
    exact ⟨⟨hs', fun va => (hv' va).trans (hv va)⟩, by simp [dropPage_pte]⟩
  · exact sound_of_eq h rfl rfl rfl rfl

/-- Loading a mapped page that is not present into its free frame keeps a sound state and the virtual memory
(R192, R195). -/
theorem sound_loadedFrom {s : State} (h : Sound s) {p : PageNumber} (hm : (s.pte p).mapped = true)
    (hp : (s.pte p).present = false) (hf : (s.fte (s.pte p).frame).occupied = false) :
    Sound (loadedFrom p s) ∧ ∀ va, (loadedFrom p s).vm va = s.vm va := by
  have hw := h.canonical.pm_wf
  have hb := h.canonical.bs_wf
  have hsb : ∀ q o, (loadedFrom p s).storeByte q o = s.storeByte q o := fun q o => rfl
  have hpte : ∀ q, (loadedFrom p s).pte q = if q = p then (s.pte p).loaded else s.pte q := fun q => fillFrame_pte _ _ _ _
  have hfte : ∀ f, (loadedFrom p s).fte f = if f = (s.pte p).frame then Fte.taken p else s.fte f := fun f =>
    fillFrame_fte _ _ _ _
  have hne : ∀ q, (s.pte q).present = true → (s.pte q).frame ≠ (s.pte p).frame := fun q hq hc => by
    have := fte_of_present h.wellFormed hq
    rw [hc] at this
    rw [this] at hf
    cases hf
  refine ⟨⟨canonical_loadedFrom h.canonical p,
    wellFormed_loadedFrom h.wellFormed hm (fun hc => by rw [hf] at hc; cases hc), ?_⟩, ?_⟩
  · obtain ⟨c1, c2, c3, c4⟩ := h.coherent
    refine ⟨fun q o hq hqd => ?_, fun f o ho => ?_, fun q hq => ?_, fun q hq => ?_⟩
    · rw [hpte] at hq hqd ⊢
      rw [frameByte_loadedFrom hw hb, hsb]
      by_cases hqp : q = p
      · rw [if_pos hqp, loaded_frame, if_pos rfl, hqp]
      · rw [if_neg hqp] at hq hqd ⊢
        rw [if_neg (hne q hq)]
        exact c1 q o hq hqd
    · rw [hfte] at ho
      split at ho
      · simp at ho
      · rename_i hff
        rw [frameByte_loadedFrom hw hb, if_neg hff]
        exact c2 f o ho
    · rw [hpte] at hq ⊢
      by_cases hqp : q = p
      · rw [if_pos hqp] at hq; simp at hq
      · rw [if_neg hqp] at hq ⊢; exact c3 q hq
    · rw [hpte] at hq ⊢
      by_cases hqp : q = p
      · rw [if_pos hqp, loaded_mapped, hm] at hq; cases hq
      · rw [if_neg hqp] at hq ⊢; exact c4 q hq
  · intro va
    unfold State.vm
    rw [hpte]
    by_cases hqp : pageOf va = p
    · rw [if_pos hqp, hqp]
      simp only [loaded_present, if_true, loaded_frame, hp, Bool.false_eq_true, if_false]
      rw [frameByte_loadedFrom hw hb, if_pos rfl]
    · rw [if_neg hqp]
      split
      · rename_i hq
        rw [frameByte_loadedFrom hw hb, if_neg (hne _ hq)]
      · exact hsb _ _

theorem load_sound {s : State} (h : Sound s) {p : PageNumber} (hm : (s.pte p).mapped = true)
    (hp : (s.pte p).present = false) (hf : (s.fte (s.pte p).frame).occupied = false) :
    (load p s).Sat (fun _ t => (Sound t ∧ ∀ va, t.vm va = s.vm va) ∧ (t.pte p).present = true)
      (fun _ t => Sound t ∧ ∀ va, t.vm va = s.vm va) := by
  rcases load_cases p s with ⟨_, he⟩ | ⟨_, he⟩ <;> rw [he]
  · exact ⟨sound_loadedFrom h hm hp hf, by simp [loadedFrom, fillFrame_pte]⟩
  · exact sound_of_eq h rfl rfl rfl rfl

end Sys2Proof.Machine
end

