-- ==== Sys2Proof/Laws/FaultPath.lean ====
section
/-!
SUPPORT. What the compound operations (evict, load, replace, resolve, pte_page, the byte accesses, the loops) keep, each
argued once for every property that the primitive updates keep.
-/

namespace Sys2Proof.Machine

/-! ### Properties that every primitive update keeps -/

/-- A property of states that every primitive update of the fault path keeps. -/
structure KeptByUpdates (P : State → Prop) : Prop where
  attempt : ∀ s kind p, P s → P (s.attempt kind p)
  setPte : ∀ s p e, P s → P (s.setPte p e)
  dropPage : ∀ s p, P s → P (dropPage p s)
  storePage : ∀ s p data, Memory.wf data = true → P s → P (storePage p data s)
  fillFrame : ∀ s p data, Memory.wf data = true → P s → P (fillFrame p data s)
  memWrite : ∀ s pa v, P s → P (memWrite pa v s)
  canonical : ∀ s, P s → s.MemoriesCanonical

variable {P : State → Prop}

theorem KeptByUpdates.evict (h : KeptByUpdates P) {s : State} (hs : P s) (p : PageNumber) :
    (evict p s).Sat (fun _ => P) (fun _ => P) := by
  rcases evict_cases p s with ⟨_, he⟩ | ⟨_, _, he⟩ | ⟨_, _, _, he⟩ | ⟨_, _, _, he⟩ <;> rw [he]
  · exact hs
  · exact h.dropPage _ _ hs
  · exact h.dropPage _ _ (h.storePage _ _ _ (Memory.wf_readBlock (h.canonical _ hs).pm_wf _ _) (h.attempt _ _ _ hs))
  · exact h.attempt _ _ _ hs

theorem KeptByUpdates.load (h : KeptByUpdates P) {s : State} (hs : P s) (p : PageNumber) :
    (load p s).Sat (fun _ => P) (fun _ => P) := by
  rcases load_cases p s with ⟨_, he⟩ | ⟨_, he⟩ <;> rw [he]
  · exact h.fillFrame _ _ _ (Memory.wf_readBlock (h.canonical _ hs).bs_wf _ _) (h.attempt _ _ _ hs)
  · exact h.attempt _ _ _ hs

theorem KeptByUpdates.replace (h : KeptByUpdates P) {s : State} (hs : P s) (p : PageNumber) :
    (replace p s).Sat (fun _ => P) (fun _ => P) := by
  rcases replace_cases p s with ⟨_, he⟩ | ⟨v, k, t, _, hv, he⟩ | ⟨v, t, _, hv, he⟩ <;> rw [he]
  · exact hs
  · have := h.evict hs v; rw [hv] at this; exact this
  · have := h.evict hs v; rw [hv] at this; exact h.load (h.setPte _ _ _ this) p

theorem KeptByUpdates.makeResident (h : KeptByUpdates P) {s : State} (hs : P s) (p : PageNumber) :
    (makeResident p s).Sat (fun _ => P) (fun _ => P) := by
  rcases makeResident_cases p s with ⟨_, _, he⟩ | ⟨_, _, _, he⟩ | ⟨_, _, _, he⟩ | ⟨f, _, _, he⟩ | ⟨_, _, he⟩ <;> rw [he]
  · exact hs
  · exact h.load hs p
  · exact h.replace hs p
  · exact h.load (h.setPte _ _ _ hs) p
  · exact h.replace hs p

theorem KeptByUpdates.resolve (h : KeptByUpdates P) {s : State} (hs : P s) (p : PageNumber) :
    (resolve p s).Sat (fun _ => P) (fun _ => P) :=
  sat_bind (h.makeResident hs p) fun _ _ ht => h.setPte _ _ _ ht

theorem KeptByUpdates.ptePage (h : KeptByUpdates P) {s : State} (hs : P s) (p : PageNumber) :
    (ptePage p s).Sat (fun _ => P) (fun _ => P) := by
  unfold Machine.ptePage
  split
  · exact hs
  · exact h.resolve hs p

theorem KeptByUpdates.readByte (h : KeptByUpdates P) {s : State} (hs : P s) (va : VirtualAddress) :
    (readByte va s).Sat (fun _ => P) (fun _ => P) :=
  sat_bind (h.ptePage hs _) fun _ _ ht => h.setPte _ _ _ ht

theorem KeptByUpdates.writeByte (h : KeptByUpdates P) {s : State} (hs : P s) (va : VirtualAddress) (v : Byte) :
    (writeByte va v s).Sat (fun _ => P) (fun _ => P) :=
  sat_bind (h.ptePage hs _) fun _ _ ht => h.setPte _ _ _ (h.memWrite _ _ _ ht)

theorem KeptByUpdates.evictEach (h : KeptByUpdates P) (l : List PageNumber) {s : State} (hs : P s) :
    (evictEach l s).Sat (fun _ => P) (fun _ => P) := by
  induction l generalizing s with
  | nil => exact hs
  | cons p l ih => exact sat_bind (h.evict hs p) fun _ _ ht => ih ht

/-- What holds of a loop's answer. -/
def LoopRes.Sat (r : LoopRes) (Q : List Byte → State → Prop) (E : Nat → Failure → State → Prop) : Prop :=
  match r with
  | .done data s => Q data s
  | .stopped n k s => E n k s

theorem KeptByUpdates.readLoop (h : KeptByUpdates P) (n : Nat) (va : VirtualAddress) (m : Nat) (acc : List Byte)
    {s : State} (hs : P s) : (readLoop n va m acc s).Sat (fun _ => P) (fun _ _ => P) := by
  induction n generalizing va m acc s with
  | zero => exact hs
  | succ n ih =>
    have hb := h.readByte hs va
    unfold Machine.readLoop
    cases hr : Machine.readByte va s with
    | ok b t => rw [hr] at hb; exact ih _ _ _ hb
    | raise k t => rw [hr] at hb; exact hb

theorem KeptByUpdates.writeLoop (h : KeptByUpdates P) (vs : List Byte) (va : VirtualAddress) (m : Nat)
    {s : State} (hs : P s) : (writeLoop vs va m s).Sat (fun _ => P) (fun _ _ => P) := by
  induction vs generalizing va m s with
  | nil => exact hs
  | cons v vs ih =>
    have hb := h.writeByte hs va v
    unfold Machine.writeLoop
    cases hr : Machine.writeByte va v s with
    | ok b t => rw [hr] at hb; exact ih _ _ hb
    | raise k t => rw [hr] at hb; exact hb

/-- The canonical form of the memories, and beside it the fields outside the fault path, are kept. -/
theorem keptByUpdates_canonical (s0 : State) :
    KeptByUpdates (fun t => SameOutside s0 t ∧ t.MemoriesCanonical) where
  attempt _ _ _ h := ⟨⟨h.1.1, h.1.2, h.1.3, h.1.4⟩, MemoriesCanonical_of_eq h.2 rfl rfl⟩
  setPte _ _ _ h := ⟨⟨h.1.1, h.1.2, h.1.3, h.1.4⟩, MemoriesCanonical_of_eq h.2 rfl rfl⟩
  dropPage _ _ h := ⟨⟨h.1.1, h.1.2, h.1.3, h.1.4⟩, canonical_dropPage h.2 _⟩
  storePage _ _ _ hd h := ⟨⟨h.1.1, h.1.2, h.1.3, h.1.4⟩,
    h.2.pm_wf, h.2.pm_below, Memory.wf_writeBlock h.2.bs_wf hd _ _,
    Memory.below_writeBlock h.2.bs_below (storeBase_bound _)⟩
  fillFrame _ _ _ hd h := ⟨⟨h.1.1, h.1.2, h.1.3, h.1.4⟩,
    Memory.wf_writeBlock h.2.pm_wf hd _ _, Memory.below_writeBlock h.2.pm_below (frameBase_bound _),
    h.2.bs_wf, h.2.bs_below⟩
  memWrite _ _ _ h := ⟨⟨h.1.1, h.1.2, h.1.3, h.1.4⟩, canonical_memWrite h.2 _ _⟩
  canonical _ h := h.2

/-! ### Properties of well-formed states that the fault path keeps -/

/-- A property of well-formed states that each update of the fault path keeps where the fault path makes it. -/
structure KeptByFaults (P : State → Prop) : Prop where
  wellFormed : ∀ s, P s → s.WellFormed
  attempt : ∀ s kind p, P s → P (s.attempt kind p)
  dropClean : ∀ s p, P s → (s.pte p).present = true → (s.pte p).dirty = false → P (dropPage p s)
  dropWritten : ∀ s p, P s → (s.pte p).present = true → P (dropPage p (writtenBack p s))
  install : ∀ s p f, P s → (s.pte p).mapped = false → P (s.setPte p (Pte.fresh f))
  remap : ∀ s p f, P s → (s.pte p).present = false → P (s.setPte p ((s.pte p).remapped f))
  load : ∀ s p, P s → (s.pte p).mapped = true → (s.pte p).present = false →
    (s.fte (s.pte p).frame).occupied = false → P (loadedFrom p s)
  markReferenced : ∀ s p, P s → (s.pte p).present = true → P (s.markReferenced p)

theorem not_present_of_unmapped {s : State} (h : s.WellFormed) {p : PageNumber} (hm : (s.pte p).mapped = false) :
    (s.pte p).present = false := by
  cases hp : (s.pte p).present with
  | false => rfl
  | true => rw [h.inv1 p hp] at hm; cases hm

/-- `evict` keeps such a property; where it completes the page is not present. -/
theorem KeptByFaults.evict (h : KeptByFaults P) {s : State} (hs : P s) (p : PageNumber) :
    (evict p s).Sat (fun _ t => P t ∧ (t.pte p).present = false) (fun _ => P) := by
  rcases evict_cases p s with ⟨h1, he⟩ | ⟨h1, h2, he⟩ | ⟨h1, _, _, he⟩ | ⟨_, _, _, he⟩ <;> rw [he]
  · exact ⟨hs, h1⟩
  · exact ⟨h.dropClean _ _ hs h1 h2, by simp [dropPage_pte]⟩
  · exact ⟨h.dropWritten _ _ hs h1, by simp [dropPage_pte]⟩
  · exact h.attempt _ _ _ hs

/-- What evicting a present page leaves of the tables: the frame is free, every other entry as before. -/
theorem evict_tables {s t : State} {v : PageNumber} (hv : (s.pte v).present = true) (he : evict v s = .ok () t) :
    (∀ q, t.pte q = if q = v then (s.pte v).evicted else s.pte q) ∧
      (∀ f, t.fte f = if f = (s.pte v).frame then Fte.free else s.fte f) := by
  rcases evict_cases v s with ⟨h1, _⟩ | ⟨_, _, h2⟩ | ⟨_, _, _, h2⟩ | ⟨_, _, _, h2⟩
  · rw [hv] at h1; cases h1
  · rw [h2] at he; cases he; exact ⟨dropPage_pte s v, dropPage_fte s v⟩
  · rw [h2] at he; cases he; exact ⟨dropPage_pte (writtenBack v s) v, dropPage_fte (writtenBack v s) v⟩
  · rw [h2] at he; cases he

theorem KeptByFaults.loadFree (h : KeptByFaults P) {s : State} (hs : P s) {p : PageNumber}
    (hm : (s.pte p).mapped = true) (hp : (s.pte p).present = false)
    (hf : (s.fte (s.pte p).frame).occupied = false) :
    (Machine.load p s).Sat (fun _ t => P t ∧ (t.pte p).present = true) (fun _ => P) := by
  rcases load_cases p s with ⟨_, he⟩ | ⟨_, he⟩ <;> rw [he]
  · exact ⟨h.load _ _ hs hm hp hf, by simp [loadedFrom, fillFrame_pte]⟩
  · exact h.attempt _ _ _ hs

theorem KeptByFaults.replace (h : KeptByFaults P) {s : State} (hs : P s) {p : PageNumber}
    (hp : (s.pte p).present = false) :
    (replace p s).Sat (fun _ t => P t ∧ (t.pte p).present = true) (fun _ => P) := by
  rcases replace_cases p s with ⟨_, he⟩ | ⟨v, k, t, _, hv, he⟩ | ⟨v, t, hc, hv, he⟩ <;> rw [he]
  · exact hs
  · have := h.evict hs v; rw [hv] at this; exact this
  · have hs' := h.evict hs v
    rw [hv] at hs'
    have hpv : (s.pte v).present = true := by
      have := (chooseVictim_some hc).1
      simp only [candidate, Bool.and_eq_true] at this
      exact this.2
    have hne : p ≠ v := fun hc => by rw [hc, hpv] at hp; cases hp
    obtain ⟨ht, hft⟩ := evict_tables hpv hv
    have htp : t.pte p = s.pte p := by rw [ht, if_neg hne]
    refine h.loadFree (h.remap _ _ _ hs'.1 (by rw [htp]; exact hp)) ?_ ?_ ?_
    · simp
    · simp [htp, hp]
    · simp [hft]

theorem KeptByFaults.makeResident (h : KeptByFaults P) {s : State} (hs : P s) (p : PageNumber) :
    (makeResident p s).Sat (fun _ t => P t ∧ (t.pte p).present = true) (fun _ => P) := by
  rcases makeResident_cases p s with ⟨_, h2, he⟩ | ⟨h1, h2, h3, he⟩ | ⟨_, h2, _, he⟩ | ⟨f, h1, h2, he⟩ | ⟨h1, _, he⟩ <;>
    rw [he]
  · exact ⟨hs, h2⟩
  · exact h.loadFree hs h1 h2 h3
  · exact h.replace hs h2
  · refine h.loadFree (h.install _ _ _ hs h1) ?_ ?_ ?_
    · simp
    · simp
    · simpa using (findFreeFrame_some h2).1
  · exact h.replace hs (not_present_of_unmapped (h.wellFormed _ hs) h1)

theorem KeptByFaults.resolve (h : KeptByFaults P) {s : State} (hs : P s) (p : PageNumber) :
    (resolve p s).Sat (fun f t => P t ∧ (t.pte p).present = true ∧ f = (t.pte p).frame) (fun _ => P) :=
  sat_bind (h.makeResident hs p) fun _ _ ht =>
    ⟨h.markReferenced _ _ ht.1 ht.2, by simp [markReferenced_pte, ht.2], rfl⟩

theorem KeptByFaults.ptePage (h : KeptByFaults P) {s : State} (hs : P s) (p : PageNumber) :
    (ptePage p s).Sat (fun f t => P t ∧ (t.pte p).present = true ∧ f = (t.pte p).frame) (fun _ => P) := by
  unfold Machine.ptePage
  split
  · rename_i hp; exact ⟨hs, hp, rfl⟩
  · exact h.resolve hs p

theorem KeptByFaults.evictEach (h : KeptByFaults P) (l : List PageNumber) {s : State} (hs : P s) :
    (evictEach l s).Sat (fun _ => P) (fun _ => P) := by
  induction l generalizing s with
  | nil => exact hs
  | cons p l ih => exact sat_bind (h.evict hs p) fun _ _ ht => ih ht.1

theorem wellFormed_writtenBack {s : State} (h : s.WellFormed) (p : PageNumber) : (writtenBack p s).WellFormed :=
  wellFormed_of_eq h (fun _ => rfl) (fun _ => rfl)

theorem keptByFaults_wellFormed : KeptByFaults State.WellFormed where
  wellFormed _ h := h
  attempt _ _ _ h := wellFormed_of_eq h (fun _ => rfl) (fun _ => rfl)
  dropClean _ _ h hp _ := wellFormed_dropPage h hp
  dropWritten _ p h hp := wellFormed_dropPage (wellFormed_writtenBack h p) hp
  install _ _ _ h hm := wellFormed_setPte h _ _ (not_present_of_unmapped h hm).symm (by simp)
  remap _ _ _ h hp := wellFormed_setPte h _ _ rfl (by simp [hp])
  load _ _ h hm hp hf := wellFormed_loadedFrom h hm (by simp [hf])
  markReferenced _ p h hp := wellFormed_setPte h _ _ rfl (fun _ => ⟨rfl, h.inv1 p hp⟩)

/-! ### Sound states and the virtual memory -/

/-- Writing an entry that keeps residency, does not hide a dirty page and keeps the canonical unmapped entry keeps a
sound state and the virtual memory. -/
theorem sound_setPte {s : State} (h : Sound s) (p : PageNumber) (e : Pte)
    (hp : e.present = (s.pte p).present) (hf : e.present = true → e.frame = (s.pte p).frame ∧ e.mapped = true)
    (hd : e.dirty = true → e.present = true) (hc : e.present = true → e.dirty = false → (s.pte p).dirty = false)
    (hz : e.mapped = false → e = Pte.zero) : Sound (s.setPte p e) ∧ ∀ va, (s.setPte p e).vm va = s.vm va := by
  have hfb : ∀ f o, (s.setPte p e).frameByte f o = s.frameByte f o := fun f o => rfl
  have hsb : ∀ q o, (s.setPte p e).storeByte q o = s.storeByte q o := fun q o => rfl
  refine ⟨⟨MemoriesCanonical_of_eq h.canonical rfl rfl, wellFormed_setPte h.wellFormed p e hp hf, ?_⟩, ?_⟩
  · obtain ⟨c1, c2, c3, c4⟩ := h.coherent
    refine ⟨fun q o hq hqd => ?_, c2, fun q hq => ?_, fun q hq => ?_⟩
    · rw [setPte_pte] at hq hqd ⊢
      rw [hfb, hsb]
      by_cases hqp : q = p
      · rw [if_pos hqp] at hq hqd ⊢
        rw [(hf hq).1, hqp]
        exact c1 p o (hp ▸ hq) (hc hq hqd)
      · rw [if_neg hqp] at hq hqd ⊢
        exact c1 q o hq hqd
    · rw [setPte_pte] at hq ⊢
      by_cases hqp : q = p
      · rw [if_pos hqp] at hq ⊢; exact hd hq
      · rw [if_neg hqp] at hq ⊢; exact c3 q hq
    · rw [setPte_pte] at hq ⊢
      by_cases hqp : q = p
      · rw [if_pos hqp] at hq ⊢; exact hz hq
      · rw [if_neg hqp] at hq ⊢; exact c4 q hq
  · intro va
    unfold State.vm
    rw [setPte_pte, hfb, hsb]
    by_cases hqp : pageOf va = p
    · rw [if_pos hqp, hqp]
      cases hpr : e.present
      · rw [hpr] at hp; rw [← hp]; rfl
      · rw [(hf hpr).1]; rw [hpr] at hp; rw [← hp]
    · rw [if_neg hqp]

/-- Marking a present page referenced keeps a sound state and the virtual memory. -/
theorem sound_markReferenced {s : State} (h : Sound s) {p : PageNumber} (hp : (s.pte p).present = true) :
    Sound (s.markReferenced p) ∧ ∀ va, (s.markReferenced p).vm va = s.vm va :=
  sound_setPte h p _ rfl (fun _ => ⟨rfl, h.wellFormed.inv1 p hp⟩) (fun _ => hp) (fun _ hd => hd)
    (fun hm => by rw [markReferenced_mapped, h.wellFormed.inv1 p hp] at hm; cases hm)

/-- The fault path keeps a sound state and the virtual memory of the state it started from (R73). -/
theorem keptByFaults_sound (s0 : State) :
    KeptByFaults (fun t => Sound t ∧ ∀ va, t.vm va = s0.vm va) where
  wellFormed _ h := h.1.wellFormed
  attempt s _ _ h := by
    obtain ⟨h1, h2⟩ := sound_of_eq h.1 (t := s.attempt _ _) rfl rfl rfl rfl
    exact ⟨h1, fun va => (h2 va).trans (h.2 va)⟩
  dropClean s p h hp hd := by
    obtain ⟨h1, h2⟩ := sound_dropPage h.1 hp (fun o => h.1.coherent.coh1 p o hp hd)
    exact ⟨h1, fun va => (h2 va).trans (h.2 va)⟩
  dropWritten s p h hp := by
    obtain ⟨h1, h2, h3⟩ := sound_writtenBack h.1 hp
    obtain ⟨h4, h5⟩ := sound_dropPage h1 (p := p) hp h3
    exact ⟨h4, fun va => (h5 va).trans ((h2 va).trans (h.2 va))⟩
  install s p f h hm := by
    obtain ⟨h1, h2⟩ := sound_setPte h.1 p (Pte.fresh f) (not_present_of_unmapped h.1.wellFormed hm).symm
      (by simp) (by simp) (by simp) (by simp)
    exact ⟨h1, fun va => (h2 va).trans (h.2 va)⟩
  remap s p f h hp := by
    have hd : (s.pte p).dirty = false := by
      cases hd : (s.pte p).dirty
      · rfl
      · rw [h.1.coherent.coh3 p hd] at hp; cases hp
    obtain ⟨h1, h2⟩ := sound_setPte h.1 p ((s.pte p).remapped f) rfl (by simp [hp]) (by simp [hd]) (by simp [hp]) (by simp)
    exact ⟨h1, fun va => (h2 va).trans (h.2 va)⟩
  load s p h hm hp hf := by
    obtain ⟨h1, h2⟩ := sound_loadedFrom h.1 hm hp hf
    exact ⟨h1, fun va => (h2 va).trans (h.2 va)⟩
  markReferenced s p h hp := by
    obtain ⟨h1, h2⟩ := sound_markReferenced h.1 hp
    exact ⟨h1, fun va => (h2 va).trans (h.2 va)⟩

/-- A byte read of a sound state: the value is the virtual memory's, which is unchanged (R73, R200). -/
theorem readByte_sound {s : State} (h : Sound s) (va : VirtualAddress) :
    (readByte va s).Sat (fun b t => (Sound t ∧ ∀ x, t.vm x = s.vm x) ∧ b = s.vm va)
      (fun _ t => Sound t ∧ ∀ x, t.vm x = s.vm x) := by
  refine sat_bind ((keptByFaults_sound s).ptePage ⟨h, fun _ => rfl⟩ (pageOf va)) fun f t ht => ?_
  obtain ⟨⟨hs, hv⟩, hp, rfl⟩ := ht
  obtain ⟨h1, h2⟩ := sound_markReferenced hs hp
  refine ⟨⟨h1, fun x => (h2 x).trans (hv x)⟩, ?_⟩
  rw [← hv va]
  simp [State.vm, hp, State.frameByte]

/-- Writing one byte of a present page and marking the page written (R201). -/
theorem sound_writeResident {s : State} (h : Sound s) (va : VirtualAddress) (v : Byte)
    (hp : (s.pte (pageOf va)).present = true) :
    Sound ((memWrite (encodePhysical (s.pte (pageOf va)).frame (offsetOf va)) v s).markWritten (pageOf va)) ∧
      ∀ x, ((memWrite (encodePhysical (s.pte (pageOf va)).frame (offsetOf va)) v s).markWritten (pageOf va)).vm x =
        if x = va then v else s.vm x := by
  have hw := h.canonical.pm_wf
  have hfb : ∀ g o, ((memWrite (encodePhysical (s.pte (pageOf va)).frame (offsetOf va)) v s).markWritten
      (pageOf va)).frameByte g o = if g = (s.pte (pageOf va)).frame ∧ o = offsetOf va then v else s.frameByte g o :=
    fun g o => frameByte_memWrite hw _ _ _ _ _
  have hpte : ∀ q, ((memWrite (encodePhysical (s.pte (pageOf va)).frame (offsetOf va)) v s).markWritten
      (pageOf va)).pte q = if q = pageOf va then (s.pte (pageOf va)).markDirty.markReferenced else s.pte q :=
    fun q => markWritten_pte _ _ _
  generalize hr : (memWrite (encodePhysical (s.pte (pageOf va)).frame (offsetOf va)) v s).markWritten (pageOf va) = r
    at hfb hpte ⊢
  have hsb : ∀ q o, r.storeByte q o = s.storeByte q o := fun q o => by rw [← hr]; rfl
  have hfte : ∀ f, r.fte f = s.fte f := fun f => by rw [← hr]; rfl
  have hne : ∀ q, q ≠ pageOf va → (s.pte q).present = true → (s.pte q).frame ≠ (s.pte (pageOf va)).frame :=
    fun q hq hpr hc => hq (frame_injective h.wellFormed hpr hp hc)
  refine ⟨⟨?_, ?_, ?_⟩, ?_⟩
  · rw [← hr]; exact MemoriesCanonical_of_eq (canonical_memWrite h.canonical _ _) rfl rfl
  · rw [← hr]
    refine wellFormed_setPte (s := memWrite _ _ _) (wellFormed_of_eq h.wellFormed (fun _ => rfl) (fun _ => rfl)) _ _ rfl ?_
    exact fun _ => ⟨rfl, h.wellFormed.inv1 _ hp⟩
  · obtain ⟨c1, c2, c3, c4⟩ := h.coherent
    refine ⟨fun q o hq hqd => ?_, fun f o ho => ?_, fun q hq => ?_, fun q hq => ?_⟩
    · rw [hpte] at hq hqd ⊢
      by_cases hqp : q = pageOf va
      · rw [if_pos hqp] at hqd; simp at hqd
      · rw [if_neg hqp] at hq hqd ⊢
        rw [hfb, hsb, if_neg (fun hc => hne q hqp hq hc.1)]
        exact c1 q o hq hqd
    · rw [hfte] at ho
      rw [hfb, if_neg]
      · exact c2 f o ho
      · rintro ⟨rfl, _⟩
        rw [fte_of_present h.wellFormed hp] at ho
        cases ho
    · rw [hpte] at hq ⊢
      by_cases hqp : q = pageOf va
      · rw [if_pos hqp]; exact hp
      · rw [if_neg hqp] at hq ⊢; exact c3 q hq
    · rw [hpte] at hq ⊢
      by_cases hqp : q = pageOf va
      · rw [if_pos hqp, markReferenced_mapped, markDirty_mapped, h.wellFormed.inv1 _ hp] at hq; cases hq
      · rw [if_neg hqp] at hq ⊢; exact c4 q hq
  · intro x
    unfold State.vm
    rw [hpte, hfb, hsb]
    by_cases hqp : pageOf x = pageOf va
    · rw [if_pos hqp, markReferenced_present, markDirty_present, hp, if_pos rfl, markReferenced_frame, markDirty_frame]
      by_cases hx : x = va
      · rw [if_pos hx, hx, if_pos ⟨rfl, rfl⟩]
      · rw [if_neg hx, if_neg (fun hc => hx (virtualAddress_ext hqp hc.2)), hqp, hp, if_pos rfl]
    · have hx : x ≠ va := fun hc => hqp (by rw [hc])
      rw [if_neg hqp, if_neg hx]
      split
      · rename_i hq
        rw [if_neg (fun hc => hne _ hqp hq hc.1)]
      · rfl

/-- A byte write of a sound state changes the virtual memory at that address only (R73, R201). -/
theorem writeByte_sound {s : State} (h : Sound s) (va : VirtualAddress) (v : Byte) :
    (writeByte va v s).Sat (fun _ t => Sound t ∧ ∀ x, t.vm x = if x = va then v else s.vm x)
      (fun _ t => Sound t ∧ ∀ x, t.vm x = s.vm x) := by
  refine sat_bind ((keptByFaults_sound s).ptePage ⟨h, fun _ => rfl⟩ (pageOf va)) fun f t ht => ?_
  obtain ⟨⟨hs, hv⟩, hp, rfl⟩ := ht
  obtain ⟨h1, h2⟩ := sound_writeResident hs va v hp
  exact ⟨h1, fun x => by rw [h2, hv]⟩

end Sys2Proof.Machine
end

