-- ==== Sys2Proof/Laws/Exec.lean ====
section
/-!
SUPPORT. What a command can answer, said once for all 32 commands (`Answered`), and the checks made before a command
executes.
-/

namespace Sys2Proof.Machine

/-! ### The checks and the delivery -/

theorem whenRunning_run {s : State} (h : s.mode = .run) (body : State → Host.Outcome State Fault Refusal) :
    whenRunning body s = body s := by
  unfold whenRunning; rw [h]

theorem whenRunning_off {s : State} (h : s.mode = .off) (body : State → Host.Outcome State Fault Refusal) :
    whenRunning body s = .next (deliverFailure .notInitialized 0 s) := by
  unfold whenRunning; rw [h]

theorem whenAccepting_of_ne {s : State} (h : s.mode ≠ .aborted) (body : State → Host.Outcome State Fault Refusal) :
    whenAccepting body s = body s := by
  unfold whenAccepting
  cases hm : s.mode <;> simp_all

theorem withPage_run {s : State} (h : s.mode = .run) (p : PageNumber)
    (body : PageNumber → State → Host.Outcome State Fault Refusal) : withPage p.toNat body s = body p s := by
  unfold withPage withOperand
  rw [whenRunning_run h, pageOperand_toNat]

theorem whenRunning_next {s t : State} {body : State → Host.Outcome State Fault Refusal}
    (h : whenRunning body s = .next t) :
    (s.mode = .off ∧ t = deliverFailure .notInitialized 0 s) ∨ (s.mode = .run ∧ body s = .next t) := by
  unfold whenRunning at h
  cases hm : s.mode <;> rw [hm] at h
  · cases h; exact .inl ⟨rfl, rfl⟩
  · exact .inr ⟨rfl, h⟩
  · cases h

theorem whenAccepting_next {s t : State} {body : State → Host.Outcome State Fault Refusal}
    (h : whenAccepting body s = .next t) : (s.mode = .off ∨ s.mode = .run) ∧ body s = .next t := by
  unfold whenAccepting at h
  cases hm : s.mode <;> rw [hm] at h
  · exact ⟨.inl rfl, h⟩
  · exact ⟨.inr rfl, h⟩
  · cases h

theorem withPage_next {page : Nat} {s t : State} {body : PageNumber → State → Host.Outcome State Fault Refusal}
    (h : withPage page body s = .next t) :
    (s.mode = .off ∧ t = deliverFailure .notInitialized 0 s) ∨
    (s.mode = .run ∧ 256 ≤ page ∧ t = deliverFailure .contractViolation 0 s) ∨
    (s.mode = .run ∧ ∃ p : PageNumber, page = p.toNat ∧ body p s = .next t) := by
  rcases whenRunning_next h with h | ⟨hm, h⟩
  · exact .inl h
  · refine .inr ?_
    by_cases hp : page < 256
    · refine .inr ⟨hm, BitVec.ofNat 8 page, ?_, ?_⟩
      · rw [BitVec.toNat_ofNat, Nat.mod_eq_of_lt hp]
      · unfold withOperand at h; rw [pageOperand_of_lt hp] at h; exact h
    · unfold withOperand at h
      rw [pageOperand_of_ge (Nat.le_of_not_lt hp)] at h
      cases h
      exact .inl ⟨hm, Nat.le_of_not_lt hp, rfl⟩

theorem deliver_next {α : Type} {value : α → State → BitVec 32} {r : Res α} {t : State}
    (h : deliver value r = .next t) :
    (∃ a u, r = .ok a u ∧ t = deliverOk (value a u) [] u) ∨ ∃ k u, r = .raise k u ∧ t = deliverFailure k 0 u := by
  cases r with
  | ok a u => cases h; exact .inl ⟨a, u, rfl, rfl⟩
  | raise k u => cases h; exact .inr ⟨k, u, rfl, rfl⟩

theorem deliverLoop_next {value : BitVec 32} {r : LoopRes} {t : State} (h : deliverLoop value r = .next t) :
    (∃ data u, r = .done data u ∧ t = deliverOk value data u) ∨
      ∃ n k u, r = .stopped n k u ∧ t = deliverFailure k n u := by
  cases r with
  | done data u => cases h; exact .inl ⟨data, u, rfl, rfl⟩
  | stopped n k u => cases h; exact .inr ⟨n, k, u, rfl, rfl⟩

/-! ### What a command can answer -/

/-- The commands that read the block and write nothing of it. -/
def observer : Instr → Bool
  | .decodeVirtual _ => true
  | .encodeVirtual _ _ => true
  | .decodePhysical _ => true
  | .encodePhysical _ _ => true
  | .translate _ => true
  | .ptGet _ => true
  | .isUnmapped _ => true
  | .isPresent _ => true
  | .isDirty _ => true
  | .isReferenced _ => true
  | .findFreeFrame => true
  | .chooseVictim => true
  | _ => false

/-- The bytes that a multi-byte write command writes, and its address operand. -/
def sequence : Instr → Option (AField × List Byte)
  | .writew a v1 v2 => some (a, [v1, v2])
  | .writedw a v1 v2 v3 v4 => some (a, [v1, v2, v3, v4])
  | .writez a n => some (a, List.replicate n 0)
  | _ => none

/-- The ways a command can answer a next state. -/
inductive Answered : Instr → State → State → Prop
  | notInitialized {i s} (hm : s.mode = .off) (hn : needsPool i = true) :
    Answered i s (deliverFailure .notInitialized 0 s)
  | contract {i s} (hm : s.mode = .run ∨ (s.mode = .off ∧ needsPool i = false)) (hb : breaksContract i s) :
    Answered i s (deliverFailure .contractViolation 0 s)
  | observed {i s} (v : BitVec 32) (hm : s.mode = .run ∨ (s.mode = .off ∧ needsPool i = false))
    (ho : observer i = true) : Answered i s (deliverOk v [] s)
  | noVictim {s} (hm : s.mode = .run) (hv : chooseVictim s = none) :
    Answered .chooseVictim s (deliverFailure .invariantViolation 0 s)
  | ptSet {s} (p : PageNumber) (e : PteImage) (hm : s.mode = .run) :
    Answered (.ptSet p.toNat e) s (deliverOk 0 [] (s.setPte p (Pte.installed e)))
  | ptClear {s} (p : PageNumber) (hm : s.mode = .run) :
    Answered (.ptClear p.toNat) s (deliverOk ((s.pte p).image.zeroExtend 32) [] (s.setPte p Pte.zero))
  | markDirty {s} (p : PageNumber) (hm : s.mode = .run) :
    Answered (.markDirty p.toNat) s (deliverOk 0 [] (s.setPte p (s.pte p).markDirty))
  | markClean {s} (p : PageNumber) (hm : s.mode = .run) :
    Answered (.markClean p.toNat) s (deliverOk 0 [] (s.setPte p (s.pte p).markClean))
  | markReferenced {s} (p : PageNumber) (hm : s.mode = .run) :
    Answered (.markReferenced p.toNat) s (deliverOk 0 [] (s.markReferenced p))
  | markUnreferenced {s} (p : PageNumber) (hm : s.mode = .run) :
    Answered (.markUnreferenced p.toNat) s (deliverOk 0 [] (s.setPte p (s.pte p).markUnreferenced))
  | tick {s : State} (hm : s.mode = .run) :
    Answered .tick s (deliverOk 0 [] { s with pt := mapTable s.pt Pte.markUnreferenced })
  | reinit {s} (hm : s.mode = .run) : Answered .memInit s (deliverFailure .reinitMisuse 0 s)
  | created {s} (hm : s.mode = .off) (hi : s.io.next.1 = .ok) :
    Answered .memInit s (deliverOk 0 [] (createPool { s.attempt .create 0 with bs := [] }))
  | notCreated {s} (hm : s.mode = .off) (hi : s.io.next.1 = .fail) :
    Answered .memInit s (deliverFailure (.backingStoreUnavailable 0) 0 (s.attempt .create 0))
  | destroyed {s} (hm : s.mode = .run) : Answered .memDestroy s (deliverOk 0 [] (releasePool s))
  | halted {s u} (hm : s.mode = .run) (h : evictEach allPages s = .ok () u) :
    Answered .halt s (deliverOk 0 [] (releasePool u))
  | haltStopped {s k u} (hm : s.mode = .run) (h : evictEach allPages s = .raise k u) :
    Answered .halt s (deliverFailure k 0 u)
  | evicted {s u} (p : PageNumber) (hm : s.mode = .run) (h : evict p s = .ok () u) :
    Answered (.evict p.toNat) s (deliverOk 0 [] u)
  | evictStopped {s k u} (p : PageNumber) (hm : s.mode = .run) (h : evict p s = .raise k u) :
    Answered (.evict p.toNat) s (deliverFailure k 0 u)
  | loaded {s u} (p : PageNumber) (hm : s.mode = .run) (ha : loadAllowed p s = true) (h : load p s = .ok () u) :
    Answered (.load p.toNat) s (deliverOk 0 [] u)
  | loadStopped {s k u} (p : PageNumber) (hm : s.mode = .run) (ha : loadAllowed p s = true)
    (h : load p s = .raise k u) : Answered (.load p.toNat) s (deliverFailure k 0 u)
  | resolved {s f u} (p : PageNumber) (hm : s.mode = .run) (h : resolve p s = .ok f u) :
    Answered (.resolve p.toNat) s (deliverOk (f.zeroExtend 32) [] u)
  | resolveStopped {s k u} (p : PageNumber) (hm : s.mode = .run) (h : resolve p s = .raise k u) :
    Answered (.resolve p.toNat) s (deliverFailure k 0 u)
  | handled {s f u} (p : PageNumber) (hm : s.mode = .run) (h : ptePage p s = .ok f u) :
    Answered (.ptePage p.toNat) s (deliverOk (f.zeroExtend 32) [] u)
  | handleStopped {s k u} (p : PageNumber) (hm : s.mode = .run) (h : ptePage p s = .raise k u) :
    Answered (.ptePage p.toNat) s (deliverFailure k 0 u)
  | byteRead {s b u} (a : AField) (hm : s.mode = .run) (h : readByte (virtualAddress a) s = .ok b u) :
    Answered (.read a) s (deliverOk (b.zeroExtend 32) [] u)
  | readStopped {s k u} (a : AField) (hm : s.mode = .run) (h : readByte (virtualAddress a) s = .raise k u) :
    Answered (.read a) s (deliverFailure k 0 u)
  | byteWritten {s u} (a : AField) (v : Byte) (hm : s.mode = .run)
    (h : writeByte (virtualAddress a) v s = .ok () u) : Answered (.write a v) s (deliverOk 0 [] u)
  | writeStopped {s k u} (a : AField) (v : Byte) (hm : s.mode = .run)
    (h : writeByte (virtualAddress a) v s = .raise k u) : Answered (.write a v) s (deliverFailure k 0 u)
  | bytesRead {s data u} (a : AField) (n : Nat) (hm : s.mode = .run)
    (h : readLoop n (virtualAddress a) 0 [] s = .done data u) :
    Answered (.readn a n) s (deliverOk (BitVec.ofNat 32 n) data u)
  | readnStopped {s m k u} (a : AField) (n : Nat) (hm : s.mode = .run)
    (h : readLoop n (virtualAddress a) 0 [] s = .stopped m k u) : Answered (.readn a n) s (deliverFailure k m u)
  | bytesWritten {i s data u a vs} (hi : sequence i = some (a, vs)) (hm : s.mode = .run)
    (h : writeLoop vs (virtualAddress a) 0 s = .done data u) : Answered i s (deliverOk 0 data u)
  | sequenceStopped {i s m k u a vs} (hi : sequence i = some (a, vs)) (hm : s.mode = .run)
    (h : writeLoop vs (virtualAddress a) 0 s = .stopped m k u) : Answered i s (deliverFailure k m u)

theorem answered_page {i : Instr} {page : Nat} {s t : State} {body : PageNumber → State → Host.Outcome State Fault Refusal}
    (hn : needsPool i = true) (hp : poolPage i = some page) (h : withPage page body s = .next t)
    (hb : ∀ p : PageNumber, s.mode = .run → page = p.toNat → body p s = .next t → Answered i s t) : Answered i s t := by
  rcases withPage_next h with ⟨hm, rfl⟩ | ⟨hm, hpg, rfl⟩ | ⟨hm, p, hpp, h⟩
  · exact .notInitialized hm hn
  · exact .contract (.inl hm) (.inl ⟨page, hp, hpg⟩)
  · exact hb p hm hpp h

theorem answered_running {i : Instr} {s t : State} {body : State → Host.Outcome State Fault Refusal}
    (hn : needsPool i = true) (h : whenRunning body s = .next t)
    (hb : s.mode = .run → body s = .next t → Answered i s t) : Answered i s t := by
  rcases whenRunning_next h with ⟨hm, rfl⟩ | ⟨hm, h⟩
  · exact .notInitialized hm hn
  · exact hb hm h

theorem answered_sequence {i : Instr} {a : AField} {vs : List Byte} {s t : State} (hn : needsPool i = true)
    (hi : sequence i = some (a, vs))
    (h : whenRunning (fun s => deliverLoop 0 (writeLoop vs (virtualAddress a) 0 s)) s = .next t) : Answered i s t :=
  answered_running hn h fun hm h => by
    rcases deliverLoop_next h with ⟨_, u, hr, rfl⟩ | ⟨_, _, u, hr, rfl⟩
    · exact .bytesWritten hi hm hr
    · exact .sequenceStopped hi hm hr

/-- Everything a command can answer. -/
theorem exec_answered {i : Instr} {s t : State} (h : exec i s = .next t) : Answered i s t := by
  cases i with
  | read a =>
    unfold exec execRead at h
    refine answered_running rfl h fun hm h => ?_
    rcases deliver_next h with ⟨_, u, hr, rfl⟩ | ⟨_, u, hr, rfl⟩
    · exact .byteRead a hm hr
    · exact .readStopped a hm hr
  | readn a n =>
    unfold exec execReadn at h
    refine answered_running rfl h fun hm h => ?_
    rcases deliverLoop_next h with ⟨_, u, hr, rfl⟩ | ⟨_, _, u, hr, rfl⟩
    · exact .bytesRead a n hm hr
    · exact .readnStopped a n hm hr
  | write a v =>
    unfold exec execWrite at h
    refine answered_running rfl h fun hm h => ?_
    rcases deliver_next h with ⟨_, u, hr, rfl⟩ | ⟨_, u, hr, rfl⟩
    · exact .byteWritten a v hm hr
    · exact .writeStopped a v hm hr
  | writew a v1 v2 =>
    unfold exec execWritew at h
    exact answered_sequence rfl rfl h
  | writedw a v1 v2 v3 v4 =>
    unfold exec execWritedw at h
    exact answered_sequence rfl rfl h
  | writez a n =>
    unfold exec execWritez at h
    exact answered_sequence rfl rfl h
  | memInit =>
    unfold exec execMemInit at h
    obtain ⟨hm, h⟩ := whenAccepting_next h
    split at h
    · rename_i hr; cases h; exact .reinit hr
    · rename_i hr
      have hm := hm.resolve_right hr
      rcases bsCreate_cases s with ⟨hi, hc⟩ | ⟨hi, hc⟩ <;> rw [hc] at h <;> cases h
      · exact .created hm hi
      · exact .notCreated hm hi
  | memDestroy =>
    unfold exec execMemDestroy at h
    exact answered_running rfl h fun hm h => by cases h; exact .destroyed hm
  | halt =>
    unfold exec execHalt at h
    refine answered_running rfl h fun hm h => ?_
    cases he : evictEach allPages s with
    | ok u s1 => rw [he] at h; cases h; exact .halted hm he
    | raise k s1 => rw [he] at h; cases h; exact .haltStopped hm he
  | tick =>
    unfold exec execTick at h
    exact answered_running rfl h fun hm h => by cases h; exact .tick hm
  | decodeVirtual a =>
    unfold exec execDecodeVirtual at h
    obtain ⟨hm, h⟩ := whenAccepting_next h
    cases h; exact .observed _ (hm.symm.imp_right fun hm => ⟨hm, rfl⟩) rfl
  | encodeVirtual page offset =>
    unfold exec execEncodeVirtual at h
    obtain ⟨hm, h⟩ := whenAccepting_next h
    replace hm := hm.symm.imp_right fun hm => And.intro hm (rfl : needsPool (.encodeVirtual page offset) = false)
    unfold withOperand at h
    by_cases hp : page < 256
    · rw [pageOperand_of_lt hp] at h
      by_cases ho : offset < 4096
      · rw [offsetOperand_of_lt ho] at h; cases h; exact .observed _ hm rfl
      · rw [offsetOperand_of_ge (Nat.le_of_not_lt ho)] at h; cases h
        exact .contract hm (.inr (.inl ⟨_, _, rfl, .inr (Nat.le_of_not_lt ho)⟩))
    · rw [pageOperand_of_ge (Nat.le_of_not_lt hp)] at h; cases h
      exact .contract hm (.inr (.inl ⟨_, _, rfl, .inl (Nat.le_of_not_lt hp)⟩))
  | decodePhysical a =>
    unfold exec execDecodePhysical at h
    obtain ⟨hm, h⟩ := whenAccepting_next h
    cases h; exact .observed _ (hm.symm.imp_right fun hm => ⟨hm, rfl⟩) rfl
  | encodePhysical frame offset =>
    unfold exec execEncodePhysical at h
    obtain ⟨hm, h⟩ := whenAccepting_next h
    replace hm := hm.symm.imp_right fun hm => And.intro hm (rfl : needsPool (.encodePhysical frame offset) = false)
    unfold withOperand at h
    by_cases hp : frame < 16
    · rw [frameOperand_of_lt hp] at h
      by_cases ho : offset < 4096
      · rw [offsetOperand_of_lt ho] at h; cases h; exact .observed _ hm rfl
      · rw [offsetOperand_of_ge (Nat.le_of_not_lt ho)] at h; cases h
        exact .contract hm (.inr (.inr (.inl ⟨_, _, rfl, .inr (Nat.le_of_not_lt ho)⟩)))
    · rw [frameOperand_of_ge (Nat.le_of_not_lt hp)] at h; cases h
      exact .contract hm (.inr (.inr (.inl ⟨_, _, rfl, .inl (Nat.le_of_not_lt hp)⟩)))
  | translate a =>
    unfold exec execTranslate at h
    exact answered_running rfl h fun hm h => by cases h; exact .observed _ (.inl hm) rfl
  | ptGet page =>
    unfold exec execPtGet at h
    exact answered_page rfl rfl h fun _ hm _ h => by cases h; exact .observed _ (.inl hm) rfl
  | ptSet page pte =>
    unfold exec execPtSet at h
    exact answered_page rfl rfl h fun p hm hp hb => by subst hp; cases hb; exact .ptSet p pte hm
  | ptClear page =>
    unfold exec execPtClear at h
    exact answered_page rfl rfl h fun p hm hp hb => by subst hp; cases hb; exact .ptClear p hm
  | isUnmapped page =>
    unfold exec execIsUnmapped at h
    exact answered_page rfl rfl h fun _ hm _ h => by cases h; exact .observed _ (.inl hm) rfl
  | isPresent page =>
    unfold exec execIsPresent at h
    exact answered_page rfl rfl h fun _ hm _ h => by cases h; exact .observed _ (.inl hm) rfl
  | isDirty page =>
    unfold exec execIsDirty at h
    exact answered_page rfl rfl h fun _ hm _ h => by cases h; exact .observed _ (.inl hm) rfl
  | isReferenced page =>
    unfold exec execIsReferenced at h
    exact answered_page rfl rfl h fun _ hm _ h => by cases h; exact .observed _ (.inl hm) rfl
  | markDirty page =>
    unfold exec execMarkDirty at h
    exact answered_page rfl rfl h fun p hm hp hb => by subst hp; cases hb; exact .markDirty p hm
  | markClean page =>
    unfold exec execMarkClean at h
    exact answered_page rfl rfl h fun p hm hp hb => by subst hp; cases hb; exact .markClean p hm
  | markReferenced page =>
    unfold exec execMarkReferenced at h
    exact answered_page rfl rfl h fun p hm hp hb => by subst hp; cases hb; exact .markReferenced p hm
  | markUnreferenced page =>
    unfold exec execMarkUnreferenced at h
    exact answered_page rfl rfl h fun p hm hp hb => by subst hp; cases hb; exact .markUnreferenced p hm
  | findFreeFrame =>
    unfold exec execFindFreeFrame at h
    exact answered_running rfl h fun hm h => by cases h; exact .observed _ (.inl hm) rfl
  | resolve page =>
    unfold exec execResolve at h
    refine answered_page rfl rfl h fun p hm hp hb => ?_
    subst hp
    rcases deliver_next hb with ⟨_, u, hr, rfl⟩ | ⟨_, u, hr, rfl⟩
    · exact .resolved p hm hr
    · exact .resolveStopped p hm hr
  | ptePage page =>
    unfold exec execPtePage at h
    refine answered_page rfl rfl h fun p hm hp hb => ?_
    subst hp
    rcases deliver_next hb with ⟨_, u, hr, rfl⟩ | ⟨_, u, hr, rfl⟩
    · exact .handled p hm hr
    · exact .handleStopped p hm hr
  | evict page =>
    unfold exec execEvict at h
    refine answered_page rfl rfl h fun p hm hp hb => ?_
    subst hp
    rcases deliver_next hb with ⟨_, u, hr, rfl⟩ | ⟨_, u, hr, rfl⟩
    · exact .evicted p hm hr
    · exact .evictStopped p hm hr
  | load page =>
    unfold exec execLoad at h
    refine answered_page rfl rfl h fun p hm hp hb => ?_
    subst hp
    by_cases ha : loadAllowed p s = true
    · replace hb : (if loadAllowed p s then deliver (fun _ _ => 0) (load p s)
        else .next (deliverFailure .contractViolation 0 s)) = .next t := hb
      rw [if_pos ha] at hb
      rcases deliver_next hb with ⟨_, u, hr, rfl⟩ | ⟨_, u, hr, rfl⟩
      · exact .loaded p hm ha hr
      · exact .loadStopped p hm ha hr
    · replace hb : (if loadAllowed p s then deliver (fun _ _ => 0) (load p s)
        else .next (deliverFailure .contractViolation 0 s)) = .next t := hb
      rw [if_neg ha] at hb
      cases hb
      refine .contract (.inl hm) (.inr (.inr (.inr ⟨p, rfl, ?_⟩)))
      unfold loadAllowed at ha
      cases hmp : (s.pte p).mapped
      · exact .inl rfl
      · simp [hmp] at ha
        exact .inr ⟨ha.1, ha.2⟩
  | chooseVictim =>
    unfold exec execChooseVictim at h
    refine answered_running rfl h fun hm h => ?_
    cases hv : chooseVictim s with
    | none => rw [hv] at h; cases h; exact .noVictim hm hv
    | some v => rw [hv] at h; cases h; exact .observed _ (.inl hm) rfl

end Sys2Proof.Machine
end

