-- ==== Sys2Proof/Laws/PerInstr.lean ====
section
/-!
SUPPORT. The per-instruction family `EncodedSelected`: the word the encoder writes for a command is selected by the
row of the opcode table (spec/30_encoding.md R91, R100) that carries the command's mnemonic.
-/

namespace Sys2Proof.Laws

/-- A word made of three fields is selected by a row whose mask cuts nothing out of them. -/
theorem selects_commandWord (m : String) (op : BitVec 8) (mask : CommandWord) (a ma : BitVec 24) (d md : BitVec 32)
    (hm : mask = 0xFF#8 ++ ma ++ md) (ha : a &&& ma = 0) (hd : d &&& md = 0) :
    (OpcodeRow.mk m op mask).selects (commandWord op a d) = true := by
  subst hm
  have ho : op &&& 0xFF#8 = op := BitVec.and_allOnes
  unfold OpcodeRow.selects OpcodeRow.pattern commandWord
  rw [beq_iff_eq, BitVec.and_append, BitVec.and_append, ho, ha, hd, BitVec.append_assoc]
  rfl

/-- A byte in the lowest position leaves the bits above it zero (R91, VB1). -/
theorem packBytes_one (v : Byte) : packBytes v 0 0 0 &&& 0xFFFFFF00#32 = 0 := by
  have : ∀ v : BitVec 8, packBytes v 0 0 0 &&& 0xFFFFFF00#32 = 0 := by decide
  exact this v

/-- Two bytes in the lowest positions leave the bits above them zero (R91, VB2). -/
theorem packBytes_two (v w : Byte) : packBytes v w 0 0 &&& 0xFFFF0000#32 = 0 := by
  have e : (0xFFFF0000#32) = 0xFF#8 ++ 0xFF#8 ++ 0#8 ++ 0#8 := by decide
  unfold packBytes
  rw [e, BitVec.and_append, BitVec.and_append, BitVec.and_append, BitVec.and_zero, BitVec.and_zero]
  rfl

/-- A 16-bit image leaves the bits above it zero (R91, PE). -/
theorem pteImage_upper (e : PteImage) : e.zeroExtend 32 &&& 0xFFFF0000#32 = 0 := by
  have h : e.zeroExtend 32 = 0#16 ++ e := BitVec.setWidth_eq_append (w := 32) (by decide)
  rw [h, show (0xFFFF0000#32) = 0xFFFF#16 ++ 0#16 by decide, BitVec.and_append, BitVec.and_zero]
  rfl

namespace EncodedSelected

/-- The command's word is selected by its own row of the opcode table. -/
def Statement (i : Instr) : Prop := ∃ r ∈ opcodeTable, r.mnemonic = i.mnemonic ∧ r.selects (encode i) = true

/-- The row at a position of the table. -/
theorem of_row {i : Instr} (k : Fin 32) (h1 : (opcodeTable[k.val]'k.isLt).mnemonic = i.mnemonic)
    (h2 : (opcodeTable[k.val]'k.isLt).selects (encode i) = true) : Statement i :=
  ⟨_, List.getElem_mem k.isLt, h1, h2⟩

theorem read (a : AField) : Statement (.read a) :=
  of_row 0 rfl (selects_commandWord _ _ _ _ 0 _ 0xFFFFFFFF (by decide) BitVec.and_zero BitVec.zero_and)

theorem readn (a : AField) (n : Nat) : Statement (.readn a n) :=
  of_row 1 rfl (selects_commandWord _ _ _ _ 0 _ 0 (by decide) BitVec.and_zero BitVec.and_zero)

theorem write (a : AField) (v1 : Byte) : Statement (.write a v1) :=
  of_row 2 rfl (selects_commandWord _ _ _ _ 0 _ 0xFFFFFF00 (by decide) BitVec.and_zero (packBytes_one _))

theorem writew (a : AField) (v1 : Byte) (v2 : Byte) : Statement (.writew a v1 v2) :=
  of_row 3 rfl (selects_commandWord _ _ _ _ 0 _ 0xFFFF0000 (by decide) BitVec.and_zero (packBytes_two _ _))

theorem writedw (a : AField) (v1 : Byte) (v2 : Byte) (v3 : Byte) (v4 : Byte) : Statement (.writedw a v1 v2 v3 v4) :=
  of_row 4 rfl (selects_commandWord _ _ _ _ 0 _ 0 (by decide) BitVec.and_zero BitVec.and_zero)

theorem writez (a : AField) (n : Nat) : Statement (.writez a n) :=
  of_row 5 rfl (selects_commandWord _ _ _ _ 0 _ 0 (by decide) BitVec.and_zero BitVec.and_zero)

theorem memInit : Statement (.memInit) :=
  of_row 6 rfl (selects_commandWord _ _ _ _ 0xFFFFFF _ 0xFFFFFFFF (by decide) rfl rfl)

theorem memDestroy : Statement (.memDestroy) :=
  of_row 7 rfl (selects_commandWord _ _ _ _ 0xFFFFFF _ 0xFFFFFFFF (by decide) rfl rfl)

theorem halt : Statement (.halt) :=
  of_row 8 rfl (selects_commandWord _ _ _ _ 0xFFFFFF _ 0xFFFFFFFF (by decide) rfl rfl)

theorem tick : Statement (.tick) :=
  of_row 9 rfl (selects_commandWord _ _ _ _ 0xFFFFFF _ 0xFFFFFFFF (by decide) rfl rfl)

theorem decodeVirtual (a : AField) : Statement (.decodeVirtual a) :=
  of_row 10 rfl (selects_commandWord _ _ _ _ 0 _ 0xFFFFFFFF (by decide) BitVec.and_zero BitVec.zero_and)

theorem encodeVirtual (page : Nat) (offset : Nat) : Statement (.encodeVirtual page offset) :=
  of_row 11 rfl (selects_commandWord _ _ _ _ 0 _ 0 (by decide) BitVec.and_zero BitVec.and_zero)

theorem decodePhysical (a : AField) : Statement (.decodePhysical a) :=
  of_row 12 rfl (selects_commandWord _ _ _ _ 0 _ 0xFFFFFFFF (by decide) BitVec.and_zero BitVec.zero_and)

theorem encodePhysical (frame : Nat) (offset : Nat) : Statement (.encodePhysical frame offset) :=
  of_row 13 rfl (selects_commandWord _ _ _ _ 0 _ 0 (by decide) BitVec.and_zero BitVec.and_zero)

theorem translate (a : AField) : Statement (.translate a) :=
  of_row 14 rfl (selects_commandWord _ _ _ _ 0 _ 0xFFFFFFFF (by decide) BitVec.and_zero BitVec.zero_and)

theorem ptGet (page : Nat) : Statement (.ptGet page) :=
  of_row 15 rfl (selects_commandWord _ _ _ _ 0 _ 0xFFFFFFFF (by decide) BitVec.and_zero BitVec.zero_and)

theorem ptSet (page : Nat) (pte : PteImage) : Statement (.ptSet page pte) :=
  of_row 16 rfl (selects_commandWord _ _ _ _ 0 _ 0xFFFF0000 (by decide) BitVec.and_zero (pteImage_upper _))

theorem ptClear (page : Nat) : Statement (.ptClear page) :=
  of_row 17 rfl (selects_commandWord _ _ _ _ 0 _ 0xFFFFFFFF (by decide) BitVec.and_zero BitVec.zero_and)

theorem isUnmapped (page : Nat) : Statement (.isUnmapped page) :=
  of_row 18 rfl (selects_commandWord _ _ _ _ 0 _ 0xFFFFFFFF (by decide) BitVec.and_zero BitVec.zero_and)

theorem isPresent (page : Nat) : Statement (.isPresent page) :=
  of_row 19 rfl (selects_commandWord _ _ _ _ 0 _ 0xFFFFFFFF (by decide) BitVec.and_zero BitVec.zero_and)

theorem isDirty (page : Nat) : Statement (.isDirty page) :=
  of_row 20 rfl (selects_commandWord _ _ _ _ 0 _ 0xFFFFFFFF (by decide) BitVec.and_zero BitVec.zero_and)

theorem isReferenced (page : Nat) : Statement (.isReferenced page) :=
  of_row 21 rfl (selects_commandWord _ _ _ _ 0 _ 0xFFFFFFFF (by decide) BitVec.and_zero BitVec.zero_and)

theorem markDirty (page : Nat) : Statement (.markDirty page) :=
  of_row 22 rfl (selects_commandWord _ _ _ _ 0 _ 0xFFFFFFFF (by decide) BitVec.and_zero BitVec.zero_and)

theorem markClean (page : Nat) : Statement (.markClean page) :=
  of_row 23 rfl (selects_commandWord _ _ _ _ 0 _ 0xFFFFFFFF (by decide) BitVec.and_zero BitVec.zero_and)

theorem markReferenced (page : Nat) : Statement (.markReferenced page) :=
  of_row 24 rfl (selects_commandWord _ _ _ _ 0 _ 0xFFFFFFFF (by decide) BitVec.and_zero BitVec.zero_and)

theorem markUnreferenced (page : Nat) : Statement (.markUnreferenced page) :=
  of_row 25 rfl (selects_commandWord _ _ _ _ 0 _ 0xFFFFFFFF (by decide) BitVec.and_zero BitVec.zero_and)

theorem findFreeFrame : Statement (.findFreeFrame) :=
  of_row 26 rfl (selects_commandWord _ _ _ _ 0xFFFFFF _ 0xFFFFFFFF (by decide) rfl rfl)

theorem resolve (page : Nat) : Statement (.resolve page) :=
  of_row 27 rfl (selects_commandWord _ _ _ _ 0 _ 0xFFFFFFFF (by decide) BitVec.and_zero BitVec.zero_and)

theorem ptePage (page : Nat) : Statement (.ptePage page) :=
  of_row 28 rfl (selects_commandWord _ _ _ _ 0 _ 0xFFFFFFFF (by decide) BitVec.and_zero BitVec.zero_and)

theorem evict (page : Nat) : Statement (.evict page) :=
  of_row 29 rfl (selects_commandWord _ _ _ _ 0 _ 0xFFFFFFFF (by decide) BitVec.and_zero BitVec.zero_and)

theorem load (page : Nat) : Statement (.load page) :=
  of_row 30 rfl (selects_commandWord _ _ _ _ 0 _ 0xFFFFFFFF (by decide) BitVec.and_zero BitVec.zero_and)

theorem chooseVictim : Statement (.chooseVictim) :=
  of_row 31 rfl (selects_commandWord _ _ _ _ 0xFFFFFF _ 0xFFFFFFFF (by decide) rfl rfl)

end EncodedSelected

end Sys2Proof.Laws
end

