-- ==== Sys2Proof/Laws/Trace.lean ====
section
/-!
SUPPORT. The store operations an operation attempts (spec/20_memory.md R79, spec/42_frame_table_pm_bs.md R164): each
consumes the next answer, a failed one ends the operation, and the store changes only by a successful write.
-/

namespace Sys2Proof.Machine

theorem take_add (x : IoAnswers) (m n : Nat) : x.take (m + n) = x.take m ++ (x.drop m).take n := by
  induction m generalizing x with
  | zero => simp [IoAnswers.take, IoAnswers.drop]
  | succ m ih =>
    rw [Nat.succ_add]
    show x.next.1 :: x.next.2.take (m + n) = x.next.1 :: (x.next.2.take m ++ _)
    rw [ih]; rfl

theorem drop_add (x : IoAnswers) (m n : Nat) : x.drop (m + n) = (x.drop m).drop n := by
  induction m generalizing x with
  | zero => simp [IoAnswers.drop]
  | succ m ih =>
    rw [Nat.succ_add]
    exact ih x.next.2

theorem length_take (x : IoAnswers) (n : Nat) : (x.take n).length = n := by
  induction n generalizing x with
  | zero => rfl
  | succ n ih => show (x.next.1 :: x.next.2.take n).length = _; rw [List.length_cons, ih]

/-- From `s` to `t` exactly the store operations `new` were attempted. -/
structure Traced (s t : State) (new : List StoreOp) : Prop where
  ops : t.ops = s.ops ++ new
  io : t.io = s.io.drop new.length
  answers : new.map (·.answer) = s.io.take new.length
  outside : SameOutside s t
  canonical : s.MemoriesCanonical → t.MemoriesCanonical
  store : s.MemoriesCanonical → ∀ p o, t.storeByte p o ≠ s.storeByte p o → (⟨.write, p, .ok⟩ : StoreOp) ∈ new

theorem Traced.refl (s : State) : Traced s s [] :=
  ⟨by simp, rfl, rfl, .refl s, id, fun _ _ _ h => absurd rfl h⟩

theorem Traced.trans {s t u : State} {m n : List StoreOp} (h : Traced s t m) (h' : Traced t u n) :
    Traced s u (m ++ n) where
  ops := by rw [h'.ops, h.ops, List.append_assoc]
  io := by rw [h'.io, h.io, List.length_append, drop_add]
  answers := by rw [List.map_append, h.answers, h'.answers, h.io, List.length_append, take_add]
  outside := h.outside.trans h'.outside
  canonical hs := h'.canonical (h.canonical hs)
  store hs p o hne := by
    by_cases hc : u.storeByte p o = t.storeByte p o
    · exact List.mem_append_left _ (h.store hs p o (hc ▸ hne))
    · exact List.mem_append_right _ (h'.store (h.canonical hs) p o hc)

/-- A change of the tables and of physical memory alone attempts nothing. -/
theorem Traced.of_eq {s t : State} (ho : t.ops = s.ops) (hi : t.io = s.io) (hb : t.bs = s.bs) (h : SameOutside s t)
    (hc : s.MemoriesCanonical → t.MemoriesCanonical) : Traced s t [] :=
  ⟨by simp [ho], by rw [hi]; rfl, rfl, h, hc, fun _ p o hne => absurd (by rw [storeByte_eq, storeByte_eq, hb]) hne⟩

theorem traced_attempt (s : State) (kind : StoreOpKind) (p : PageNumber) :
    Traced s (s.attempt kind p) [⟨kind, p, s.io.next.1⟩] :=
  ⟨rfl, rfl, rfl, ⟨rfl, rfl, rfl, rfl⟩, fun h => MemoriesCanonical_of_eq h rfl rfl, fun _ _ _ h => absurd rfl h⟩

theorem traced_setPte (s : State) (p : PageNumber) (e : Pte) : Traced s (s.setPte p e) [] :=
  .of_eq rfl rfl rfl ⟨rfl, rfl, rfl, rfl⟩ fun h => MemoriesCanonical_of_eq h rfl rfl

theorem traced_dropPage (s : State) (p : PageNumber) : Traced s (dropPage p s) [] :=
  .of_eq rfl rfl rfl ⟨rfl, rfl, rfl, rfl⟩ fun h => canonical_dropPage h p

theorem traced_memWrite (s : State) (pa : PhysicalAddress) (v : Byte) : Traced s (memWrite pa v s) [] :=
  .of_eq rfl rfl rfl ⟨rfl, rfl, rfl, rfl⟩ fun h => canonical_memWrite h pa v

theorem traced_loadedFrom {s : State} (hi : s.io.next.1 = .ok) (p : PageNumber) :
    Traced s (loadedFrom p s) [⟨.read, p, .ok⟩] := by
  have h := traced_attempt s .read p
  rw [hi] at h
  exact ⟨h.ops, h.io, h.answers, ⟨rfl, rfl, rfl, rfl⟩, fun hs => canonical_loadedFrom hs p, fun _ _ _ h => absurd rfl h⟩

theorem traced_writtenBack {s : State} (hi : s.io.next.1 = .ok) (p : PageNumber) :
    Traced s (writtenBack p s) [⟨.write, p, .ok⟩] := by
  have h := traced_attempt s .write p
  rw [hi] at h
  refine ⟨h.ops, h.io, h.answers, ⟨rfl, rfl, rfl, rfl⟩, fun hs => canonical_writtenBack hs p, fun hs q o hne => ?_⟩
  rw [storeByte_writtenBack hs.pm_wf hs.bs_wf] at hne
  by_cases hq : q = p
  · subst hq; exact List.mem_singleton_self _
  · rw [if_neg hq] at hne; exact absurd rfl hne

/-- The operations attempted all succeeded. -/
def TracedOk (s t : State) : Prop := ∃ new, Traced s t new ∧ ∀ op ∈ new, op.answer = .ok

/-- The operations attempted all succeeded but the last, which is page `p`'s and failed. -/
def TracedFail (p : PageNumber) (s t : State) : Prop :=
  ∃ before op, Traced s t (before ++ [op]) ∧ (∀ x ∈ before, x.answer = .ok) ∧ op.answer = .fail ∧ op.page = p

/-- What was attempted when an operation of the fault path raises a failure: it raises no other kind. -/
def TracedRaise (k : Failure) (s t : State) : Prop :=
  match k with
  | .backingStoreUnavailable p => TracedFail p s t
  | .invariantViolation => TracedOk s t
  | .contractViolation => False
  | .illegalCommand => False
  | .notInitialized => False
  | .reinitMisuse => False

theorem TracedOk.refl (s : State) : TracedOk s s := ⟨[], .refl s, by simp⟩

theorem TracedOk.of_nil {s t : State} (h : Traced s t []) : TracedOk s t := ⟨[], h, by simp⟩

theorem TracedOk.trans {s t u : State} (h : TracedOk s t) (h' : TracedOk t u) : TracedOk s u := by
  obtain ⟨m, hm, hmo⟩ := h
  obtain ⟨n, hn, hno⟩ := h'
  exact ⟨m ++ n, hm.trans hn, fun op hop => (List.mem_append.1 hop).elim (hmo op) (hno op)⟩

theorem TracedOk.transRaise {s t u : State} {k : Failure} (h : TracedOk s t) (h' : TracedRaise k t u) :
    TracedRaise k s u := by
  cases k with
  | backingStoreUnavailable p =>
    obtain ⟨m, hm, hmo⟩ := h
    obtain ⟨n, op, hn, hno, hf, hp⟩ := h'
    refine ⟨m ++ n, op, ?_, fun x hx => (List.mem_append.1 hx).elim (hmo x) (hno x), hf, hp⟩
    rw [List.append_assoc]
    exact hm.trans hn
  | invariantViolation => exact TracedOk.trans h h'
  | contractViolation => exact h'
  | illegalCommand => exact h'
  | notInitialized => exact h'
  | reinitMisuse => exact h'

/-- What an operation attempted, by its answer. -/
abbrev Res.Traces {α : Type} (r : Res α) (s : State) : Prop := r.Sat (fun _ t => TracedOk s t) (fun k t => TracedRaise k s t)

theorem traces_bind {α β : Type} {s : State} {r : Res α} {f : α → State → Res β} (h : r.Traces s)
    (hf : ∀ a t, r = .ok a t → (f a t).Traces t) : (r.bind f).Traces s := by
  cases r with
  | raise k t => exact h
  | ok a t =>
    have := hf a t rfl
    show (f a t).Traces s
    cases hr : f a t with
    | ok b u => rw [hr] at this; exact TracedOk.trans h this
    | raise k u => rw [hr] at this; exact TracedOk.transRaise h this

theorem traces_after {α : Type} {s t : State} {r : Res α} (h : Traced s t []) (hr : r.Traces t) : r.Traces s := by
  cases r with
  | ok a u => exact (TracedOk.of_nil h).trans hr
  | raise k u => exact (TracedOk.of_nil h).transRaise hr

theorem traces_evict (p : PageNumber) (s : State) : (evict p s).Traces s := by
  rcases evict_cases p s with ⟨_, he⟩ | ⟨_, _, he⟩ | ⟨_, _, hi, he⟩ | ⟨_, _, hi, he⟩ <;> rw [he]
  · exact .refl s
  · exact .of_nil (traced_dropPage s p)
  · exact ⟨_, (traced_writtenBack hi p).trans (traced_dropPage _ p), by simp⟩
  · exact ⟨[], _, traced_attempt s .write p, by simp, hi, rfl⟩

theorem traces_load (p : PageNumber) (s : State) : (load p s).Traces s := by
  rcases load_cases p s with ⟨hi, he⟩ | ⟨hi, he⟩ <;> rw [he]
  · exact ⟨_, traced_loadedFrom hi p, by simp⟩
  · exact ⟨[], _, traced_attempt s .read p, by simp, hi, rfl⟩

theorem traces_replace (p : PageNumber) (s : State) : (replace p s).Traces s := by
  unfold replace
  cases chooseVictim s with
  | none => exact TracedOk.refl s
  | some v => exact traces_bind (traces_evict v s) fun _ t _ => traces_after (traced_setPte t _ _) (traces_load p _)

theorem traces_makeResident (p : PageNumber) (s : State) : (makeResident p s).Traces s := by
  rcases makeResident_cases p s with ⟨_, _, he⟩ | ⟨_, _, _, he⟩ | ⟨_, _, _, he⟩ | ⟨f, _, _, he⟩ | ⟨_, _, he⟩ <;> rw [he]
  · exact .refl s
  · exact traces_load p s
  · exact traces_replace p s
  · exact traces_after (traced_setPte s _ _) (traces_load p _)
  · exact traces_replace p s

theorem traces_resolve (p : PageNumber) (s : State) : (resolve p s).Traces s :=
  traces_bind (traces_makeResident p s) fun _ t _ => .of_nil (traced_setPte t _ _)

theorem traces_ptePage (p : PageNumber) (s : State) : (ptePage p s).Traces s := by
  unfold ptePage
  split
  · exact .refl s
  · exact traces_resolve p s

theorem traces_readByte (va : VirtualAddress) (s : State) : (readByte va s).Traces s :=
  traces_bind (traces_ptePage _ s) fun _ t _ => .of_nil (traced_setPte t _ _)

theorem traces_writeByte (va : VirtualAddress) (v : Byte) (s : State) : (writeByte va v s).Traces s :=
  traces_bind (traces_ptePage _ s) fun _ t _ => .of_nil ((traced_memWrite t _ _).trans (traced_setPte _ _ _))

theorem traces_evictEach (l : List PageNumber) (s : State) : (evictEach l s).Traces s := by
  induction l generalizing s with
  | nil => exact TracedOk.refl s
  | cons p l ih => exact traces_bind (traces_evict p s) fun _ t _ => ih t

/-- A reading loop: it gives one byte for each it was asked for, or stops before the last. -/
theorem traces_readLoop (n : Nat) (va : VirtualAddress) (m : Nat) (acc : List Byte) (s : State) :
    (readLoop n va m acc s).Sat (fun data t => TracedOk s t ∧ data.length = acc.length + n)
      (fun j k t => TracedRaise k s t ∧ m ≤ j ∧ j < m + n) := by
  induction n generalizing va m acc s with
  | zero => exact ⟨.refl s, by simp⟩
  | succ n ih =>
    have hb := traces_readByte va s
    unfold readLoop
    cases hr : readByte va s with
    | raise k t => rw [hr] at hb; exact ⟨hb, Nat.le_refl _, by omega⟩
    | ok b t =>
      rw [hr] at hb
      have := ih (nextAddress va) (m + 1) (b :: acc) t
      simp only
      cases hl : readLoop n (nextAddress va) (m + 1) (b :: acc) t with
      | done data u => rw [hl] at this; exact ⟨TracedOk.trans hb this.1, by rw [this.2, List.length_cons]; omega⟩
      | stopped j k u =>
        rw [hl] at this
        exact ⟨TracedOk.transRaise hb this.1, Nat.le_of_succ_le this.2.1, by have := this.2.2; omega⟩

/-- A writing loop: it writes every byte, or stops before the last. -/
theorem traces_writeLoop (vs : List Byte) (va : VirtualAddress) (m : Nat) (s : State) :
    (writeLoop vs va m s).Sat (fun data t => TracedOk s t ∧ data = [])
      (fun j k t => TracedRaise k s t ∧ m ≤ j ∧ j < m + vs.length) := by
  induction vs generalizing va m s with
  | nil => exact ⟨.refl s, rfl⟩
  | cons v vs ih =>
    have hb := traces_writeByte va v s
    unfold writeLoop
    cases hr : writeByte va v s with
    | raise k t => rw [hr] at hb; exact ⟨hb, Nat.le_refl _, by simp⟩
    | ok b t =>
      rw [hr] at hb
      have := ih (nextAddress va) (m + 1) t
      simp only
      cases hl : writeLoop vs (nextAddress va) (m + 1) t with
      | done data u => rw [hl] at this; exact ⟨TracedOk.trans hb this.1, this.2⟩
      | stopped j k u =>
        rw [hl] at this
        exact ⟨TracedOk.transRaise hb this.1, Nat.le_of_succ_le this.2.1, by
          have := this.2.2; rw [List.length_cons]; omega⟩

end Sys2Proof.Machine
end

