-- ==== Sys2Proof/Tests/Slice0.lean ====
section
/-!
SUPPORT. Tests on fixed values: the well-formedness checks, one word for every command written out from
spec/30_encoding.md, single steps, and a state that meets the hypotheses of each statement.
-/

namespace Sys2Proof.Tests

open Sys2Proof Sys2Proof.Machine

-- One thread for this file: kernel evaluations that wait for one another would each hold a thread and its stack.
set_option Elab.async false

/-! ### Well-formedness: one ill-formed term for each check -/

theorem test_wf_readn : (Instr.readn 0xFFFFFF (2 ^ 32 - 1)).wellFormed = true ∧ (Instr.readn 0 (2 ^ 32)).wellFormed = false := by decide +kernel
theorem test_wf_writez : (Instr.writez 0xFFFFFF (2 ^ 32 - 1)).wellFormed = true ∧ (Instr.writez 0 (2 ^ 32)).wellFormed = false := by decide +kernel
theorem test_wf_encodeVirtual : (Instr.encodeVirtual (2 ^ 24) 0).wellFormed = false ∧ (Instr.encodeVirtual 0 (2 ^ 32)).wellFormed = false := by decide +kernel
theorem test_wf_encodePhysical : (Instr.encodePhysical (2 ^ 24) 0).wellFormed = false ∧ (Instr.encodePhysical 0 (2 ^ 32)).wellFormed = false := by decide +kernel
/-- A page operand of 256 can be written (the block refuses it, R94); one of 2^24 cannot. -/
theorem test_wf_page :
    [Instr.ptGet 256, .ptSet 256 0, .ptClear 256, .isUnmapped 256, .isPresent 256, .isDirty 256, .isReferenced 256,
      .markDirty 256, .markClean 256, .markReferenced 256, .markUnreferenced 256, .resolve 256, .ptePage 256,
      .evict 256, .load 256].all Instr.wellFormed = true ∧
    [Instr.ptGet (2 ^ 24), .ptSet (2 ^ 24) 0, .ptClear (2 ^ 24), .isUnmapped (2 ^ 24), .isPresent (2 ^ 24),
      .isDirty (2 ^ 24), .isReferenced (2 ^ 24), .markDirty (2 ^ 24), .markClean (2 ^ 24), .markReferenced (2 ^ 24),
      .markUnreferenced (2 ^ 24), .resolve (2 ^ 24), .ptePage (2 ^ 24), .evict (2 ^ 24),
      .load (2 ^ 24)].any Instr.wellFormed = false := by decide +kernel

/-! ### One word for each command: opcode of R100, field `A`, field `D` as R90 to R99 place them -/

theorem test_decode_read : decode 0x0100500000000000 = .ok (.read 0x005000) := by decide +kernel
theorem test_decode_readn : decode 0x02000FFF00000002 = .ok (.readn 0x000FFF 2) := by decide +kernel
theorem test_decode_write : decode 0x03005000000000AB = .ok (.write 0x005000 0xAB) := by decide +kernel
theorem test_decode_writew : decode 0x04000FFF00002211 = .ok (.writew 0x000FFF 0x11 0x22) := by decide +kernel
theorem test_decode_writedw : decode 0x05000FFE44332211 = .ok (.writedw 0x000FFE 0x11 0x22 0x33 0x44) := by decide +kernel
theorem test_decode_writez : decode 0x0600500000000003 = .ok (.writez 0x005000 3) := by decide +kernel
theorem test_decode_lifecycle :
    [decode 0x1000000000000000, decode 0x1100000000000000, decode 0x1200000000000000, decode 0x1300000000000000] =
      [.ok .memInit, .ok .memDestroy, .ok .halt, .ok .tick] := by decide +kernel
theorem test_decode_codec :
    [decode 0x2002A7FF00000000, decode 0x2100000500000123, decode 0x22008ABC00000000, decode 0x2300000800000123,
      decode 0x2402A12300000000] =
      [.ok (.decodeVirtual 0x02A7FF), .ok (.encodeVirtual 5 0x123), .ok (.decodePhysical 0x008ABC),
        .ok (.encodePhysical 8 0x123), .ok (.translate 0x02A123)] := by decide +kernel
theorem test_decode_pageTable :
    [decode 0x3000000500000000, decode 0x3100002A00000008, decode 0x3200002A00000000, decode 0x3300000700000000,
      decode 0x3400000700000000, decode 0x3500000700000000, decode 0x3600000700000000] =
      [.ok (.ptGet 5), .ok (.ptSet 42 0x0008), .ok (.ptClear 42), .ok (.isUnmapped 7), .ok (.isPresent 7),
        .ok (.isDirty 7), .ok (.isReferenced 7)] := by decide +kernel
theorem test_decode_marks :
    [decode 0x3700000500000000, decode 0x3800000500000000, decode 0x3900000500000000, decode 0x3A00000500000000] =
      [.ok (.markDirty 5), .ok (.markClean 5), .ok (.markReferenced 5), .ok (.markUnreferenced 5)] := by decide +kernel
theorem test_decode_faultPath :
    [decode 0x4000000000000000, decode 0x5000000900000000, decode 0x5100000900000000, decode 0x5200000500000000,
      decode 0x5300000500000000, decode 0x5400000000000000] =
      [.ok .findFreeFrame, .ok (.resolve 9), .ok (.ptePage 9), .ok (.evict 5), .ok (.load 5), .ok .chooseVictim] := by
  decide +kernel
/-- A gap of each range of R236, and a must-be-zero bit of each checked format (R91). -/
theorem test_decode_rejects :
    [decode 0x0000000000000000, decode 0x0700000000000000, decode 0x1400000000000000, decode 0x2500000000000000,
      decode 0x3B00000000000000, decode 0x4100000000000000, decode 0xFF00000000000000] =
      [.error (.unassignedOpcode 0x00), .error (.unassignedOpcode 0x07), .error (.unassignedOpcode 0x14),
        .error (.unassignedOpcode 0x25), .error (.unassignedOpcode 0x3B), .error (.unassignedOpcode 0x41),
        .error (.unassignedOpcode 0xFF)] ∧
    [decode 0x1000000100000000, decode 0x0100500000000001, decode 0x03005000000001AB, decode 0x0400500000010000,
      decode 0x3000000580000000, decode 0x3100000500010000] =
      [.error (.mustBeZero 0x10), .error (.mustBeZero 0x01), .error (.mustBeZero 0x03), .error (.mustBeZero 0x04),
        .error (.mustBeZero 0x30), .error (.mustBeZero 0x31)] := by decide +kernel

/-! ### The states of the tests -/

/-- After MEM_INIT. -/
def pool : State := createPool State.reset

/-- Page 5 resident in frame 2, age 0x40; when dirty, its byte at offset 0x123 is 0xAB. -/
def page5 (dirty : Bool) : State :=
  memWrite (encodePhysical 2 0x123) (if dirty then 0xAB else 0) (markOccupied 2 5 (pool.setPte 5 ⟨2, true, true, dirty, false, 0x40⟩))

/-- Page 5 mapped to frame 2, which is free, and not resident. -/
def idle5 : State := pool.setPte 5 ⟨2, false, true, false, false, 0x40⟩

/-- The entry of a page of `full`. -/
def fullEntry (p : PageNumber) : Pte :=
  if p < 16 then ⟨p.extractLsb' 0 4, true, true, p == 3, false, if p == 3 then 0x10 else 0x80⟩ else Pte.zero

/-- Page `f` resident in frame `f` for each of the sixteen frames, clean, age 0x80; page 3 older and dirty. -/
def full : State :=
  { pool with
    pt := allFrames.foldl
      (fun t f => t.set f.toNat (fullEntry (f.zeroExtend 8)) (Nat.lt_trans f.isLt (by decide))) pool.pt
    ft := allFrames.foldl (fun t f => t.set f.toNat (Fte.taken (f.zeroExtend 8)) f.isLt) pool.ft }

/-- `full` with page 255 mapped to frame 3, which is page 3's. -/
def fullMapped : State := full.setPte 255 ⟨3, false, true, false, false, 0⟩

/-- The state with these answers for its next store operations. -/
def withIo (listed : List IoAnswer) (s : State) : State := { s with io := ⟨listed, .ok⟩ }

/-- The state with one command offered. -/
def offering (w : CommandWord) (s : State) : State := { s with input := [.command w ⟨[], .ok⟩] }

/-- The state in `ABORTED`. -/
def aborted : State := { pool with mode := .aborted }

/-- The outcome is a next state whose response is `r`. -/
def respondsWith (r : Response) : Host.Outcome State Fault Refusal → Bool
  | .next t => t.resp == some r
  | _ => false

theorem exists_of_respondsWith {r : Response} {x : Host.Outcome State Fault Refusal} (h : respondsWith r x = true) :
    ∃ t, x = .next t ∧ t.resp = some r := by
  cases x with
  | next t => exact ⟨t, rfl, by simpa [respondsWith] using h⟩
  | fault _ => cases h
  | refused _ => cases h

theorem hasStatus_of_respondsWith {r : Response} {x : Host.Outcome State Fault Refusal} (h : respondsWith r x = true) :
    ∃ t, x = .next t ∧ t.hasStatus r.status :=
  let ⟨t, h1, h2⟩ := exists_of_respondsWith h
  ⟨t, h1, r, h2, rfl⟩

/-! ### Single steps: the expected words are the examples of spec/40_address_codec.md to 60_exceptions.md -/

/-- The response word of a step. -/
def stepWord (s : State) : Option (BitVec 64) :=
  match step s with
  | .next t => t.resp.map Response.word
  | _ => none

theorem test_memInit : stepWord (offering 0x1000000000000000 State.reset) = some 0 := by decide +kernel
/-- MEM_INIT in `RUN`: status 0xF0 (R234). -/
theorem test_reinit : stepWord (offering 0x1000000000000000 pool) = some 0xF000000000000000 := by decide +kernel
/-- A READ in `OFF`: status 0x04 (R237). -/
theorem test_read_off : stepWord (offering 0x0100500000000000 State.reset) = some 0x0400000000000000 := by decide +kernel
theorem test_illegal : stepWord (offering 0x0700000000000000 pool) = some 0x0300000000000000 := by decide +kernel
/-- Page 256: status 0x01 (R94, R232). -/
theorem test_page256 : stepWord (offering 0x3000010000000000 pool) = some 0x0100000000000000 := by decide +kernel
/-- The dirty byte of page 5 is read back, zero-extended (R204). -/
theorem test_read : stepWord (offering 0x0100512300000000 (page5 true)) = some 0xAB := by decide +kernel
/-- Bits 20 to 23 of the address are ignored (R92). -/
theorem test_read_ignored : stepWord (offering 0x01F0512300000000 (page5 true)) = some 0xAB := by decide +kernel
/-- frame 2, present, mapped, dirty, age 0x40: 0x4072 (R31). -/
theorem test_ptGet : stepWord (offering 0x3000000500000000 (page5 true)) = some 0x4072 := by decide +kernel
/-- The entry's frame even when the page is not present (R170). -/
theorem test_translate : stepWord (offering 0x2400512300000000 idle5) = some 0x2123 := by decide +kernel
/-- The lowest free frame is 0: bit 4 set (R152). -/
theorem test_findFreeFrame : stepWord (offering 0x4000000000000000 (page5 true)) = some 0x10 := by decide +kernel
theorem test_findFreeFrame_full : stepWord (offering 0x4000000000000000 full) = some 0 := by decide +kernel
/-- Page 9, unmapped, is loaded into the lowest free frame (R172). -/
theorem test_resolve : stepWord (offering 0x5000000900000000 pool) = some 0 := by decide +kernel
/-- The seventeenth page takes the victim's frame, 3 (R174). -/
theorem test_resolve_full : stepWord (offering 0x5000001000000000 full) = some 3 := by decide +kernel
/-- LOAD of an unmapped page is refused (R193). -/
theorem test_load_unmapped : stepWord (offering 0x5300000500000000 pool) = some 0x0100000000000000 := by decide +kernel

/-- What a meaning leaves in one entry's image. -/
def imageAfter (i : Instr) (s : State) (p : PageNumber) : Option PteImage :=
  match exec i s with
  | .next t => some (t.pte p).image
  | _ => none

/-- PT_SET forces `mapped` (R133). -/
theorem test_ptSet : imageAfter (.ptSet 42 0x0008) pool 42 = some 0x0028 := by decide +kernel
theorem test_ptClear : imageAfter (.ptClear 5) (page5 true) 5 = some 0 := by decide +kernel
theorem test_markReferenced : imageAfter (.markReferenced 5) (page5 true) 5 = some 0xC0F2 := by decide +kernel
theorem test_markUnreferenced : imageAfter (.markUnreferenced 5) (page5 true) 5 = some 0x2072 := by decide +kernel
theorem test_tick : imageAfter .tick (page5 true) 5 = some 0x2072 := by decide +kernel
/-- EVICT keeps `frame` and `mapped` (R190). -/
theorem test_evict : imageAfter (.evict 5) (page5 true) 5 = some 0x0022 := by decide +kernel
/-- The bytes of a WRITEDW that crosses from page 0 into page 1, in ascending order (R208). -/
theorem test_writedw_crosses :
    (match exec (.writedw 0x000FFE 0x11 0x22 0x33 0x44) pool with
      | .next t => [t.pm, t.bs]
      | _ => []) = [[(0x0FFE, 0x11), (0x0FFF, 0x22), (0x1000, 0x33), (0x1001, 0x44)], []] := by decide +kernel
/-- HALT writes the dirty byte to its place in the store (R63, R222). -/
theorem test_halt_writes_back :
    (match evictEach allPages (page5 true) with
      | .ok _ t => [t.pm, t.bs]
      | _ => []) = [[], [(0x5123, 0xAB)]] := by decide +kernel

/-! ### The invariants hold in the states of the tests -/

theorem canonical_pool : pool.MemoriesCanonical := ⟨rfl, rfl, rfl, rfl⟩
theorem canonical_full : full.MemoriesCanonical := MemoriesCanonical_of_eq canonical_pool rfl rfl
theorem canonical_page5 (d : Bool) : (page5 d).MemoriesCanonical :=
  canonical_memWrite
    (MemoriesCanonical_of_eq (t := markOccupied 2 5 (pool.setPte 5 ⟨2, true, true, d, false, 0x40⟩)) canonical_pool rfl
      rfl) _ _

theorem pool_pte (q : PageNumber) : pool.pte q = Pte.zero := by simp [pool]
theorem pool_fte (f : FrameNumber) : pool.fte f = Fte.free := by simp [pool]

theorem page5_pte (d : Bool) (q : PageNumber) :
    (page5 d).pte q = if q = 5 then ⟨2, true, true, d, false, 0x40⟩ else Pte.zero := by
  show (pool.setPte 5 ⟨2, true, true, d, false, 0x40⟩).pte q = _
  rw [setPte_pte, pool_pte]

theorem page5_fte (d : Bool) (f : FrameNumber) : (page5 d).fte f = if f = 2 then Fte.taken 5 else Fte.free := by
  show (pool.setFte 2 (Fte.taken 5)).fte f = _
  rw [setFte_fte, pool_fte]

theorem frameByte_nil {s : State} (h : s.pm = []) (f : FrameNumber) (o : Offset) : s.frameByte f o = 0 := by
  rw [frameByte_eq, h, Memory.read_nil]; rfl

theorem storeByte_nil {s : State} (h : s.bs = []) (p : PageNumber) (o : Offset) : s.storeByte p o = 0 := by
  rw [storeByte_eq, h, Memory.read_nil]; rfl

theorem sound_pool : Sound pool where
  canonical := canonical_pool
  wellFormed := wellFormed_createPool _
  coherent :=
    ⟨fun p o _ _ => by rw [frameByte_nil rfl, storeByte_nil rfl], fun f o _ => frameByte_nil rfl f o,
      fun p h => (by rw [pool_pte] at h; cases h), fun p _ => pool_pte p⟩

theorem wellFormed_page5 (d : Bool) : (page5 d).WellFormed := by
  rw [wellFormed_iff]
  refine ⟨fun p h => ?_, fun p h => ?_, fun f h => ?_, fun f h => ?_⟩
  · rw [page5_pte] at h ⊢; split <;> simp_all
  · rw [page5_pte] at h ⊢; split at h
    · rw [if_pos ‹_›, page5_fte, if_pos rfl, ‹p = 5›]
    · cases h
  · rw [page5_fte] at h ⊢
    split at h
    · subst f; rw [if_pos rfl]; exact ⟨by rw [page5_pte]; rfl, by rw [page5_pte]; rfl⟩
    · cases h
  · rw [page5_fte] at h ⊢; split <;> simp_all

theorem sound_page5 (d : Bool) : Sound (page5 d) where
  canonical := canonical_page5 d
  wellFormed := wellFormed_page5 d
  coherent := by
    have hb : ∀ f o, f ≠ 2 → (page5 d).frameByte f o = 0 := fun f o hf =>
      (frameByte_memWrite (s := markOccupied 2 5 (pool.setPte 5 ⟨2, true, true, d, false, 0x40⟩)) rfl 2 f 0x123 o
        (if d then 0xAB else 0)).trans (by rw [if_neg fun h => hf h.1, frameByte_nil rfl])
    refine ⟨fun p o h h' => ?_, fun f o h => ?_, fun p h => ?_, fun p h => ?_⟩
    · rw [page5_pte] at h h' ⊢
      split at h
      · rename_i hp
        rw [if_pos hp] at h' ⊢
        have hd : d = false := h'
        subst hd
        rw [storeByte_nil rfl]
        exact frameByte_nil rfl _ o
      · cases h
    · refine hb f o fun hf => ?_
      subst hf; rw [page5_fte, if_pos rfl] at h; cases h
    · rw [page5_pte] at h ⊢; split <;> simp_all
    · rw [page5_pte] at h ⊢; split <;> simp_all

theorem full_pte : ∀ p, full.pte p = fullEntry p := by decide +kernel
theorem full_fte : ∀ f, full.fte f = Fte.taken (f.zeroExtend 8) := by decide +kernel

theorem wellFormed_full : full.WellFormed := by
  rw [wellFormed_iff]
  simp only [State.inv1, State.resident, full_pte, full_fte]
  decide +kernel

theorem full_occupied (f : FrameNumber) : (full.fte f).occupied = true := by rw [full_fte]; rfl

theorem isVictim_full : full.isVictim 3 := by
  simp only [State.isVictim, State.isCandidate, full_pte]
  decide +kernel

theorem isVictim_fullMapped : fullMapped.isVictim 3 := by
  simp only [State.isVictim, State.isCandidate, fullMapped, setPte_pte, full_pte]
  decide +kernel

/-! ### A state and operands that meet the hypotheses of each statement -/

/-- The outcome is a next state of which `p` holds. -/
def nextWith (p : State → Bool) : Host.Outcome State Fault Refusal → Bool
  | .next t => p t
  | _ => false

theorem exists_next {p : State → Bool} {x : Host.Outcome State Fault Refusal} (h : nextWith p x = true) :
    ∃ t, x = .next t ∧ p t = true := by
  cases x with
  | next t => exact ⟨t, rfl, h⟩
  | fault _ => cases h
  | refused _ => cases h

theorem exists_run {x : Host.Outcome State Fault Refusal} (h : nextWith (fun t => t.mode == .run) x = true) :
    ∃ t, x = .next t ∧ t.mode = .run :=
  let ⟨t, h1, h2⟩ := exists_next h
  ⟨t, h1, by simpa using h2⟩

/-- One command answers `r`, and the next, in the state it leaves, answers `r'`. -/
def bothAnswer (r r' : Response) (x : Host.Outcome State Fault Refusal)
    (f : State → Host.Outcome State Fault Refusal) : Bool :=
  nextWith (fun u => u.resp == some r && respondsWith r' (f u)) x

theorem exists_both {r r' : Response} {x : Host.Outcome State Fault Refusal}
    {f : State → Host.Outcome State Fault Refusal} (h : bothAnswer r r' x f = true) :
    ∃ u t, x = .next u ∧ u.resp = some r ∧ f u = .next t ∧ t.resp = some r' := by
  obtain ⟨u, h1, h2⟩ := exists_next h
  simp only [Bool.and_eq_true, beq_iff_eq] at h2
  obtain ⟨t, h3, h4⟩ := exists_of_respondsWith h2.2
  exact ⟨u, t, h1, h2.1, h3, h4⟩

theorem lowestFree_pool : pool.lowestFree 0 := ⟨by rw [pool_fte]; rfl, fun g h => absurd h (by simp)⟩

theorem needsReplacement_full (p : PageNumber) (h : 16 ≤ p) : full.needsReplacement p :=
  .inr ⟨by rw [full_pte]; revert p; decide +kernel, full_occupied⟩

theorem witness_DecodeEncodeRoundTrip : (Instr.encodeVirtual 0xFFFFFF 0xFFFFFFFF).wellFormed = true := by decide
theorem witness_EncodeDecodeRoundTrip : decode 0x2FFFFFFFFFFFFFFF = .error (.unassignedOpcode 0x2F) ∧
    decode 0x0FFFFFFFFFFFFFFF = .error (.unassignedOpcode 0x0F) ∧
    decode 0x06FFFFFFFFFFFFFF = .ok (.writez 0xFFFFFF 0xFFFFFFFF) := by decide +kernel
theorem witness_DecodeFollowsOpcodeTable : decode 0x5400000000000000 = .ok .chooseVictim ∧
    (⟨"CHOOSE_VICTIM", 0x54, 0xFFFFFFFFFFFFFFFF⟩ : OpcodeRow) ∈ opcodeTable ∧
    (⟨"CHOOSE_VICTIM", 0x54, 0xFFFFFFFFFFFFFFFF⟩ : OpcodeRow).selects 0x5400000000000000 = true := by decide +kernel
theorem witness_StepRunsDecodedCommand :
    (offering 0x0100512300000000 pool).input = .command 0x0100512300000000 ⟨[], .ok⟩ :: [] ∧
      decode 0x0100512300000000 = .ok (.read 0x005123) := ⟨rfl, by decide⟩
/-- The first and the last unassigned opcode, a must-be-zero bit, in `OFF` and in `RUN`. -/
theorem witness_IllegalWordsRefused :
    (∀ r ∈ opcodeTable, r.selects 0x00FFFFFFFFFFFFFF = false) ∧
    (∀ r ∈ opcodeTable, r.selects 0xFF00000000000000 = false) ∧
    (∀ r ∈ opcodeTable, r.selects 0x0100000000000001 = false) ∧
    (offering 0xFF00000000000000 State.reset).input = .command 0xFF00000000000000 ⟨[], .ok⟩ :: [] ∧
    (offering 0xFF00000000000000 State.reset).mode = .off ∧
    (offering 0xFF00000000000000 pool).input = .command 0xFF00000000000000 ⟨[], .ok⟩ :: [] ∧
    (offering 0xFF00000000000000 pool).mode = .run ∧
    ∃ r ∈ opcodeTable, r.selects 0x0100000000000000 = true :=
  ⟨by decide +kernel, by decide +kernel, by decide +kernel, rfl, rfl, rfl, rfl, by decide +kernel⟩
theorem witness_PortOutsideCommands : State.reset.input = [] ∧
    ({ aborted with input := [.powerOn] } : State).input = .powerOn :: [] ∧
    (offering 0x1000000000000000 aborted).input = .command 0x1000000000000000 ⟨[], .ok⟩ :: [] ∧
    (offering 0x1000000000000000 aborted).mode = .aborted := ⟨rfl, rfl, rfl, rfl⟩
/-- In `OFF` and in `RUN`; a READN that answers OK. -/
theorem witness_EveryCommandAnswered : State.reset.mode ≠ .aborted ∧ pool.mode ≠ .aborted ∧
    ∃ t, exec (.readn 0x005123 1) (page5 true) = .next t ∧ t.hasStatus .ok :=
  ⟨by decide, by decide, hasStatus_of_respondsWith (r := ⟨.ok, 0, 1, [0xAB]⟩) (by decide +kernel)⟩
theorem witness_ModeMachine :
    (∃ t, exec .memInit State.reset = .next t ∧ t.hasStatus .ok) ∧ State.reset.mode = .off ∧
    (∃ t, exec .memInit pool = .next t ∧ t.hasStatus .reinitMisuse) ∧ pool.mode = .run :=
  ⟨hasStatus_of_respondsWith (r := ⟨.ok, 0, 0, []⟩) (by decide +kernel), rfl,
    hasStatus_of_respondsWith (r := ⟨.reinitMisuse, 0, 0, []⟩) (by decide +kernel), rfl⟩
theorem witness_NotInitializedInOff : State.reset.mode = .off ∧ needsPool .tick = true ∧
    ∃ t, exec .tick State.reset = .next t ∧ t.hasStatus .notInitialized :=
  ⟨rfl, rfl, hasStatus_of_respondsWith (r := ⟨.notInitialized, 0, 0, []⟩) (by decide +kernel)⟩
/-- Each cause at its first value: page 256, offset 4096, frame 16, an unmapped page, a frame of another page. -/
theorem witness_ContractViolations :
    (pool.mode = .run ∧ breaksContract (.ptGet 256) pool) ∧
    (State.reset.mode = .off ∧ needsPool (.encodeVirtual 256 0) = false ∧
      breaksContract (.encodeVirtual 256 0) State.reset ∧ breaksContract (.encodeVirtual 255 4096) State.reset) ∧
    (needsPool (.encodePhysical 16 0) = false ∧ breaksContract (.encodePhysical 16 0) State.reset ∧
      breaksContract (.encodePhysical 15 4096) State.reset) ∧
    breaksContract (.load 255) pool ∧ fullMapped.mode = .run ∧ breaksContract (.load 255) fullMapped ∧
    ∃ t, exec (.load 255) pool = .next t ∧ t.hasStatus .contractViolation :=
  ⟨⟨rfl, .inl ⟨256, rfl, by decide⟩⟩,
    ⟨rfl, rfl, .inr (.inl ⟨_, _, rfl, by decide⟩), .inr (.inl ⟨_, _, rfl, by decide⟩)⟩,
    ⟨rfl, .inr (.inr (.inl ⟨_, _, rfl, by decide⟩)), .inr (.inr (.inl ⟨_, _, rfl, by decide⟩))⟩,
    .inr (.inr (.inr ⟨255, rfl, .inl (by rw [pool_pte]; rfl)⟩)), by decide +kernel,
    .inr (.inr (.inr ⟨255, rfl, .inr (by decide +kernel)⟩)),
    hasStatus_of_respondsWith (r := ⟨.contractViolation, 0, 0, []⟩) (by decide +kernel)⟩
theorem witness_IgnoredAddressBits :
    (0xF05123 : AField).extractLsb' 0 20 = (0x005123 : AField).extractLsb' 0 20 ∧
    (0xFF2123 : AField).extractLsb' 0 16 = (0x002123 : AField).extractLsb' 0 16 := by decide
theorem witness_CodecCommands : State.reset.mode ≠ .aborted ∧ pool.mode ≠ .aborted ∧ 255 < 256 ∧ 4095 < 4096 ∧ 15 < 16 := by
  decide
theorem witness_PageTableReads : pool.mode = .run := rfl
theorem witness_FindFreeFrameScan : pool.mode = .run ∧ pool.lowestFree 0 ∧ full.mode = .run ∧
    ∀ f, (full.fte f).occupied = true := ⟨rfl, lowestFree_pool, by decide +kernel, full_occupied⟩
theorem witness_ChooseVictimScan : full.mode = .run ∧ full.isVictim 3 ∧ pool.mode = .run ∧ ∀ q, ¬ pool.isCandidate q :=
  ⟨by decide +kernel, isVictim_full, rfl, fun q h => by rw [State.isCandidate, pool_pte] at h; cases h.1⟩
theorem witness_PtSetAndPtClear : pool.mode = .run := rfl
theorem witness_MarkCommands : (page5 true).mode = .run := rfl
theorem witness_TickAgesEveryPage : (page5 true).mode = .run := rfl
theorem witness_MemInitCreatesPool : State.reset.mode = .off ∧ (withIo [.ok] State.reset).io.take 1 = [.ok] ∧
    (withIo [.fail] State.reset).mode = .off ∧ (withIo [.fail] State.reset).io.take 1 = [.fail] := ⟨rfl, rfl, rfl, rfl⟩
theorem witness_MemInitWhileRunningIsFatal : pool.mode = .run ∧
    ∃ t, exec .memInit pool = .next t ∧ t.hasStatus .reinitMisuse :=
  ⟨rfl, hasStatus_of_respondsWith (r := ⟨.reinitMisuse, 0, 0, []⟩) (by decide +kernel)⟩
theorem witness_MemDestroyReleasesWithoutFlush : (page5 true).mode = .run := rfl

theorem dirtyPages_page5 : (page5 true).dirtyPages = [5] := by decide +kernel

theorem witness_HaltCompletes : (page5 true).mode = .run ∧ (page5 true).WellFormed ∧ (page5 true).MemoriesCanonical ∧
    (page5 true).io.take (page5 true).dirtyPages.length = List.replicate (page5 true).dirtyPages.length .ok :=
  ⟨rfl, wellFormed_page5 _, canonical_page5 _, by rw [dirtyPages_page5]; rfl⟩
theorem halt_of_evictEach {s u : State} (hm : s.mode = .run) (h : evictEach allPages s = .ok () u) :
    ∃ t, exec .halt s = .next t ∧ t.hasStatus .ok := by
  refine ⟨deliverOk 0 [] (releasePool u), ?_, _, rfl, rfl⟩
  unfold exec execHalt whenRunning
  rw [hm]
  simp only [h]
  rfl

theorem chooseVictim_fails {s : State} (hm : s.mode = .run) (h : chooseVictim s = none) :
    ∃ t, exec .chooseVictim s = .next t ∧ t.hasStatus .invariantViolation := by
  refine ⟨deliverFailure .invariantViolation 0 s, ?_, _, rfl, rfl⟩
  unfold exec execChooseVictim whenRunning
  rw [hm]
  simp only [h]

theorem witness_HaltDeliversVirtualMemory : pool.mode = .run ∧ Sound pool ∧
    ∃ t, exec .halt pool = .next t ∧ t.hasStatus .ok := by
  refine ⟨rfl, sound_pool, ?_⟩
  have h : ∀ l : List PageNumber, evictEach l pool = .ok () pool := fun l => by
    induction l with
    | nil => rfl
    | cons p l ih => unfold evictEach evict; rw [pool_pte]; exact ih
  exact halt_of_evictEach rfl (h _)
theorem witness_HaltStopsAtFailedWriteBack : (withIo [.fail] (page5 true)).mode = .run ∧
    (withIo [.fail] (page5 true)).WellFormed ∧ (withIo [.fail] (page5 true)).MemoriesCanonical ∧
    (withIo [.fail] (page5 true)).dirtyPages[0]? = some 5 ∧
    (withIo [.fail] (page5 true)).io.take (0 + 1) = List.replicate 0 .ok ++ [.fail] := by
  have h : (withIo [.fail] (page5 true)).dirtyPages = [5] := dirtyPages_page5
  exact ⟨rfl, wellFormed_of_eq (wellFormed_page5 true) (fun _ => rfl) (fun _ => rfl),
    MemoriesCanonical_of_eq (canonical_page5 true) rfl rfl, by rw [h]; rfl, rfl⟩

theorem witness_EvictEffects :
    (pool.mode = .run ∧ pool.MemoriesCanonical ∧ (pool.pte 255).present = false) ∧
    ((page5 false).mode = .run ∧ (page5 false).MemoriesCanonical ∧ ((page5 false).pte 5).present = true ∧
      ((page5 false).pte 5).dirty = false) ∧
    ((page5 true).mode = .run ∧ (page5 true).MemoriesCanonical ∧ ((page5 true).pte 5).present = true ∧
      ((page5 true).pte 5).dirty = true ∧ (page5 true).io.take 1 = [.ok]) ∧
    ((withIo [.fail] (page5 true)).mode = .run ∧ (withIo [.fail] (page5 true)).MemoriesCanonical ∧
      ((withIo [.fail] (page5 true)).pte 5).present = true ∧ ((withIo [.fail] (page5 true)).pte 5).dirty = true ∧
      (withIo [.fail] (page5 true)).io.take 1 = [.fail]) :=
  ⟨⟨rfl, canonical_pool, by rw [pool_pte]; rfl⟩, ⟨rfl, canonical_page5 _, by decide +kernel, by decide +kernel⟩,
    ⟨rfl, canonical_page5 _, by decide +kernel, by decide +kernel, rfl⟩,
    ⟨rfl, MemoriesCanonical_of_eq (canonical_page5 true) rfl rfl, by decide +kernel, by decide +kernel, rfl⟩⟩
theorem witness_EvictTwice : (page5 true).mode = .run ∧ ∃ t, exec (.evict 5) (page5 true) = .next t ∧ t.hasStatus .ok :=
  ⟨rfl, hasStatus_of_respondsWith (r := ⟨.ok, 0, 0, []⟩) (by decide +kernel)⟩
/-- The frame free, and the frame the page's own. -/
theorem witness_LoadEffects :
    (idle5.mode = .run ∧ idle5.MemoriesCanonical ∧ (idle5.pte 5).mapped = true ∧
      (idle5.fte (idle5.pte 5).frame).occupied = false ∧ idle5.io.take 1 = [.ok] ∧
      (withIo [.fail] idle5).io.take 1 = [.fail]) ∧
    (page5 true).mode = .run ∧ (page5 true).MemoriesCanonical ∧ ((page5 true).pte 5).mapped = true ∧
      ((page5 true).fte ((page5 true).pte 5).frame).owner = 5 ∧ (page5 true).io.take 1 = [.ok] :=
  ⟨⟨rfl, MemoriesCanonical_of_eq canonical_pool rfl rfl, by decide +kernel, by decide +kernel, rfl, rfl⟩,
    rfl, canonical_page5 _, by decide +kernel, by decide +kernel, rfl⟩
theorem witness_ResolveResidentPage : (page5 true).mode = .run ∧ ((page5 true).pte 5).mapped = true ∧
    ((page5 true).pte 5).present = true := ⟨rfl, by decide +kernel, by decide +kernel⟩
theorem witness_ResolveUnmappedPage : pool.mode = .run ∧ pool.MemoriesCanonical ∧ (pool.pte 255).mapped = false ∧
    pool.lowestFree 0 ∧ pool.io.take 1 = [.ok] := ⟨rfl, canonical_pool, by rw [pool_pte]; rfl, lowestFree_pool, rfl⟩
theorem witness_ResolveIdleFrame : idle5.mode = .run ∧ idle5.MemoriesCanonical ∧ (idle5.pte 5).mapped = true ∧
    (idle5.pte 5).present = false ∧ (idle5.fte (idle5.pte 5).frame).occupied = false ∧ idle5.io.take 1 = [.ok] :=
  ⟨rfl, MemoriesCanonical_of_eq canonical_pool rfl rfl, by decide +kernel, by decide +kernel, by decide +kernel, rfl⟩

theorem full_mode : full.mode = .run := rfl
theorem canonical_fullMapped : fullMapped.MemoriesCanonical := MemoriesCanonical_of_eq canonical_full rfl rfl
theorem fullMapped_needs : fullMapped.needsReplacement 255 :=
  .inl ⟨by simp [fullMapped], by simp [fullMapped], by simp [fullMapped, full_fte]⟩
/-- `full` with the victim, page 3, dirty or clean, and these answers. -/
def fullWith (d : Bool) (listed : List IoAnswer) : State := withIo listed (full.setPte 3 { fullEntry 3 with dirty := d })

theorem fullWith_pte (d : Bool) (l : List IoAnswer) (p : PageNumber) :
    (fullWith d l).pte p = if p = 3 then { fullEntry 3 with dirty := d } else fullEntry p := by
  show (full.setPte 3 { fullEntry 3 with dirty := d }).pte p = _
  rw [setPte_pte, full_pte]

theorem isVictim_fullWith (d : Bool) (l : List IoAnswer) : (fullWith d l).isVictim 3 := by
  simp only [State.isVictim, State.isCandidate, fullWith_pte]
  cases d <;> decide +kernel

theorem canonical_fullWith (d : Bool) (l : List IoAnswer) : (fullWith d l).MemoriesCanonical :=
  MemoriesCanonical_of_eq canonical_full rfl rfl

theorem needsReplacement_fullWith (d : Bool) (l : List IoAnswer) : (fullWith d l).needsReplacement 16 :=
  .inr ⟨by rw [fullWith_pte]; cases d <;> decide, full_occupied⟩

/-- An unmapped page with no frame free, the victim dirty and clean; a mapped page whose frame is taken. -/
theorem witness_ResolveReplacement :
    ((fullWith true []).mode = .run ∧ (fullWith true []).MemoriesCanonical ∧ (fullWith true []).needsReplacement 16 ∧
      (fullWith true []).isVictim 3 ∧ ((fullWith true []).pte 3).dirty = true ∧
      (fullWith true []).io.take 2 = [.ok, .ok]) ∧
    ((fullWith false []).mode = .run ∧ (fullWith false []).MemoriesCanonical ∧
      (fullWith false []).needsReplacement 16 ∧ (fullWith false []).isVictim 3 ∧
      ((fullWith false []).pte 3).dirty = false ∧ (fullWith false []).io.take 1 = [.ok]) ∧
    fullMapped.mode = .run ∧ fullMapped.MemoriesCanonical ∧ fullMapped.needsReplacement 255 ∧ fullMapped.isVictim 3 ∧
      (fullMapped.pte 3).dirty = true ∧ fullMapped.io.take 2 = [.ok, .ok] :=
  ⟨⟨full_mode, canonical_fullWith _ _, needsReplacement_fullWith _ _, isVictim_fullWith _ _, by rw [fullWith_pte]; rfl, rfl⟩,
    ⟨full_mode, canonical_fullWith _ _, needsReplacement_fullWith _ _, isVictim_fullWith _ _, by rw [fullWith_pte]; rfl,
      rfl⟩,
    full_mode, canonical_fullMapped, fullMapped_needs, isVictim_fullMapped,
    by simp only [fullMapped, setPte_pte, full_pte]; decide, by decide +kernel⟩
theorem witness_SeventeenthPage : full.mode = .run ∧ full.WellFormed ∧ (∀ f, (full.fte f).occupied = true) ∧
    (full.pte 16).present = false ∧ ∃ t, exec (.resolve 16) full = .next t ∧ t.hasStatus .ok :=
  ⟨full_mode, wellFormed_full, full_occupied, by rw [full_pte]; rfl,
    hasStatus_of_respondsWith (r := ⟨.ok, 0, 3, []⟩) (by decide +kernel)⟩

theorem witness_ResolveFailureStops :
    (pool.mode = .run ∧ (withIo [.fail] pool).MemoriesCanonical ∧ ((withIo [.fail] pool).pte 255).mapped = false ∧
      (withIo [.fail] pool).lowestFree 0 ∧ (withIo [.fail] pool).io.take 1 = [.fail]) ∧
    ((withIo [.fail] idle5).mode = .run ∧ (withIo [.fail] idle5).MemoriesCanonical ∧
      ((withIo [.fail] idle5).pte 5).mapped = true ∧ ((withIo [.fail] idle5).pte 5).present = false ∧
      ((withIo [.fail] idle5).fte ((withIo [.fail] idle5).pte 5).frame).occupied = false) ∧
    ((fullWith true [.fail]).mode = .run ∧ (fullWith true [.fail]).MemoriesCanonical ∧
      (fullWith true [.fail]).needsReplacement 16 ∧ (fullWith true [.fail]).isVictim 3 ∧
      ((fullWith true [.fail]).pte 3).dirty = true ∧ (fullWith true [.fail]).io.take 1 = [.fail]) ∧
    ((fullWith true [.ok, .fail]).mode = .run ∧ (fullWith true [.ok, .fail]).MemoriesCanonical ∧
      (fullWith true [.ok, .fail]).needsReplacement 16 ∧ (fullWith true [.ok, .fail]).isVictim 3 ∧
      ((fullWith true [.ok, .fail]).pte 3).dirty = true ∧ (fullWith true [.ok, .fail]).io.take 2 = [.ok, .fail]) :=
  ⟨⟨rfl, MemoriesCanonical_of_eq canonical_pool rfl rfl, by show (pool.pte 255).mapped = false; rw [pool_pte]; rfl,
      lowestFree_pool, rfl⟩,
    ⟨rfl, MemoriesCanonical_of_eq canonical_pool rfl rfl, by decide +kernel, by decide +kernel, by decide +kernel⟩,
    ⟨full_mode, canonical_fullWith _ _, needsReplacement_fullWith _ _, isVictim_fullWith _ _, by rw [fullWith_pte]; rfl, rfl⟩,
    full_mode, canonical_fullWith _ _, needsReplacement_fullWith _ _, isVictim_fullWith _ _, by rw [fullWith_pte]; rfl, rfl⟩
theorem witness_PtePageAnswers : ((page5 true).mode = .run ∧ ((page5 true).pte 5).present = true) ∧
    pool.mode = .run ∧ (pool.pte 255).present = false ∧ pool.WellFormed ∧
    ∃ t, exec (.ptePage 255) pool = .next t ∧ t.hasStatus .ok :=
  ⟨⟨rfl, by decide +kernel⟩, rfl, by rw [pool_pte]; rfl, sound_pool.wellFormed,
    hasStatus_of_respondsWith (r := ⟨.ok, 0, 0, []⟩) (by decide +kernel)⟩
theorem witness_ReadResidentByte : (page5 true).mode = .run ∧
    ((page5 true).pte ((0xF05FFF : AField).extractLsb' 12 8)).present = true := ⟨rfl, by decide +kernel⟩
theorem witness_WriteResidentByte : (page5 true).mode = .run ∧ (page5 true).MemoriesCanonical ∧
    ((page5 true).pte ((0xF05FFF : AField).extractLsb' 12 8)).present = true :=
  ⟨rfl, canonical_page5 _, by decide +kernel⟩
/-- The RESOLVE that succeeds and the one that fails. -/
theorem witness_ByteAccessFaultsIn :
    (pool.mode = .run ∧ pool.MemoriesCanonical ∧ (pool.pte ((0x0FFFFF : AField).extractLsb' 12 8)).present = false ∧
      ∃ t, exec (.resolve ((0x0FFFFF : AField).extractLsb' 12 8).toNat) pool = .next t ∧ t.hasStatus .ok) ∧
    ∃ t, exec (.resolve ((0x0FFFFF : AField).extractLsb' 12 8).toNat) (withIo [.fail] pool) = .next t ∧
      ¬ t.hasStatus .ok := by
  refine ⟨⟨rfl, canonical_pool, by rw [pool_pte]; rfl,
    hasStatus_of_respondsWith (r := ⟨.ok, 0, 0, []⟩) (by decide +kernel)⟩, ?_⟩
  obtain ⟨t, h1, h2⟩ := exists_of_respondsWith (r := ⟨.backingStoreUnavailable, 255, 0, []⟩)
    (x := exec (.resolve ((0x0FFFFF : AField).extractLsb' 12 8).toNat) (withIo [.fail] pool)) (by decide +kernel)
  exact ⟨t, h1, fun ⟨r, hr, hs⟩ => by rw [h2] at hr; cases hr; cases hs⟩
/-- The last and the first byte of the address space: pages 255 and 0 resident. -/
def edges : State := full.setPte 255 ⟨3, true, true, false, false, 0⟩
theorem witness_ReadnResidentBytes : edges.mode = .run ∧ touchesResident edges 0x0FFFFF 2 ∧
    touchesResident pool 0x0FFFFF 0 :=
  ⟨full_mode, fun k hk => by
    rw [edges, setPte_pte, full_pte]
    match k, hk with
    | 0, _ => decide +kernel
    | 1, _ => decide +kernel, fun _ hk => absurd hk (Nat.not_lt_zero _)⟩
/-- WRITEW in one page, WRITEDW from page 0 into page 1, WRITEZ of no byte. -/
theorem witness_WriteSequenceResident : full.mode = .run ∧ full.MemoriesCanonical ∧ full.WellFormed ∧
    touchesResident full 0x000FFE [(0x11 : Byte), 0x22].length ∧
    touchesResident full 0x000FFE [(0x11 : Byte), 0x22, 0x33, 0x44].length ∧
    touchesResident full 0x0FFFFF (List.replicate 0 (0 : Byte)).length := by
  refine ⟨full_mode, canonical_full, wellFormed_full, fun k hk => ?_, fun k hk => ?_, fun k hk => absurd hk (Nat.not_lt_zero _)⟩
  · rw [full_pte]
    match k, hk with
    | 0, _ => decide +kernel
    | 1, _ => decide +kernel
  · rw [full_pte]
    match k, hk with
    | 0, _ => decide +kernel
    | 1, _ => decide +kernel
    | 2, _ => decide +kernel
    | 3, _ => decide +kernel
/-- A byte more that is read, and a byte more whose page cannot be loaded. -/
theorem witness_ReadnIsItsByteReads :
    (pool.mode = .run ∧ ∃ u t, exec (.readn 0x0FFFFF 1) pool = .next u ∧ u.resp = okResponse 1 [0] ∧
      exec (.read (byteField 0x0FFFFF 1)) u = .next t ∧ t.resp = okResponse 0 []) ∧
    (∃ u t, exec (.readn 0x0FFFFF 1) (withIo [.ok, .fail] pool) = .next u ∧ u.resp = okResponse 1 [0] ∧
      exec (.read (byteField 0x0FFFFF 1)) u = .next t ∧ t.resp = failureResponse .backingStoreUnavailable 0 0) ∧
    ∃ t, exec (.readn 0x0FFFFF 1) (withIo [.fail] pool) = .next t ∧
      t.resp = failureResponse .backingStoreUnavailable 255 0 :=
  ⟨⟨rfl, exists_both (by decide +kernel)⟩, exists_both (by decide +kernel), exists_of_respondsWith (by decide +kernel)⟩
theorem witness_WritesAreTheirByteWrites :
    (pool.mode = .run ∧ ∃ u t, exec (.write 0x000FFF 0x11) pool = .next u ∧ u.resp = okResponse 0 [] ∧
      exec (.write (byteField 0x000FFF 1) 0x22) u = .next t ∧ t.resp = okResponse 0 []) ∧
    (∃ u t, exec (.write 0x000FFF 0x11) (withIo [.ok, .fail] pool) = .next u ∧ u.resp = okResponse 0 [] ∧
      exec (.write (byteField 0x000FFF 1) 0x22) u = .next t ∧
      t.resp = failureResponse .backingStoreUnavailable 1 0) ∧
    (∃ t, exec (.write 0x000FFF 0x11) (withIo [.fail] pool) = .next t ∧
      t.resp = failureResponse .backingStoreUnavailable 0 0) ∧
    (∃ u t, exec (.writew 0x000FFE 0x11 0x22) pool = .next u ∧ u.resp = okResponse 0 [] ∧
      exec (.writew (byteField 0x000FFE 2) 0x33 0x44) u = .next t ∧ t.resp = okResponse 0 []) ∧
    ∃ u t, exec (.writez 0x000FFF 1) pool = .next u ∧ u.resp = okResponse 0 [] ∧
      exec (.write (byteField 0x000FFF 1) 0) u = .next t ∧ t.resp = okResponse 0 [] :=
  ⟨⟨rfl, exists_both (by decide +kernel)⟩, exists_both (by decide +kernel), exists_of_respondsWith (by decide +kernel),
    exists_both (by decide +kernel), exists_both (by decide +kernel)⟩
theorem witness_FramePrimitives : (page5 true).MemoriesCanonical := canonical_page5 _
theorem witness_StorePrimitives : pool.MemoriesCanonical ∧ pool.io.take 1 = [.ok] ∧
    (withIo [.fail] pool).MemoriesCanonical ∧ (withIo [.fail] pool).io.take 1 = [.fail] ∧
    Memory.wf [(0, 0x11), (4095, 0x22)] = true :=
  ⟨canonical_pool, rfl, MemoriesCanonical_of_eq canonical_pool rfl rfl, rfl, by decide⟩
theorem witness_MemoriesStayCanonical : (page5 true).MemoriesCanonical ∧ ∃ t, step (page5 true) = .next t :=
  ⟨canonical_page5 _, page5 true, rfl⟩

theorem good_page5 (d : Bool) : (page5 d).Good := ⟨canonical_page5 d, fun _ => wellFormed_page5 d⟩

theorem witness_GoodStatesStayGood : (offering 0x5200000500000000 (page5 true)).Good ∧
    decode 0x5200000500000000 = .ok (.evict 5) ∧ forges (.evict 5) = false ∧
    ∃ t, step (offering 0x5200000500000000 (page5 true)) = .next t := by
  refine ⟨⟨MemoriesCanonical_of_eq (canonical_page5 true) rfl rfl,
    fun _ => wellFormed_of_eq (wellFormed_page5 true) (fun _ => rfl) (fun _ => rfl)⟩, by decide, rfl, ?_⟩
  obtain ⟨t, h, _⟩ := exists_of_respondsWith (r := ⟨.ok, 0, 0, []⟩)
    (x := step (offering 0x5200000500000000 (page5 true))) (by decide +kernel)
  exact ⟨t, h⟩
theorem witness_PresentImpliesMapped : (page5 true).mode = .run ∧ (page5 true).inv1 ∧
    ∃ t, step (offering 0x3100002A00000018 (page5 true)) = .next t ∧ t.mode = .run :=
  ⟨rfl, (wellFormed_page5 true).inv1, exists_run (by decide +kernel)⟩
theorem witness_InvariantViolationOnlyChooseVictim : pool.WellFormed ∧
    ∃ t, exec .chooseVictim pool = .next t ∧ t.hasStatus .invariantViolation := by
  refine ⟨sound_pool.wellFormed, ?_⟩
  exact chooseVictim_fails rfl (chooseVictim_none.2 fun q => by rw [candidate, pool_pte]; rfl)
theorem witness_ForgingSafeUses : (page5 true).mode = .run ∧ (page5 true).WellFormed ∧
    (∃ t, exec (.ptSet (5 : PageNumber).toNat 0x0012) (page5 true) = .next t) ∧
    (∃ t, exec (.ptClear (255 : PageNumber).toNat) (page5 true) = .next t) := ⟨rfl, wellFormed_page5 _,
    let ⟨t, h, _⟩ := exists_run (x := exec (.ptSet (5 : PageNumber).toNat 0x0012) (page5 true)) (by decide +kernel); ⟨t, h⟩,
    let ⟨t, h, _⟩ := exists_run (x := exec (.ptClear (255 : PageNumber).toNat) (page5 true)) (by decide +kernel); ⟨t, h⟩⟩
theorem witness_CoherenceKept : (∃ t, exec .memInit State.reset = .next t ∧ t.hasStatus .ok) ∧
    (page5 true).mode = .run ∧ Sound (page5 true) ∧ mayBreakCoherence (.write 0x005FFF 0x11) = false ∧
    ∃ t, exec (.write 0x005FFF 0x11) (page5 true) = .next t ∧ t.mode = .run :=
  ⟨hasStatus_of_respondsWith (r := ⟨.ok, 0, 0, []⟩) (by decide +kernel), rfl, sound_page5 _, rfl, exists_run (by decide +kernel)⟩
theorem witness_VirtualMemory : (page5 true).mode = .run ∧ Sound (page5 true) ∧
    (∃ t, exec (.read 0xF05123) (page5 true) = .next t ∧ t.hasStatus .ok) ∧
    (∃ t, exec (.readn 0x005123 1) (page5 true) = .next t ∧ t.hasStatus .ok) ∧
    ∃ t, exec (.write 0x0FFFFF 0x11) (page5 true) = .next t ∧ t.hasStatus .ok :=
  ⟨rfl, sound_page5 _, hasStatus_of_respondsWith (r := ⟨.ok, 0, 0xAB, []⟩) (by decide +kernel),
    hasStatus_of_respondsWith (r := ⟨.ok, 0, 1, [0xAB]⟩) (by decide +kernel),
    hasStatus_of_respondsWith (r := ⟨.ok, 0, 0, []⟩) (by decide +kernel)⟩
theorem failing_write : ∃ t, exec (.write 0x0FFFFF 0x11) (withIo [.fail] (page5 true)) = .next t ∧ t.mode = .run ∧
    t.hasStatus .backingStoreUnavailable := by
  obtain ⟨t, h1, h2⟩ := exists_next
    (p := fun t => t.mode == .run && t.resp == some ⟨.backingStoreUnavailable, 255, 0, []⟩)
    (x := exec (.write 0x0FFFFF 0x11) (withIo [.fail] (page5 true))) (by decide +kernel)
  simp only [Bool.and_eq_true, beq_iff_eq] at h2
  exact ⟨t, h1, h2.1, _, h2.2, rfl⟩

/-- A command that writes no byte, a READ, a READN, a WRITE that fails, a LOAD of a page that is not present. -/
theorem witness_VirtualMemoryKept : Sound (page5 true) ∧ mayBreakCoherence (.resolve 9) = false ∧
    byteLevel (.resolve 9) = false ∧ (∃ t, exec (.resolve 9) (page5 true) = .next t ∧ t.mode = .run) ∧
    (∃ t, exec (.read 0x005123) (page5 true) = .next t ∧ t.mode = .run) ∧
    (∃ t, exec (.readn 0x005123 2) (page5 true) = .next t ∧ t.mode = .run) ∧
    (∃ t, exec (.write 0x0FFFFF 0x11) (withIo [.fail] (page5 true)) = .next t ∧ t.mode = .run ∧
      t.hasStatus .backingStoreUnavailable) ∧
    ((page5 true).pte 9).present = false ∧
    ∃ t, exec (.load (9 : PageNumber).toNat) (page5 true) = .next t ∧ t.mode = .run :=
  ⟨sound_page5 _, rfl, rfl, exists_run (by decide +kernel), exists_run (by decide +kernel),
    exists_run (by decide +kernel), failing_write, by decide +kernel, exists_run (by decide +kernel)⟩
theorem witness_RefusalsChangeNothing :
    (∃ t, exec .tick State.reset = .next t ∧ t.hasStatus .notInitialized) ∧
    (∃ t, exec (.load 255) pool = .next t ∧ t.hasStatus .contractViolation) ∧
    ∃ t, exec (.evict 5) (withIo [.fail] (page5 true)) = .next t ∧ t.hasStatus .backingStoreUnavailable :=
  ⟨hasStatus_of_respondsWith (r := ⟨.notInitialized, 0, 0, []⟩) (by decide +kernel),
    hasStatus_of_respondsWith (r := ⟨.contractViolation, 0, 0, []⟩) (by decide +kernel),
    hasStatus_of_respondsWith (r := ⟨.backingStoreUnavailable, 5, 0, []⟩) (by decide +kernel)⟩
theorem witness_StoreWrittenOnlyByWriteBack : (page5 true).MemoriesCanonical ∧
    ∃ t, exec (.evict 5) (page5 true) = .next t ∧ t.storeByte 5 0x123 ≠ (page5 true).storeByte 5 0x123 :=
  ⟨canonical_page5 _, by
    obtain ⟨t, h1, h2⟩ := exists_next (p := fun t => t.storeByte 5 0x123 != (page5 true).storeByte 5 0x123)
      (x := exec (.evict 5) (page5 true)) (by decide +kernel)
    exact ⟨t, h1, by simpa using h2⟩⟩
theorem witness_ResponseCodes : Failure.fatal .reinitMisuse = true ∧ Failure.fatal .invariantViolation = true := ⟨rfl, rfl⟩
theorem witness_FailureResponseRecords : ∃ t r, exec (.readn 0x0FFFFF 2) (withIo [.ok, .fail] pool) = .next t ∧
    t.resp = some r ∧ r.status ≠ .ok := by
  obtain ⟨t, h1, h2⟩ := exists_of_respondsWith (r := ⟨.backingStoreUnavailable, 0, 1, []⟩)
    (x := exec (.readn 0x0FFFFF 2) (withIo [.ok, .fail] pool)) (by decide +kernel)
  exact ⟨t, _, h1, h2, by decide⟩
theorem witness_AnswersConsumedInOrder :
    ∃ t, exec (.readn 0x0FFFFF 2) (withIo [.ok, .fail] pool) = .next t ∧ t.hasStatus .backingStoreUnavailable :=
  hasStatus_of_respondsWith (r := ⟨.backingStoreUnavailable, 0, 1, []⟩) (by decide +kernel)

end Sys2Proof.Tests
end

section
/-!
The fields of a word put together by `commandWord` (spec/30_encoding.md R90), the words of format V and PA read back
(R91), and the ignored bits of an address operand (R92, R93).
-/

namespace Sys2Proof

/-! ### The fields of an assembled word -/

@[simp] theorem opField_commandWord (op : BitVec 8) (a : AField) (d : DField) : opField (commandWord op a d) = op := by
  unfold opField commandWord
  rw [BitVec.append_assoc, BitVec.cast_eq, BitVec.extractLsb'_append_eq_left]

@[simp] theorem aField_commandWord (op : BitVec 8) (a : AField) (d : DField) : aField (commandWord op a d) = a := by
  unfold aField commandWord
  rw [BitVec.extractLsb'_append_eq_of_le (by decide), BitVec.extractLsb'_append_eq_right]

@[simp] theorem dField_commandWord (op : BitVec 8) (a : AField) (d : DField) : dField (commandWord op a d) = d :=
  BitVec.extractLsb'_append_eq_right

/-! ### Words with an address and no further operand -/

/-- Formats V and PA accept every value of field `A` (R91). -/
theorem formatV_commandWord (op : BitVec 8) (a : AField) (f : AField → Instr) :
    formatV (commandWord op a 0) f = .ok (f a) := by
  unfold formatV whenZero
  rw [dField_commandWord, aField_commandWord]
  rfl

/-- A word with an address in field `A` and a zero field `D` decodes with whatever address it carries, once the opcode's
row of the opcode map (R100) is of format V or PA. -/
theorem decode_addressWord {op : BitVec 8} {f : AField → Instr} (hrow : ∀ w, opField w = op → decode w = formatV w f)
    (a : AField) : decode (commandWord op a 0) = .ok (f a) :=
  (hrow _ (opField_commandWord op a 0)).trans (formatV_commandWord op a f)

theorem decode_of_opField_read (w : CommandWord) (h : opField w = 0x01) : decode w = formatV w .read := by
  unfold decode
  rw [h]
  rfl

theorem decode_of_opField_decodeVirtual (w : CommandWord) (h : opField w = 0x20) :
    decode w = formatV w .decodeVirtual := by
  unfold decode
  rw [h]
  rfl

theorem decode_of_opField_decodePhysical (w : CommandWord) (h : opField w = 0x22) :
    decode w = formatV w .decodePhysical := by
  unfold decode
  rw [h]
  rfl

theorem decode_of_opField_translate (w : CommandWord) (h : opField w = 0x24) : decode w = formatV w .translate := by
  unfold decode
  rw [h]
  rfl

end Sys2Proof

namespace Sys2Proof.Machine

/-! ### A command uses its address operand only through the effective address -/

section
variable {a b : AField} (h : virtualAddress a = virtualAddress b) (s : State)
include h

theorem exec_read_congr : exec (.read a) s = exec (.read b) s := by
  show execRead a s = execRead b s
  unfold execRead
  rw [h]

theorem exec_readn_congr (n : Nat) : exec (.readn a n) s = exec (.readn b n) s := by
  show execReadn a n s = execReadn b n s
  unfold execReadn
  rw [h]

theorem exec_write_congr (v : Byte) : exec (.write a v) s = exec (.write b v) s := by
  show execWrite a v s = execWrite b v s
  unfold execWrite
  rw [h]

theorem exec_writew_congr (v1 v2 : Byte) : exec (.writew a v1 v2) s = exec (.writew b v1 v2) s := by
  show execWritew a v1 v2 s = execWritew b v1 v2 s
  unfold execWritew
  rw [h]

theorem exec_writedw_congr (v1 v2 v3 v4 : Byte) :
    exec (.writedw a v1 v2 v3 v4) s = exec (.writedw b v1 v2 v3 v4) s := by
  show execWritedw a v1 v2 v3 v4 s = execWritedw b v1 v2 v3 v4 s
  unfold execWritedw
  rw [h]

theorem exec_writez_congr (n : Nat) : exec (.writez a n) s = exec (.writez b n) s := by
  show execWritez a n s = execWritez b n s
  unfold execWritez
  rw [h]

theorem exec_translate_congr : exec (.translate a) s = exec (.translate b) s := by
  show execTranslate a s = execTranslate b s
  unfold execTranslate
  rw [h]

theorem exec_decodeVirtual_congr : exec (.decodeVirtual a) s = exec (.decodeVirtual b) s := by
  show execDecodeVirtual a s = execDecodeVirtual b s
  unfold execDecodeVirtual
  rw [h]

end

theorem exec_decodePhysical_congr {a b : AField} (h : physicalAddress a = physicalAddress b) (s : State) :
    exec (.decodePhysical a) s = exec (.decodePhysical b) s := by
  show execDecodePhysical a s = execDecodePhysical b s
  unfold execDecodePhysical
  rw [h]

end Sys2Proof.Machine

namespace Sys2Proof.Proofs

open Sys2Proof Sys2Proof.Machine

/-- Settles O13: each command meets its address operand only through the effective address, and the decoder of format V
and PA puts no condition on field `A`. -/
theorem ignoredAddressBits : Obligations.IgnoredAddressBits := by
  unfold Obligations.IgnoredAddressBits
  refine ⟨fun a b s hab => ?_, fun a b s hab => ?_, fun _ => ⟨rfl, rfl⟩, fun a => ?_⟩
  · have hva : virtualAddress a = virtualAddress b := hab
    exact ⟨exec_read_congr hva s, exec_readn_congr hva s, exec_write_congr hva s, exec_writew_congr hva s,
      exec_writedw_congr hva s, exec_writez_congr hva s, exec_translate_congr hva s, exec_decodeVirtual_congr hva s⟩
  · have hpa : physicalAddress a = physicalAddress b := hab
    exact exec_decodePhysical_congr hpa s
  · exact ⟨decode_addressWord decode_of_opField_read a, decode_addressWord decode_of_opField_decodeVirtual a,
      decode_addressWord decode_of_opField_decodePhysical a, decode_addressWord decode_of_opField_translate a⟩

end Sys2Proof.Proofs
end

section
/-!
The address codec in the direction from the address to its parts and back, and the zero extension of an address operand
that lost its ignored bits (spec/40_address_codec.md R124, second sentence).
-/

namespace Sys2Proof.Machine

@[simp] theorem encodePhysical_frameOf_physicalOffsetOf (pa : PhysicalAddress) :
    encodePhysical (frameOf pa) (physicalOffsetOf pa) = pa := by
  apply BitVec.eq_of_toNat_eq
  rw [encodePhysical_toNat, frameBase, Config.pageSize, frameOf_toNat, physicalOffsetOf_toNat]
  omega

/-- Cutting a word down to its low `n` bits and extending it again loses nothing exactly when the bits above them, at
most `k` of them, are zero. -/
theorem zeroExtend_lowBits_eq_iff {w n k : Nat} (hw : w ≤ n + k) (hn : n ≤ w) (a : BitVec w) :
    (a.extractLsb' 0 n).zeroExtend w = a ↔ a.extractLsb' n k = 0 := by
  have hlow : ((a.extractLsb' 0 n).zeroExtend w).toNat = a.toNat % 2 ^ n := by
    rw [BitVec.toNat_setWidth_of_le hn, BitVec.extractLsb'_toNat, Nat.shiftRight_zero]
  have hhigh : (a.extractLsb' n k).toNat = a.toNat / 2 ^ n := by
    have hlt : a.toNat < 2 ^ n * 2 ^ k :=
      Nat.pow_add 2 n k ▸ a.isLt.trans_le (Nat.pow_le_pow_right Nat.two_pos hw)
    rw [BitVec.extractLsb'_toNat, Nat.shiftRight_eq_div_pow, Nat.mod_eq_of_lt (Nat.div_lt_of_lt_mul hlt)]
  calc (a.extractLsb' 0 n).zeroExtend w = a
    _ ↔ a.toNat % 2 ^ n = a.toNat := by rw [← BitVec.toNat_inj, hlow]
    _ ↔ a.toNat < 2 ^ n := Nat.mod_eq_iff_lt (Nat.two_pow_pos n).ne'
    _ ↔ a.toNat / 2 ^ n = 0 := (Nat.div_eq_zero_iff_lt (Nat.two_pow_pos n)).symm
    _ ↔ a.extractLsb' n k = 0 := by rw [← BitVec.toNat_inj, hhigh]; rfl

end Sys2Proof.Machine

namespace Sys2Proof.Proofs

open Sys2Proof Sys2Proof.Machine

/-- Settles O15: encoding and decoding are inverse on the addresses themselves, so an operand loses only the ignored bits
that `virtualAddress` (R92) and `physicalAddress` (R93) drop from it. -/
theorem codecRoundTrip : Obligations.CodecRoundTrip := by
  unfold Obligations.CodecRoundTrip
  refine ⟨fun p o => ⟨pageOf_encodeVirtual p o, offsetOf_encodeVirtual p o⟩,
    fun f o => ⟨frameOf_encodePhysical f o, physicalOffsetOf_encodePhysical f o⟩, fun a => ?_, fun a => ?_⟩
  · rw [encodeVirtual_pageOf_offsetOf]
    exact ⟨rfl, zeroExtend_lowBits_eq_iff (by decide) (by decide) a⟩
  · rw [encodePhysical_frameOf_physicalOffsetOf]
    exact ⟨rfl, zeroExtend_lowBits_eq_iff (by decide) (by decide) a⟩

end Sys2Proof.Proofs
end

section
/-!
The physical-memory frame multiplexer byte by byte (spec/42_frame_table_pm_bs.md R156 to R160), and the backing store:
the one answer each operation consumes (R164), what an answer makes of it, and the store's bytes afterwards (R162, R163,
R165).
-/

namespace Sys2Proof.Machine

/-! ### Frames as pages -/

theorem memRead_eq_frameByte (pa : PhysicalAddress) (s : State) :
    memRead pa s = s.frameByte (frameOf pa) (physicalOffsetOf pa) := by
  rw [State.frameByte, encodePhysical_frameOf_physicalOffsetOf]

theorem frameByte_memWrite_address {s : State} (h : Memory.wf s.pm = true) (pa : PhysicalAddress) (v : Byte)
    (f : FrameNumber) (o : Offset) :
    (memWrite pa v s).frameByte f o = if f = frameOf pa ∧ o = physicalOffsetOf pa then v else s.frameByte f o := by
  have hw := frameByte_memWrite h (frameOf pa) f (physicalOffsetOf pa) o v
  rwa [encodePhysical_frameOf_physicalOffsetOf] at hw

theorem read_pmReadPage {s : State} (h : Memory.wf s.pm = true) (f : FrameNumber) (o : Offset) :
    Memory.read (pmReadPage f s) o.toNat = s.frameByte f o := by
  have ho : o.toNat < Config.pageSize := o.isLt
  rw [pmReadPage, Memory.read_readBlock h, if_pos ho, frameByte_eq]

theorem frameByte_pmWritePage {s : State} {data : Memory} (h : Memory.wf s.pm = true) (hd : Memory.wf data = true)
    (f g : FrameNumber) (o : Offset) :
    (pmWritePage f data s).frameByte g o = if g = f then Memory.read data o.toNat else s.frameByte g o := by
  rw [frameByte_eq, frameByte_eq, pmWritePage, Memory.read_writeBlock h hd]
  simp only [frame_range]
  by_cases hg : g = f
  · rw [if_pos hg, if_pos hg, hg, Nat.add_sub_cancel_left]
  · rw [if_neg hg, if_neg hg]

/-- Zeroing a frame is writing the page with no listed byte to it (R160). -/
theorem pmZero_eq_pmWritePage (f : FrameNumber) (s : State) : pmZero f s = pmWritePage f [] s := rfl

theorem frameByte_pmZero {s : State} (h : Memory.wf s.pm = true) (f g : FrameNumber) (o : Offset) :
    (pmZero f s).frameByte g o = if g = f then 0 else s.frameByte g o :=
  pmZero_eq_pmWritePage f s ▸ frameByte_pmWritePage h rfl f g o

/-! ### The store's pages -/

theorem read_storeBlock {s : State} (h : Memory.wf s.bs = true) (p : PageNumber) (o : Offset) :
    Memory.read (Memory.readBlock s.bs (storeBase p) Config.pageSize) o.toNat = s.storeByte p o := by
  have ho : o.toNat < Config.pageSize := o.isLt
  rw [Memory.read_readBlock h, if_pos ho, storeByte_eq]

theorem storeByte_storePage {s : State} {data : Memory} (h : Memory.wf s.bs = true) (hd : Memory.wf data = true)
    (p q : PageNumber) (o : Offset) :
    (storePage p data s).storeByte q o = if q = p then Memory.read data o.toNat else s.storeByte q o := by
  rw [storeByte_eq, storeByte_eq, storePage, Memory.read_writeBlock h hd]
  simp only [store_range]
  by_cases hq : q = p
  · rw [if_pos hq, if_pos hq, hq, Nat.add_sub_cancel_left]
  · rw [if_neg hq, if_neg hq]

/-! ### One attempted store operation -/

theorem IoAnswers.next_of_take_one {x : IoAnswers} {a : IoAnswer} (h : x.take 1 = [a]) : x.next.1 = a :=
  List.head_eq_of_cons_eq h

/-- An attempt is recorded with the answer it consumes (R164). -/
theorem asked_attempt {s : State} {a : IoAnswer} (h : s.io.take 1 = [a]) (kind : StoreOpKind) (p : PageNumber) :
    Asked s (s.attempt kind p) [⟨kind, p, a⟩] where
  input := rfl
  freeCount := rfl
  ops := by rw [State.attempt, IoAnswers.next_of_take_one h]
  io := rfl
  answers := h.symm

/-- What was asked of the environment does not depend on the store's contents. -/
theorem Asked.with_bs {s t : State} {new : List StoreOp} (h : Asked s t new) (m : Memory) :
    Asked s { t with bs := m } new :=
  ⟨h.input, h.freeCount, h.ops, h.io, h.answers⟩

section
variable {s : State}

theorem bsRead_of_ok (h : s.io.next.1 = .ok) (p : PageNumber) :
    bsRead p s = .ok (Memory.readBlock s.bs (storeBase p) Config.pageSize) (s.attempt .read p) :=
  ((bsRead_cases p s).resolve_right (by simp [h])).2

theorem bsRead_of_fail (h : s.io.next.1 = .fail) (p : PageNumber) :
    bsRead p s = .raise (.backingStoreUnavailable p) (s.attempt .read p) :=
  ((bsRead_cases p s).resolve_left (by simp [h])).2

theorem bsWrite_of_ok (h : s.io.next.1 = .ok) (p : PageNumber) (data : Memory) :
    bsWrite p data s = .ok () (storePage p data (s.attempt .write p)) :=
  ((bsWrite_cases p data s).resolve_right (by simp [h])).2

theorem bsWrite_of_fail (h : s.io.next.1 = .fail) (p : PageNumber) (data : Memory) :
    bsWrite p data s = .raise (.backingStoreUnavailable p) (s.attempt .write p) :=
  ((bsWrite_cases p data s).resolve_left (by simp [h])).2

theorem bsCreate_of_ok (h : s.io.next.1 = .ok) : bsCreate s = .ok () { s.attempt .create 0 with bs := [] } :=
  ((bsCreate_cases s).resolve_right (by simp [h])).2

theorem bsCreate_of_fail (h : s.io.next.1 = .fail) :
    bsCreate s = .raise (.backingStoreUnavailable 0) (s.attempt .create 0) :=
  ((bsCreate_cases s).resolve_left (by simp [h])).2

end

end Sys2Proof.Machine

namespace Sys2Proof.Proofs

open Sys2Proof Sys2Proof.Machine

/-- Settles O45: the frame-table marks are single-entry writes, and each physical-memory operation is a read or a write
of the one block of addresses that `encodePhysical` gives a frame. -/
theorem framePrimitives : Obligations.FramePrimitives := by
  unfold Obligations.FramePrimitives
  intro s hs
  refine ⟨fun f p => ⟨?_, fun g hg => ?_, ?_, fun g hg => ?_⟩, fun pa => memRead_eq_frameByte pa s,
    frameByte_memWrite_address hs.pm_wf, read_pmReadPage hs.pm_wf,
    fun f g o data hd => frameByte_pmWritePage hs.pm_wf hd f g o, frameByte_pmZero hs.pm_wf⟩
  · exact (markOccupied_fte s f p f).trans (if_pos rfl)
  · exact (markOccupied_fte s f p g).trans (if_neg hg)
  · exact (markFree_fte s f f).trans (if_pos rfl)
  · exact (markFree_fte s f g).trans (if_neg hg)

/-- Settles O46: the answer selects the outcome of each store operation; the attempt itself changes no field of the
block, and on `ok` only the store's contents are written. -/
theorem storePrimitives : Obligations.StorePrimitives := by
  unfold Obligations.StorePrimitives
  intro s hs
  refine ⟨fun hio => ?_, fun hio => ?_⟩
  · have hok : s.io.next.1 = .ok := IoAnswers.next_of_take_one hio
    refine ⟨fun p => ?_, fun p data hd => ?_, ?_⟩
    · exact ⟨_, _, bsRead_of_ok hok p, rfl, asked_attempt hio .read p, read_storeBlock hs.bs_wf p⟩
    · exact ⟨_, bsWrite_of_ok hok p data, rfl, (asked_attempt hio .write p).with_bs _,
        storeByte_storePage (s := s.attempt .write p) hs.bs_wf hd p⟩
    · exact ⟨_, bsCreate_of_ok hok, rfl, (asked_attempt hio .create 0).with_bs [], fun _ _ => rfl⟩
  · have hfail : s.io.next.1 = .fail := IoAnswers.next_of_take_one hio
    refine ⟨fun p => ?_, fun p data => ?_, ?_⟩
    · exact ⟨_, bsRead_of_fail hfail p, rfl, asked_attempt hio .read p⟩
    · exact ⟨_, bsWrite_of_fail hfail p data, rfl, asked_attempt hio .write p⟩
    · exact ⟨_, bsCreate_of_fail hfail, rfl, asked_attempt hio .create 0⟩

end Sys2Proof.Proofs
end

section
/-!
RESOLVE of a page that is already resident (spec/43_translate_fault.md R175), from the rules it shares with other
commands: the dispatch of RESOLVE in RUN, the response that carries a field of the state, and the frame of a write to one
page-table entry.
-/

namespace Sys2Proof.Machine

/-! ### The response -/

/-- A result value is the answered field's number (R104). -/
theorem deliverOk_zeroExtend_resp {w : Nat} (x : BitVec w) (data : List Byte) (s : State) :
    (deliverOk (x.zeroExtend 32) data s).resp = okResponse x.toNat data := by
  rw [deliverOk_resp, okResponse, BitVec.ofNat_toNat]

/-! ### What a write to one page-table entry leaves alone -/

/-- A command that writes one page-table entry and answers touches nothing else (R9, R104). -/
theorem restKept_deliverOk_setPte (s : State) (p : PageNumber) (e : Pte) (value : BitVec 32) (data : List Byte) :
    RestKept s (deliverOk value data (s.setPte p e)) where
  mode := by simp
  frameTable := fun f => by simp
  frames := fun _ _ => rfl
  store := fun _ _ => rfl
  ports := ⟨by simp, by simp, by simp, by simp⟩

theorem markReferenced_pte_self (s : State) (p : PageNumber) :
    (s.markReferenced p).pte p = (s.pte p).markReferenced :=
  setPte_pte_self s p _

/-! ### RESOLVE -/

theorem exec_resolve_of_run {s : State} (hrun : s.mode = .run) (p : PageNumber) :
    exec (.resolve p.toNat) s = deliver (fun f _ => f.zeroExtend 32) (resolve p s) := by
  show execResolve p.toNat s = _
  rw [execResolve, withPage_run hrun]

theorem makeResident_of_resident {s : State} {p : PageNumber} (hmapped : (s.pte p).mapped = true)
    (hpresent : (s.pte p).present = true) : makeResident p s = .ok () s := by
  rw [makeResident, if_pos hmapped, if_pos hpresent]

/-- Of a resident page nothing is left to do but the marking, which keeps the frame number (R175, R176). -/
theorem resolve_of_resident {s : State} {p : PageNumber} (hmapped : (s.pte p).mapped = true)
    (hpresent : (s.pte p).present = true) : resolve p s = .ok (s.pte p).frame (s.markReferenced p) := by
  rw [resolve, makeResident_of_resident hmapped hpresent, bind_ok, markReferenced_pte_self, markReferenced_frame]

end Sys2Proof.Machine

namespace Sys2Proof.Proofs

open Sys2Proof Sys2Proof.Machine

/-- Settles O31: no branch of `resolve` is taken for a resident page, so the state answered is the marked one, a write to
one page-table entry. -/
theorem resolveResidentPage : Obligations.ResolveResidentPage := by
  unfold Obligations.ResolveResidentPage
  intro s p hrun hmapped hpresent
  have hexec : exec (.resolve p.toNat) s =
      .next (deliverOk ((s.pte p).frame.zeroExtend 32) [] (s.markReferenced p)) := by
    rw [exec_resolve_of_run hrun, resolve_of_resident hmapped hpresent]
    rfl
  refine ⟨_, hexec, deliverOk_zeroExtend_resp _ _ _, ?_, fun q hq => ?_, restKept_deliverOk_setPte s p _ _ _⟩
  · exact markReferenced_pte_self s p
  · exact (markReferenced_pte s p q).trans (if_neg hq)

end Sys2Proof.Proofs
end

section
/-!
EVICT (spec/45_evict_load.md R190, R191): its dispatch in RUN, the outcome each branch of `evict` selects, and what the
write-back and the dropping of a page do to the tables, the frames and the store.
-/

namespace Sys2Proof.Machine

/-! ### The responses -/

/-- The code of BackingStoreUnavailable comes with the page's number (R231). -/
theorem deliverFailure_backingStoreUnavailable_resp (p : PageNumber) (n : Nat) (s : State) :
    (deliverFailure (.backingStoreUnavailable p) n s).resp = failureResponse .backingStoreUnavailable p.toNat n := by
  rw [deliverFailure_resp, failureResponse, BitVec.ofNat_toNat]
  rfl

/-- What was asked of the environment does not depend on the response. -/
theorem Asked.deliverOk {s t : State} {new : List StoreOp} (h : Asked s t new) (value : BitVec 32) (data : List Byte) :
    Asked s (deliverOk value data t) new :=
  ⟨h.input, h.freeCount, h.ops, h.io, h.answers⟩

/-- What was asked of the environment does not depend on the mode or the response. -/
theorem Asked.deliverFailure {s t : State} {new : List StoreOp} (h : Asked s t new) (k : Failure) (n : Nat) :
    Asked s (deliverFailure k n t) new :=
  ⟨h.input, h.freeCount, h.ops, h.io, h.answers⟩

/-! ### The page dropped, the page written back -/

/-- The writes of `evict` after the write-back are exactly R190's. -/
theorem pageDropped_dropPage {s : State} (h : Memory.wf s.pm = true) (p : PageNumber) :
    PageDropped s (dropPage p s) p where
  entry := (dropPage_pte s p p).trans (if_pos rfl)
  otherEntries := fun q hq => (dropPage_pte s p q).trans (if_neg hq)
  frame := (dropPage_fte s p _).trans (if_pos rfl)
  otherFrames := fun f hf => (dropPage_fte s p f).trans (if_neg hf)
  zeroed := fun o => (frameByte_dropPage h p _ o).trans (if_pos rfl)
  otherBytes := fun f o hf => (frameByte_dropPage h p f o).trans (if_neg hf)

/-- Dropping a page is about the tables and physical memory only, which the write-back before it leaves alone. -/
theorem pageDropped_dropPage_writtenBack {s : State} (h : Memory.wf s.pm = true) (p : PageNumber) :
    PageDropped s (dropPage p (writtenBack p s)) p :=
  have hd : PageDropped (writtenBack p s) (dropPage p (writtenBack p s)) p :=
    pageDropped_dropPage (s := writtenBack p s) h p
  ⟨hd.entry, hd.otherEntries, hd.frame, hd.otherFrames, hd.zeroed, hd.otherBytes⟩

theorem pageWritten_writtenBack {s : State} (h : Memory.wf s.pm = true) (hb : Memory.wf s.bs = true) (p : PageNumber) :
    PageWritten s (writtenBack p s) p where
  written := fun o => (storeByte_writtenBack h hb p p o).trans (if_pos rfl)
  otherPages := fun q o hq => (storeByte_writtenBack h hb p q o).trans (if_neg hq)

/-- What a page transfer did does not depend on the response. -/
theorem PageDropped.deliverOk {s t : State} {p : PageNumber} (h : PageDropped s t p) (value : BitVec 32)
    (data : List Byte) : PageDropped s (deliverOk value data t) p :=
  ⟨h.entry, h.otherEntries, h.frame, h.otherFrames, h.zeroed, h.otherBytes⟩

/-- The store's contents are all a write-back is judged by. -/
theorem PageWritten.of_bs_eq {s t u : State} {p : PageNumber} (h : PageWritten s t p) (hbs : u.bs = t.bs) :
    PageWritten s u p := by
  have hu : ∀ q o, u.storeByte q o = t.storeByte q o := fun q o => by rw [storeByte_eq, storeByte_eq, hbs]
  exact ⟨fun o => (hu p o).trans (h.written o), fun q o hq => (hu q o).trans (h.otherPages q o hq)⟩

/-- The write-back asks for one store operation, and dropping the page for none (R163, R190). -/
theorem asked_dropPage_writtenBack {s : State} (hio : s.io.take 1 = [.ok]) (p : PageNumber) :
    Asked s (dropPage p (writtenBack p s)) [⟨.write, p, .ok⟩] :=
  have ha := asked_attempt hio .write p
  ⟨ha.input, ha.freeCount, ha.ops, ha.io, ha.answers⟩

/-! ### EVICT -/

theorem exec_evict_of_run {s : State} (hrun : s.mode = .run) (p : PageNumber) :
    exec (.evict p.toNat) s = deliver (fun _ _ => 0) (evict p s) := by
  show execEvict p.toNat s = _
  rw [execEvict, withPage_run hrun]

section
variable {s : State} {p : PageNumber}

theorem evict_of_absent (hpresent : (s.pte p).present = false) : evict p s = .ok () s := by
  simpa [hpresent] using evict_cases p s

theorem evict_of_clean (hpresent : (s.pte p).present = true) (hdirty : (s.pte p).dirty = false) :
    evict p s = .ok () (dropPage p s) := by
  simpa [hpresent, hdirty] using evict_cases p s

theorem evict_of_dirty_ok (hpresent : (s.pte p).present = true) (hdirty : (s.pte p).dirty = true)
    (hok : s.io.next.1 = .ok) : evict p s = .ok () (dropPage p (writtenBack p s)) := by
  simpa [hpresent, hdirty, hok] using evict_cases p s

theorem evict_of_dirty_fail (hpresent : (s.pte p).present = true) (hdirty : (s.pte p).dirty = true)
    (hfail : s.io.next.1 = .fail) : evict p s = .raise (.backingStoreUnavailable p) (s.attempt .write p) := by
  simpa [hpresent, hdirty, hfail] using evict_cases p s

end

end Sys2Proof.Machine

namespace Sys2Proof.Proofs

open Sys2Proof Sys2Proof.Machine

/-- Settles O28: `present`, `dirty` and the store's answer select the branch of `evict`; a page is dropped from the
state as it stood or as the write-back left it, and a failed write-back has only consumed its answer. -/
theorem evictEffects : Obligations.EvictEffects := by
  unfold Obligations.EvictEffects
  intro s p hrun hs
  rw [exec_evict_of_run hrun]
  refine ⟨fun hpresent => ?absent, fun hpresent hdirty => ?clean, fun hpresent hdirty hio => ?writtenBack,
    fun hpresent hdirty hio => ?failed⟩
  case absent =>
    rw [evict_of_absent hpresent]
    rfl
  case clean =>
    rw [evict_of_clean hpresent hdirty]
    exact ⟨_, rfl, rfl, hrun, (pageDropped_dropPage hs.pm_wf p).deliverOk 0 [], fun _ _ => rfl, rfl, rfl, rfl, rfl⟩
  case writtenBack =>
    rw [evict_of_dirty_ok hpresent hdirty (IoAnswers.next_of_take_one hio)]
    exact ⟨_, rfl, rfl, hrun, (pageDropped_dropPage_writtenBack hs.pm_wf p).deliverOk 0 [],
      (pageWritten_writtenBack hs.pm_wf hs.bs_wf p).of_bs_eq rfl, (asked_dropPage_writtenBack hio p).deliverOk 0 []⟩
  case failed =>
    rw [evict_of_dirty_fail hpresent hdirty (IoAnswers.next_of_take_one hio)]
    exact ⟨_, rfl, deliverFailure_backingStoreUnavailable_resp p 0 _, deliverFailure_toBlock _ _ 0 rfl,
      (asked_attempt hio .write p).deliverFailure _ 0⟩

end Sys2Proof.Proofs
end

section
/-!
The response word and its status codes (spec/30_encoding.md R104, spec/60_exceptions.md R231).
-/

namespace Sys2Proof.Machine

/-- A response word has the layout of a command word: the code in the opcode's place, `info` in that of `A`, `value` in
that of `D` (R90, R104). -/
theorem Response.word_eq_commandWord (r : Response) : r.word = commandWord r.status.code r.info r.value := rfl

theorem Response.word_fields (r : Response) : r.word.extractLsb' 56 8 = r.status.code ∧
    r.word.extractLsb' 32 24 = r.info ∧ r.word.extractLsb' 0 32 = r.value := by
  rw [r.word_eq_commandWord]
  exact ⟨opField_commandWord _ _ _, aField_commandWord _ _ _, dField_commandWord _ _ _⟩

/-- Fatal kinds are told from the others by the top nibble of the code (R231). -/
theorem Failure.fatal_eq_topNibble (k : Failure) : k.fatal = (k.status.code.extractLsb' 4 4 == 0xF) := by
  cases k with
  | backingStoreUnavailable p =>
    exact (by decide : false = (Status.backingStoreUnavailable.code.extractLsb' 4 4 == 0xF))
  | _ => rfl

theorem Status.code_mem (st : Status) : st.code ∈ [0x00, 0x01, 0x02, 0x03, 0x04, 0xF0, 0xF1] := by
  cases st <;> decide

/-- A fatal failure ends the run (R230, R246). -/
theorem deliverFailure_aborts {k : Failure} (h : k.fatal = true) (n : Nat) (s : State) :
    (deliverFailure k n s).mode = .aborted := by
  rw [deliverFailure_mode, if_pos h]

end Sys2Proof.Machine

namespace Sys2Proof.Proofs

open Sys2Proof Sys2Proof.Machine

/-- Settles O58: the codes are read off the table, the fields of the word off its layout, and fatality off the top
nibble of the code. -/
theorem responseCodes : Obligations.ResponseCodes := by
  unfold Obligations.ResponseCodes
  refine ⟨rfl, rfl, rfl, rfl, rfl, rfl, rfl, Status.code_mem, Response.word_fields, fun k => ?_,
    fun k n s hk => deliverFailure_aborts hk n s⟩
  rw [k.fatal_eq_topNibble, beq_iff_eq]

end Sys2Proof.Proofs
end

section
/-!
The two checks before a command executes, NotInitialized and ContractViolation (spec/60_exceptions.md R232, R237): which
command makes which check, what a failed check answers, and that nothing a command does afterwards answers either.
-/

namespace Sys2Proof.Machine

/-! ### The status of a response -/

theorem State.hasStatus_unique {t : State} {st st' : Status} (h : t.hasStatus st) (h' : t.hasStatus st') :
    st = st' := by
  obtain ⟨r, hr, hst⟩ := h
  obtain ⟨r', hr', hst'⟩ := h'
  obtain rfl : r = r' := Option.some.inj (hr.symm.trans hr')
  exact hst.symm.trans hst'

theorem deliverOk_hasStatus (value : BitVec 32) (data : List Byte) (s : State) :
    (deliverOk value data s).hasStatus .ok :=
  ⟨_, deliverOk_resp s value data, rfl⟩

theorem deliverFailure_hasStatus (k : Failure) (n : Nat) (s : State) : (deliverFailure k n s).hasStatus k.status :=
  ⟨_, deliverFailure_resp s k n, rfl⟩

/-- The statuses a command can answer once its checks have passed: OK and the failures met while it executes. -/
def Status.ofExecution : Status → Bool
  | .ok => true
  | .backingStoreUnavailable => true
  | .reinitMisuse => true
  | .invariantViolation => true
  | .contractViolation => false
  | .illegalCommand => false
  | .notInitialized => false

/-- The response has a status of a command whose checks passed. -/
def State.Executed (t : State) : Prop := ∃ st : Status, t.hasStatus st ∧ st.ofExecution = true

theorem executed_deliverOk (value : BitVec 32) (data : List Byte) (s : State) : (deliverOk value data s).Executed :=
  ⟨_, deliverOk_hasStatus value data s, rfl⟩

theorem executed_deliverFailure {k : Failure} (h : k.status.ofExecution = true) (n : Nat) (s : State) :
    (deliverFailure k n s).Executed :=
  ⟨_, deliverFailure_hasStatus k n s, h⟩

/-- An executed command answers no status that stands for a failed check. -/
theorem State.Executed.not_hasStatus {t : State} (h : t.Executed) {st : Status} (hst : st.ofExecution = false) :
    ¬ t.hasStatus st := by
  intro h'
  obtain ⟨st', ht, hst'⟩ := h
  obtain rfl := State.hasStatus_unique h' ht
  exact absurd (hst.symm.trans hst') (by decide)

/-- The fault path raises only BackingStoreUnavailable and InvariantViolation. -/
theorem TracedRaise.ofExecution {k : Failure} {s t : State} (h : TracedRaise k s t) : k.status.ofExecution = true := by
  cases k with
  | backingStoreUnavailable _ => rfl
  | invariantViolation => rfl
  | contractViolation => exact h.elim
  | illegalCommand => exact h.elim
  | notInitialized => exact h.elim
  | reinitMisuse => exact h.elim

theorem executed_of_raise {α : Type} {r : Res α} {s u : State} {k : Failure} (ht : r.Traces s) (h : r = .raise k u)
    (n : Nat) : (deliverFailure k n u).Executed := by
  subst h
  exact executed_deliverFailure (TracedRaise.ofExecution ht) n u

theorem executed_of_readLoop_stopped {n m j : Nat} {va : VirtualAddress} {acc : List Byte} {s u : State} {k : Failure}
    (h : readLoop n va m acc s = .stopped j k u) : (deliverFailure k j u).Executed := by
  have ht := traces_readLoop n va m acc s
  rw [h] at ht
  exact executed_deliverFailure ht.1.ofExecution j u

theorem executed_of_writeLoop_stopped {vs : List Byte} {m j : Nat} {va : VirtualAddress} {s u : State} {k : Failure}
    (h : writeLoop vs va m s = .stopped j k u) : (deliverFailure k j u).Executed := by
  have ht := traces_writeLoop vs va m s
  rw [h] at ht
  exact executed_deliverFailure ht.1.ofExecution j u

/-! ### The outcome of the checks -/

/-- A command that answers has failed a check, of which the first answers NotInitialized and the second
ContractViolation, or has executed (R242). -/
theorem exec_checked {i : Instr} {s t : State} (h : exec i s = .next t) :
    (s.mode = .off ∧ needsPool i = true ∧ t = deliverFailure .notInitialized 0 s) ∨
    (breaksContract i s ∧ t = deliverFailure .contractViolation 0 s) ∨ t.Executed := by
  cases exec_answered h with
  | notInitialized hm hn => exact .inl ⟨hm, hn, rfl⟩
  | contract hm hb => exact .inr (.inl ⟨hb, rfl⟩)
  | noVictim hm hv => exact .inr (.inr (executed_deliverFailure rfl 0 s))
  | reinit hm => exact .inr (.inr (executed_deliverFailure rfl 0 s))
  | notCreated hm hi => exact .inr (.inr (executed_deliverFailure rfl 0 _))
  | haltStopped hm hr => exact .inr (.inr (executed_of_raise (traces_evictEach allPages s) hr 0))
  | evictStopped p hm hr => exact .inr (.inr (executed_of_raise (traces_evict p s) hr 0))
  | loadStopped p hm ha hr => exact .inr (.inr (executed_of_raise (traces_load p s) hr 0))
  | resolveStopped p hm hr => exact .inr (.inr (executed_of_raise (traces_resolve p s) hr 0))
  | handleStopped p hm hr => exact .inr (.inr (executed_of_raise (traces_ptePage p s) hr 0))
  | readStopped a hm hr => exact .inr (.inr (executed_of_raise (traces_readByte _ s) hr 0))
  | writeStopped a v hm hr => exact .inr (.inr (executed_of_raise (traces_writeByte _ v s) hr 0))
  | readnStopped a n hm hr => exact .inr (.inr (executed_of_readLoop_stopped hr))
  | sequenceStopped hi hm hr => exact .inr (.inr (executed_of_writeLoop_stopped hr))
  | _ => exact .inr (.inr (executed_deliverOk _ _ _))

/-! ### The pool check (R224, R237) -/

/-- Every command that needs the pool makes the pool check first. -/
theorem exec_eq_whenRunning {i : Instr} (h : needsPool i = true) : ∃ body, exec i = whenRunning body := by
  cases i with
  | memInit => cases h
  | decodeVirtual a => cases h
  | encodeVirtual page offset => cases h
  | decodePhysical a => cases h
  | encodePhysical frame offset => cases h
  | _ => exact ⟨_, rfl⟩

theorem exec_of_off {i : Instr} {s : State} (hm : s.mode = .off) (hn : needsPool i = true) :
    exec i s = .next (deliverFailure .notInitialized 0 s) := by
  obtain ⟨body, hbody⟩ := exec_eq_whenRunning hn
  rw [hbody, whenRunning_off hm]

/-! ### The operand checks (R94 to R96, R193, R232) -/

theorem needsPool_of_poolPage {i : Instr} {page : Nat} (h : poolPage i = some page) : needsPool i = true := by
  cases i with
  | memInit => cases h
  | decodeVirtual a => cases h
  | encodeVirtual page offset => cases h
  | decodePhysical a => cases h
  | encodePhysical frame offset => cases h
  | _ => rfl

/-- Every command with a page operand that needs the pool checks it right after the pool. -/
theorem exec_eq_withPage {i : Instr} {page : Nat} (h : poolPage i = some page) :
    ∃ body, exec i = withPage page body := by
  cases i with
  | ptGet p | ptSet p e | ptClear p | isUnmapped p | isPresent p | isDirty p | isReferenced p | markDirty p
  | markClean p | markReferenced p | markUnreferenced p | resolve p | ptePage p | evict p | load p => cases h; exact ⟨_, rfl⟩
  | _ => cases h

theorem withPage_of_ge {s : State} (hm : s.mode = .run) {page : Nat} (h : 256 ≤ page)
    (body : PageNumber → State → Host.Outcome State Fault Refusal) :
    withPage page body s = .next (deliverFailure .contractViolation 0 s) := by
  unfold withPage
  rw [whenRunning_run hm, pageOperand_of_ge h]
  rfl

/-- Of two operands either can fail its check (R121, R123). -/
theorem withOperand_withOperand_of_none {α β : Type} {x : Option α} {y : Option β} (h : x = none ∨ y = none)
    (body : α → β → State → Host.Outcome State Fault Refusal) (s : State) :
    withOperand x (fun a => withOperand y (body a)) s = .next (deliverFailure .contractViolation 0 s) := by
  rcases h with rfl | rfl
  · rfl
  · cases x with
    | none => rfl
    | some a => rfl

theorem exec_encodeVirtual_of_ge {s : State} (hm : s.mode ≠ .aborted) {page offset : Nat}
    (h : 256 ≤ page ∨ 4096 ≤ offset) :
    exec (.encodeVirtual page offset) s = .next (deliverFailure .contractViolation 0 s) := by
  show execEncodeVirtual page offset s = _
  rw [execEncodeVirtual, whenAccepting_of_ne hm]
  exact withOperand_withOperand_of_none (h.imp pageOperand_of_ge offsetOperand_of_ge) _ s

theorem exec_encodePhysical_of_ge {s : State} (hm : s.mode ≠ .aborted) {frame offset : Nat}
    (h : 16 ≤ frame ∨ 4096 ≤ offset) :
    exec (.encodePhysical frame offset) s = .next (deliverFailure .contractViolation 0 s) := by
  show execEncodePhysical frame offset s = _
  rw [execEncodePhysical, whenAccepting_of_ne hm]
  exact withOperand_withOperand_of_none (h.imp frameOperand_of_ge offsetOperand_of_ge) _ s

theorem loadAllowed_eq_false {p : PageNumber} {s : State} (h : (s.pte p).mapped = false ∨
    ((s.fte (s.pte p).frame).occupied = true ∧ (s.fte (s.pte p).frame).owner ≠ p)) : loadAllowed p s = false := by
  unfold loadAllowed
  rcases h with hmapped | ⟨hocc, howner⟩
  · simp [hmapped]
  · simp [hocc, howner]

theorem exec_load_of_not_allowed {s : State} (hm : s.mode = .run) {p : PageNumber} (h : loadAllowed p s = false) :
    exec (.load p.toNat) s = .next (deliverFailure .contractViolation 0 s) := by
  show execLoad p.toNat s = _
  rw [execLoad, withPage_run hm]
  exact if_neg (by rw [h]; decide)

theorem exec_of_breaksContract {i : Instr} {s : State}
    (hm : s.mode = .run ∨ (s.mode = .off ∧ needsPool i = false)) (hb : breaksContract i s) :
    exec i s = .next (deliverFailure .contractViolation 0 s) := by
  have hne : s.mode ≠ .aborted := by
    rcases hm with hm | ⟨hm, _⟩ <;> rw [hm] <;> decide
  have hrun : needsPool i = true → s.mode = .run := fun hn => hm.resolve_right fun h => by simp [hn] at h
  rcases hb with ⟨page, hp, hge⟩ | ⟨page, offset, rfl, hge⟩ | ⟨frame, offset, rfl, hge⟩ | ⟨p, rfl, hp⟩
  · obtain ⟨body, hbody⟩ := exec_eq_withPage hp
    rw [hbody, withPage_of_ge (hrun (needsPool_of_poolPage hp)) hge]
  · exact exec_encodeVirtual_of_ge hne hge
  · exact exec_encodePhysical_of_ge hne hge
  · exact exec_load_of_not_allowed (hrun rfl) (loadAllowed_eq_false hp)

end Sys2Proof.Machine

namespace Sys2Proof.Proofs

open Sys2Proof Sys2Proof.Machine

/-- Settles O11: the pool check comes first in each of these commands, and nothing but a failed pool check answers
NotInitialized. -/
theorem notInitializedInOff : Obligations.NotInitializedInOff := by
  unfold Obligations.NotInitializedInOff
  refine ⟨fun i s hm hn => exec_of_off hm hn, fun i s t h hst => ?_, rfl⟩
  rcases exec_checked h with ⟨hm, hn, _⟩ | ⟨_, rfl⟩ | hx
  · exact ⟨hm, hn⟩
  · have hc := deliverFailure_hasStatus .contractViolation 0 s
    exact absurd (State.hasStatus_unique hst hc) (by decide)
  · exact absurd hst (hx.not_hasStatus rfl)

/-- Settles O12: each cause fails its check once the mode admits the command, and nothing but a failed operand check
answers ContractViolation. -/
theorem contractViolations : Obligations.ContractViolations := by
  unfold Obligations.ContractViolations
  refine ⟨fun i s hm hb => exec_of_breaksContract hm hb, fun i s t h hst => ?_, rfl⟩
  rcases exec_checked h with ⟨_, _, rfl⟩ | ⟨hb, _⟩ | hx
  · have hn := deliverFailure_hasStatus .notInitialized 0 s
    exact absurd (State.hasStatus_unique hst hn) (by decide)
  · exact hb
  · exact absurd hst (hx.not_hasStatus rfl)

end Sys2Proof.Proofs
end

section
/-!
Words that no row of the opcode table selects (spec/60_exceptions.md R236): the row that each format's acceptance comes
to, so that the decoder accepts no other word (spec/30_encoding.md R91, R100, R103), and the answer at the port.
-/

namespace Sys2Proof

/-! ### The fields of a word and the masks -/

/-- A word is made of its three fields (R90). -/
theorem commandWord_fields (w : CommandWord) : commandWord (opField w) (aField w) (dField w) = w := by
  have hlow : aField w ++ dField w = w.extractLsb' 0 56 := BitVec.extractLsb'_append_extractLsb'_eq_extractLsb' rfl
  unfold commandWord
  rw [BitVec.append_assoc, BitVec.cast_eq, hlow]
  exact BitVec.extractLsb'_append_extractLsb'

/-- A mask of the upper bits cuts out nothing of a word whose upper bits are zero. -/
theorem and_upperMask_eq_zero {m n : Nat} {d : BitVec (m + n)} (h : d.extractLsb' n m = 0#m) :
    d &&& (BitVec.allOnes m ++ 0#n) = 0#(m + n) := by
  have hd : d.extractLsb' n m ++ d.extractLsb' 0 n = d := BitVec.extractLsb'_append_extractLsb'
  rw [← hd, h, BitVec.and_append, BitVec.and_zero, BitVec.zero_and]
  exact BitVec.zero_append_zero

/-! ### A row selects words of its own opcode -/

/-- Every mask covers the opcode (R91). -/
theorem mask_opField {r : OpcodeRow} (h : r ∈ opcodeTable) : r.mask.extractLsb' 56 8 = 0xFF := by
  have hall : ∀ r ∈ opcodeTable, r.mask.extractLsb' 56 8 = 0xFF := by decide
  exact hall r h

theorem opcode_of_selects {r : OpcodeRow} {w : CommandWord} (hr : r ∈ opcodeTable) (h : r.selects w = true) :
    r.opcode = opField w := by
  have hbits : w &&& r.mask = r.opcode ++ (0 : BitVec 56) := beq_iff_eq.1 h
  calc r.opcode = (r.opcode ++ (0 : BitVec 56)).extractLsb' 56 8 := BitVec.extractLsb'_append_eq_left.symm
    _ = opField w &&& r.mask.extractLsb' 56 8 := by rw [← hbits, BitVec.extractLsb'_and, opField]
    _ = opField w := by rw [mask_opField hr]; exact BitVec.and_allOnes

/-! ### What a format accepts is selected -/

/-- Some row of the opcode table selects the word. -/
def Selected (w : CommandWord) : Prop := ∃ r ∈ opcodeTable, r.selects w = true

/-- A row by its position in the table. -/
abbrev tableRow (k : Fin 32) : OpcodeRow := opcodeTable[k.val]'k.isLt

/-- The row of the table with the word's opcode selects it when the mask cuts nothing out of the operand fields. -/
theorem selected_of_row {w : CommandWord} (k : Fin 32) {ma : AField} {md : DField}
    (hmask : (tableRow k).mask = 0xFF#8 ++ ma ++ md)
    (hop : (opField w).toNat = (tableRow k).opcode.toNat)
    (ha : aField w &&& ma = 0) (hd : dField w &&& md = 0) : Selected w := by
  refine ⟨tableRow k, List.getElem_mem k.isLt, ?_⟩
  have hw : commandWord (tableRow k).opcode (aField w) (dField w) = w := by
    rw [← BitVec.eq_of_toNat_eq hop, commandWord_fields]
  have h := Laws.selects_commandWord (tableRow k).mnemonic (tableRow k).opcode _ _ _ _ _ hmask ha hd
  rwa [hw] at h

theorem whenZero_ok {op : BitVec 8} {zero : Bool} {i j : Instr} (h : whenZero op zero i = .ok j) : zero = true := by
  cases zero with
  | true => rfl
  | false => cases h

section
variable {w : CommandWord} {i : Instr} (k : Fin 32)
  (hop : (opField w).toNat = (tableRow k).opcode.toNat)
include hop

theorem selected_of_formatN {j : Instr} (hmask : (tableRow k).mask = 0xFFFFFFFFFFFFFFFF)
    (h : formatN w j = .ok i) : Selected w := by
  obtain ⟨ha, hd⟩ : aField w = 0 ∧ dField w = 0 := by simpa using whenZero_ok h
  exact selected_of_row k (ma := 0xFFFFFF) (md := 0xFFFFFFFF) hmask hop (by rw [ha]; rfl) (by rw [hd]; rfl)

theorem selected_of_dField_zero (hmask : (tableRow k).mask = 0xFF000000FFFFFFFF)
    (hd : (dField w == 0) = true) : Selected w :=
  selected_of_row k (ma := 0) (md := 0xFFFFFFFF) hmask hop BitVec.and_zero (by rw [beq_iff_eq.1 hd]; rfl)

theorem selected_of_formatV {f : AField → Instr} (hmask : (tableRow k).mask = 0xFF000000FFFFFFFF)
    (h : formatV w f = .ok i) : Selected w :=
  selected_of_dField_zero k hop hmask (whenZero_ok h)

theorem selected_of_formatP {f : Nat → Instr} (hmask : (tableRow k).mask = 0xFF000000FFFFFFFF)
    (h : formatP w f = .ok i) : Selected w :=
  selected_of_dField_zero k hop hmask (whenZero_ok h)

theorem selected_of_formatVB1 {f : AField → Byte → Instr}
    (hmask : (tableRow k).mask = 0xFF000000FFFFFF00) (h : formatVB1 w f = .ok i) : Selected w :=
  selected_of_row k (ma := 0) (md := BitVec.allOnes 24 ++ 0#8) hmask hop BitVec.and_zero
    (and_upperMask_eq_zero (beq_iff_eq.1 (whenZero_ok h)))

theorem selected_of_upperHalf_zero (hmask : (tableRow k).mask = 0xFF000000FFFF0000)
    (hd : ((dField w).extractLsb' 16 16 == 0) = true) : Selected w :=
  selected_of_row k (ma := 0) (md := BitVec.allOnes 16 ++ 0#16) hmask hop BitVec.and_zero
    (and_upperMask_eq_zero (beq_iff_eq.1 hd))

theorem selected_of_formatVB2 {f : AField → Byte → Byte → Instr}
    (hmask : (tableRow k).mask = 0xFF000000FFFF0000) (h : formatVB2 w f = .ok i) : Selected w :=
  selected_of_upperHalf_zero k hop hmask (whenZero_ok h)

theorem selected_of_formatPE {f : Nat → PteImage → Instr}
    (hmask : (tableRow k).mask = 0xFF000000FFFF0000) (h : formatPE w f = .ok i) : Selected w :=
  selected_of_upperHalf_zero k hop hmask (whenZero_ok h)

/-- The formats with no must-be-zero bit (VC, VB4, PO, FO): the opcode decides alone. -/
theorem selected_of_opcode (hmask : (tableRow k).mask = 0xFF00000000000000) : Selected w :=
  selected_of_row k (ma := 0) (md := 0) hmask hop BitVec.and_zero BitVec.and_zero

end

/-- The decoder accepts only words that a row selects. -/
theorem selected_of_decode {w : CommandWord} {i : Instr} (h : decode w = .ok i) : Selected w := by
  unfold decode at h
  split at h
  next hop => exact selected_of_formatV 0 hop rfl h
  next hop => exact selected_of_opcode 1 hop rfl
  next hop => exact selected_of_formatVB1 2 hop rfl h
  next hop => exact selected_of_formatVB2 3 hop rfl h
  next hop => exact selected_of_opcode 4 hop rfl
  next hop => exact selected_of_opcode 5 hop rfl
  next hop => exact selected_of_formatN 6 hop rfl h
  next hop => exact selected_of_formatN 7 hop rfl h
  next hop => exact selected_of_formatN 8 hop rfl h
  next hop => exact selected_of_formatN 9 hop rfl h
  next hop => exact selected_of_formatV 10 hop rfl h
  next hop => exact selected_of_opcode 11 hop rfl
  next hop => exact selected_of_formatV 12 hop rfl h
  next hop => exact selected_of_opcode 13 hop rfl
  next hop => exact selected_of_formatV 14 hop rfl h
  next hop => exact selected_of_formatP 15 hop rfl h
  next hop => exact selected_of_formatPE 16 hop rfl h
  next hop => exact selected_of_formatP 17 hop rfl h
  next hop => exact selected_of_formatP 18 hop rfl h
  next hop => exact selected_of_formatP 19 hop rfl h
  next hop => exact selected_of_formatP 20 hop rfl h
  next hop => exact selected_of_formatP 21 hop rfl h
  next hop => exact selected_of_formatP 22 hop rfl h
  next hop => exact selected_of_formatP 23 hop rfl h
  next hop => exact selected_of_formatP 24 hop rfl h
  next hop => exact selected_of_formatP 25 hop rfl h
  next hop => exact selected_of_formatN 26 hop rfl h
  next hop => exact selected_of_formatP 27 hop rfl h
  next hop => exact selected_of_formatP 28 hop rfl h
  next hop => exact selected_of_formatP 29 hop rfl h
  next hop => exact selected_of_formatP 30 hop rfl h
  next hop => exact selected_of_formatN 31 hop rfl h
  next => cases h

theorem decode_error_of_not_selected {w : CommandWord} (h : ∀ r ∈ opcodeTable, r.selects w = false) :
    ∃ e, decode w = .error e := by
  cases hd : decode w with
  | error e => exact ⟨e, rfl⟩
  | ok i =>
    obtain ⟨r, hr, hs⟩ := selected_of_decode hd
    exact absurd ((h r hr).symm.trans hs) (by decide)

/-! ### The opcodes of no row -/

theorem unassigned_opcode_iff (op : BitVec 8) : (∀ r ∈ opcodeTable, r.opcode ≠ op) ↔
    op.toNat = 0x00 ∨ (0x07 ≤ op.toNat ∧ op.toNat ≤ 0x0F) ∨ (0x14 ≤ op.toNat ∧ op.toNat ≤ 0x1F) ∨
      (0x25 ≤ op.toNat ∧ op.toNat ≤ 0x2F) ∨ (0x3B ≤ op.toNat ∧ op.toNat ≤ 0x3F) ∨
      (0x41 ≤ op.toNat ∧ op.toNat ≤ 0x4F) ∨ 0x55 ≤ op.toNat := by
  have hlt := op.isLt
  simp only [opcodeTable, List.forall_mem_append, List.forall_mem_cons, List.not_mem_nil, false_implies, implies_true,
    and_true, ne_eq, ← BitVec.toNat_inj, BitVec.reduceToNat]
  omega

end Sys2Proof

namespace Sys2Proof.Machine

/-! ### The answer at the port -/

theorem step_command {s : State} {w : CommandWord} {answers : IoAnswers} {later : List PortEvent}
    (h : s.input = .command w answers :: later) : step s = runWord w (acceptCommand answers later s) := by
  unfold step
  rw [h]

theorem runWord_of_error {w : CommandWord} {e : DecodeError} (h : decode w = .error e) {s : State}
    (hm : s.mode ≠ .aborted) : runWord w s = .next (deliverFailure .illegalCommand 0 s) := by
  unfold runWord
  rw [h]
  exact whenAccepting_of_ne hm _

end Sys2Proof.Machine

namespace Sys2Proof.Proofs

open Sys2Proof Sys2Proof.Machine

/-- Settles O7: the decoder accepts only words that a row selects, so the port answers IllegalCommand to any other, and
that failure is not fatal, so the block stays as it was accepted. -/
theorem illegalWordsRefused : Obligations.IllegalWordsRefused := by
  unfold Obligations.IllegalWordsRefused
  refine ⟨fun s w answers later hinput hm hrows => ?_, unassigned_opcode_iff, fun w r => opcode_of_selects, rfl⟩
  obtain ⟨e, he⟩ := decode_error_of_not_selected hrows
  refine ⟨_, (step_command hinput).trans (runWord_of_error he hm), rfl, ?_, rfl, rfl, rfl, rfl⟩
  rw [deliverFailure_toBlock _ _ _ rfl, acceptCommand_toBlock]

end Sys2Proof.Proofs
end

section
/-!
MEM_INIT (spec/47_lifecycle.md R220, spec/70_reset_and_hazards.md R261): its dispatch in OFF, what each answer to the
creation of the store makes of it, and the bytes of the pool it creates.
-/

namespace Sys2Proof.Machine

/-! ### The pool created -/

/-- Every frame of a new pool is zeroed (R220). -/
@[simp] theorem frameByte_createPool (s : State) (f : FrameNumber) (o : Offset) : (createPool s).frameByte f o = 0 := rfl

/-- What was asked of the environment does not depend on the pool. -/
theorem Asked.createPool {s t : State} {new : List StoreOp} (h : Asked s t new) : Asked s (createPool t) new :=
  ⟨h.input, h.freeCount, h.ops, h.io, h.answers⟩

/-! ### MEM_INIT in OFF -/

section
variable {s : State}

theorem exec_memInit_of_off (hoff : s.mode = .off) : exec .memInit s =
    deliver (fun _ _ => 0) ((bsCreate s).bind fun _ u => .ok () (createPool u)) := by
  have haccepting : s.mode ≠ .aborted := by rw [hoff]; decide
  have hrunning : s.mode ≠ .run := by rw [hoff]; decide
  show execMemInit s = _
  rw [execMemInit, whenAccepting_of_ne haccepting, if_neg hrunning]

theorem exec_memInit_of_created (hoff : s.mode = .off) (hok : s.io.next.1 = .ok) :
    exec .memInit s = .next (deliverOk 0 [] (createPool { s.attempt .create 0 with bs := [] })) := by
  rw [exec_memInit_of_off hoff, bsCreate_of_ok hok]
  rfl

theorem exec_memInit_of_not_created (hoff : s.mode = .off) (hfail : s.io.next.1 = .fail) :
    exec .memInit s = .next (deliverFailure (.backingStoreUnavailable 0) 0 (s.attempt .create 0)) := by
  rw [exec_memInit_of_off hoff, bsCreate_of_fail hfail]
  rfl

end

end Sys2Proof.Machine

namespace Sys2Proof.Proofs

open Sys2Proof Sys2Proof.Machine

/-- Settles O22: the store is created before the pool, so its answer alone decides between a pool with every table
entry and byte zeroed and a state in which only the attempt is recorded. -/
theorem memInitCreatesPool : Obligations.MemInitCreatesPool := by
  unfold Obligations.MemInitCreatesPool
  refine fun s hoff => ⟨fun hio => ?created, fun hio => ?notCreated⟩
  case created =>
    exact ⟨_, exec_memInit_of_created hoff (IoAnswers.next_of_take_one hio), rfl, rfl, createPool_pte _, createPool_fte _,
      frameByte_createPool _, fun _ _ => rfl, ((asked_attempt hio .create 0).with_bs []).createPool.deliverOk 0 []⟩
  case notCreated =>
    exact ⟨_, exec_memInit_of_not_created hoff (IoAnswers.next_of_take_one hio),
      deliverFailure_backingStoreUnavailable_resp 0 0 _, hoff, fun _ _ => rfl,
      (asked_attempt hio .create 0).deliverFailure _ 0⟩

end Sys2Proof.Proofs
end

section
/-!
The decoder and the encoder as inverses of each other (spec/30_encoding.md sections 1 to 3): what each format of R91 reads
from an assembled word and which words it accepts, then the opcode map of R100 row by row.
-/

namespace Sys2Proof

/-! ### The operands in their fields -/

theorem numberA_toNat {x : Nat} (h : fitsA x = true) : (numberA x).toNat = x :=
  Nat.mod_eq_of_lt (of_decide_eq_true h)

theorem numberD_toNat {x : Nat} (h : fitsD x = true) : (numberD x).toNat = x :=
  Nat.mod_eq_of_lt (of_decide_eq_true h)

@[simp] theorem numberA_of_toNat (a : AField) : numberA a.toNat = a := by
  rw [numberA, BitVec.ofNat_toNat, BitVec.setWidth_eq]

@[simp] theorem numberD_of_toNat (d : DField) : numberD d.toNat = d := by
  rw [numberD, BitVec.ofNat_toNat, BitVec.setWidth_eq]

theorem fitsA_toNat (a : AField) : fitsA a.toNat = true := decide_eq_true a.isLt

theorem fitsD_toNat (d : DField) : fitsD d.toNat = true := decide_eq_true d.isLt

/-- The four bytes of field `D` are read back where they were packed (R97). -/
theorem dByte_packBytes (v1 v2 v3 v4 : Byte) :
    dByte (packBytes v1 v2 v3 v4) 0 = v1 ∧ dByte (packBytes v1 v2 v3 v4) 1 = v2 ∧
      dByte (packBytes v1 v2 v3 v4) 2 = v3 ∧ dByte (packBytes v1 v2 v3 v4) 3 = v4 := by
  unfold dByte packBytes
  refine ⟨BitVec.extractLsb'_append_eq_right, ?_, ?_, ?_⟩
  · rw [BitVec.extractLsb'_append_eq_of_le (by decide)]
    exact BitVec.extractLsb'_append_eq_right
  · rw [BitVec.extractLsb'_append_eq_of_le (by decide), BitVec.extractLsb'_append_eq_of_le (by decide)]
    exact BitVec.extractLsb'_append_eq_right
  · rw [BitVec.extractLsb'_append_eq_of_le (by decide), BitVec.extractLsb'_append_eq_of_le (by decide)]
    exact BitVec.extractLsb'_append_eq_left

/-- Field `D` from its two lowest bytes and its upper half. -/
theorem dField_eq_append (d : DField) : d.extractLsb' 16 16 ++ dByte d 1 ++ dByte d 0 = d := by
  have h1 : d.extractLsb' 16 16 ++ dByte d 1 = d.extractLsb' 8 24 :=
    BitVec.extractLsb'_append_extractLsb'_eq_extractLsb' rfl
  rw [h1]
  exact BitVec.extractLsb'_append_extractLsb'

theorem packBytes_four (d : DField) : packBytes (dByte d 0) (dByte d 1) (dByte d 2) (dByte d 3) = d := by
  have h : dByte d 3 ++ dByte d 2 = d.extractLsb' 16 16 := BitVec.extractLsb'_append_extractLsb'_eq_extractLsb' rfl
  rw [packBytes, h, dField_eq_append]

theorem packBytes_two {d : DField} (h : d.extractLsb' 16 16 = 0) : packBytes (dByte d 0) (dByte d 1) 0 0 = d := by
  have h0 : (0 : Byte) ++ (0 : Byte) = d.extractLsb' 16 16 := h.symm
  rw [packBytes, h0, dField_eq_append]

theorem packBytes_one {d : DField} (h : d.extractLsb' 8 24 = 0) : packBytes (dByte d 0) 0 0 0 = d := by
  have h0 : (0 : Byte) ++ (0 : Byte) ++ (0 : Byte) = d.extractLsb' 8 24 := h.symm
  rw [packBytes, h0]
  exact BitVec.extractLsb'_append_extractLsb'

/-- A PTE image is field `D` when the upper half of `D` is zero (R99). -/
theorem zeroExtend_lowHalf {d : DField} (h : d.extractLsb' 16 16 = 0) : (d.extractLsb' 0 16).zeroExtend 32 = d :=
  (Machine.zeroExtend_lowBits_eq_iff (by decide) (by decide) d).2 h

/-- The image in field `D` leaves its upper half zero and is read back from the lower one (R99). -/
theorem pteImage_halves (e : PteImage) :
    (e.zeroExtend 32).extractLsb' 16 16 = 0 ∧ (e.zeroExtend 32).extractLsb' 0 16 = e := by
  have h : e.zeroExtend 32 = 0#16 ++ e := BitVec.setWidth_eq_append (w := 32) (by decide)
  rw [h]
  exact ⟨BitVec.extractLsb'_append_eq_left, BitVec.extractLsb'_append_eq_right⟩

/-! ### What each format reads from an assembled word -/

section
variable (op : BitVec 8) (a : AField)

theorem formatN_commandWord (i : Instr) : formatN (commandWord op 0 0) i = .ok i := by
  unfold formatN whenZero
  rw [aField_commandWord, dField_commandWord]
  rfl

theorem formatVC_commandWord {n : Nat} (h : fitsD n = true) (f : AField → Nat → Instr) :
    formatVC (commandWord op a (numberD n)) f = .ok (f a n) := by
  unfold formatVC
  rw [aField_commandWord, dField_commandWord, numberD_toNat h]

theorem formatVB1_commandWord (v : Byte) (f : AField → Byte → Instr) :
    formatVB1 (commandWord op a (packBytes v 0 0 0)) f = .ok (f a v) := by
  have hz : (packBytes v 0 0 0).extractLsb' 8 24 = 0 := BitVec.extractLsb'_append_eq_left
  unfold formatVB1 whenZero
  rw [aField_commandWord, dField_commandWord, hz, (dByte_packBytes v 0 0 0).1]
  rfl

theorem formatVB2_commandWord (v w : Byte) (f : AField → Byte → Byte → Instr) :
    formatVB2 (commandWord op a (packBytes v w 0 0)) f = .ok (f a v w) := by
  obtain ⟨h0, h1, _, _⟩ := dByte_packBytes v w 0 0
  have hz : (packBytes v w 0 0).extractLsb' 16 16 = 0 := by
    unfold packBytes
    rw [BitVec.append_assoc, BitVec.cast_eq]
    exact BitVec.extractLsb'_append_eq_left
  unfold formatVB2 whenZero
  rw [aField_commandWord, dField_commandWord, hz, h0, h1]
  rfl

theorem formatVB4_commandWord (v1 v2 v3 v4 : Byte) (f : AField → Byte → Byte → Byte → Byte → Instr) :
    formatVB4 (commandWord op a (packBytes v1 v2 v3 v4)) f = .ok (f a v1 v2 v3 v4) := by
  obtain ⟨h0, h1, h2, h3⟩ := dByte_packBytes v1 v2 v3 v4
  unfold formatVB4
  rw [aField_commandWord, dField_commandWord, h0, h1, h2, h3]

theorem formatP_commandWord {page : Nat} (h : fitsA page = true) (f : Nat → Instr) :
    formatP (commandWord op (numberA page) 0) f = .ok (f page) := by
  unfold formatP whenZero
  rw [aField_commandWord, dField_commandWord, numberA_toNat h]
  rfl

theorem formatPE_commandWord {page : Nat} (h : fitsA page = true) (e : PteImage) (f : Nat → PteImage → Instr) :
    formatPE (commandWord op (numberA page) (e.zeroExtend 32)) f = .ok (f page e) := by
  obtain ⟨hz, he⟩ := pteImage_halves e
  unfold formatPE whenZero
  rw [aField_commandWord, dField_commandWord, numberA_toNat h, hz, he]
  rfl

theorem formatPO_commandWord {x offset : Nat} (h : (fitsA x && fitsD offset) = true) (f : Nat → Nat → Instr) :
    formatPO (commandWord op (numberA x) (numberD offset)) f = .ok (f x offset) := by
  obtain ⟨hx, ho⟩ := Bool.and_eq_true_iff.1 h
  unfold formatPO
  rw [aField_commandWord, dField_commandWord, numberA_toNat hx, numberD_toNat ho]

end

/-- The decoder reads back every command whose number operands fit: the opcode selects the format the encoder wrote. -/
theorem decode_encode {i : Instr} (h : i.wellFormed = true) : decode (encode i) = .ok i := by
  cases i <;> unfold encode decode <;> rw [opField_commandWord]
  case read a | decodeVirtual a | decodePhysical a | translate a => exact formatV_commandWord _ a _
  case readn a n | writez a n => exact formatVC_commandWord _ a h _
  case write a v => exact formatVB1_commandWord _ a v _
  case writew a v1 v2 => exact formatVB2_commandWord _ a v1 v2 _
  case writedw a v1 v2 v3 v4 => exact formatVB4_commandWord _ a v1 v2 v3 v4 _
  case memInit | memDestroy | halt | tick | findFreeFrame | chooseVictim => exact formatN_commandWord _ _
  case encodeVirtual x offset | encodePhysical x offset => exact formatPO_commandWord _ h _
  case ptSet page e => exact formatPE_commandWord _ h e _
  case ptGet page | ptClear page | isUnmapped page | isPresent page | isDirty page | isReferenced page | markDirty page
  | markClean page | markReferenced page | markUnreferenced page | resolve page | ptePage page | evict page | load page =>
    exact formatP_commandWord _ h _

/-! ### Which words each format accepts -/

theorem whenZero_eq_ok {op : BitVec 8} {zero : Bool} {i j : Instr} (h : whenZero op zero i = .ok j) :
    zero = true ∧ i = j := by
  cases zero with
  | true => exact ⟨rfl, Except.ok.inj h⟩
  | false => cases h

/-- A word is put together again from its opcode and its operand fields. -/
theorem commandWord_eq {w : CommandWord} {op : BitVec 8} {a : AField} {d : DField}
    (hop : (opField w).toNat = op.toNat) (ha : a = aField w) (hd : d = dField w) : commandWord op a d = w := by
  rw [ha, hd, ← BitVec.eq_of_toNat_eq hop, commandWord_fields]

/-- The command is well-formed and its word is `w`. -/
def IsWordOf (w : CommandWord) (i : Instr) : Prop := i.wellFormed = true ∧ encode i = w

theorem IsWordOf.of_eq {w w' : CommandWord} {i : Instr} (h : IsWordOf w i) (hw : w = w') : IsWordOf w' i := hw ▸ h

section
variable {w : CommandWord} {i : Instr} (op : BitVec 8) (hop : (opField w).toNat = op.toNat)
include hop

theorem isWordOf_of_formatN {j : Instr} (h : formatN w j = .ok i) (hj : IsWordOf (commandWord op 0 0) j) :
    IsWordOf w i := by
  obtain ⟨hz, rfl⟩ := whenZero_eq_ok h
  obtain ⟨ha, hd⟩ : aField w = 0 ∧ dField w = 0 := by simpa using hz
  exact hj.of_eq (commandWord_eq hop ha.symm hd.symm)

theorem isWordOf_of_formatV {f : AField → Instr} (h : formatV w f = .ok i)
    (hf : ∀ a, IsWordOf (commandWord op a 0) (f a)) : IsWordOf w i := by
  obtain ⟨hz, rfl⟩ := whenZero_eq_ok h
  exact (hf (aField w)).of_eq (commandWord_eq hop rfl (beq_iff_eq.1 hz).symm)

theorem isWordOf_of_formatVC {f : AField → Nat → Instr} (h : formatVC w f = .ok i)
    (hf : ∀ a n, fitsD n = true → IsWordOf (commandWord op a (numberD n)) (f a n)) : IsWordOf w i := by
  obtain rfl := Except.ok.inj h
  exact (hf (aField w) _ (fitsD_toNat (dField w))).of_eq (commandWord_eq hop rfl (numberD_of_toNat _))

theorem isWordOf_of_formatVB1 {f : AField → Byte → Instr} (h : formatVB1 w f = .ok i)
    (hf : ∀ a v, IsWordOf (commandWord op a (packBytes v 0 0 0)) (f a v)) : IsWordOf w i := by
  obtain ⟨hz, rfl⟩ := whenZero_eq_ok h
  exact (hf (aField w) _).of_eq (commandWord_eq hop rfl (packBytes_one (beq_iff_eq.1 hz)))

theorem isWordOf_of_formatVB2 {f : AField → Byte → Byte → Instr} (h : formatVB2 w f = .ok i)
    (hf : ∀ a v1 v2, IsWordOf (commandWord op a (packBytes v1 v2 0 0)) (f a v1 v2)) : IsWordOf w i := by
  obtain ⟨hz, rfl⟩ := whenZero_eq_ok h
  exact (hf (aField w) _ _).of_eq (commandWord_eq hop rfl (packBytes_two (beq_iff_eq.1 hz)))

theorem isWordOf_of_formatVB4 {f : AField → Byte → Byte → Byte → Byte → Instr} (h : formatVB4 w f = .ok i)
    (hf : ∀ a v1 v2 v3 v4, IsWordOf (commandWord op a (packBytes v1 v2 v3 v4)) (f a v1 v2 v3 v4)) :
    IsWordOf w i := by
  obtain rfl := Except.ok.inj h
  exact (hf (aField w) _ _ _ _).of_eq (commandWord_eq hop rfl (packBytes_four _))

theorem isWordOf_of_formatP {f : Nat → Instr} (h : formatP w f = .ok i)
    (hf : ∀ page, fitsA page = true → IsWordOf (commandWord op (numberA page) 0) (f page)) : IsWordOf w i := by
  obtain ⟨hz, rfl⟩ := whenZero_eq_ok h
  exact (hf _ (fitsA_toNat (aField w))).of_eq (commandWord_eq hop (numberA_of_toNat _) (beq_iff_eq.1 hz).symm)

theorem isWordOf_of_formatPE {f : Nat → PteImage → Instr} (h : formatPE w f = .ok i)
    (hf : ∀ page e, fitsA page = true → IsWordOf (commandWord op (numberA page) (e.zeroExtend 32)) (f page e)) :
    IsWordOf w i := by
  obtain ⟨hz, rfl⟩ := whenZero_eq_ok h
  exact (hf _ _ (fitsA_toNat (aField w))).of_eq
    (commandWord_eq hop (numberA_of_toNat _) (zeroExtend_lowHalf (beq_iff_eq.1 hz)))

theorem isWordOf_of_formatPO {f : Nat → Nat → Instr} (h : formatPO w f = .ok i)
    (hf : ∀ x offset, (fitsA x && fitsD offset) = true →
      IsWordOf (commandWord op (numberA x) (numberD offset)) (f x offset)) : IsWordOf w i := by
  obtain rfl := Except.ok.inj h
  exact (hf _ _ (Bool.and_eq_true_iff.2 ⟨fitsA_toNat (aField w), fitsD_toNat (dField w)⟩)).of_eq
    (commandWord_eq hop (numberA_of_toNat _) (numberD_of_toNat _))

end

/-- A word that decodes is the word of the command it decodes to: each row reads its operands from all the bits that its
format leaves free. -/
theorem isWordOf_of_decode {w : CommandWord} {i : Instr} (h : decode w = .ok i) : IsWordOf w i := by
  unfold decode at h
  split at h
  next hop => exact isWordOf_of_formatV 0x01 hop h fun _ => ⟨rfl, rfl⟩
  next hop => exact isWordOf_of_formatVC 0x02 hop h fun _ _ hn => ⟨hn, rfl⟩
  next hop => exact isWordOf_of_formatVB1 0x03 hop h fun _ _ => ⟨rfl, rfl⟩
  next hop => exact isWordOf_of_formatVB2 0x04 hop h fun _ _ _ => ⟨rfl, rfl⟩
  next hop => exact isWordOf_of_formatVB4 0x05 hop h fun _ _ _ _ _ => ⟨rfl, rfl⟩
  next hop => exact isWordOf_of_formatVC 0x06 hop h fun _ _ hn => ⟨hn, rfl⟩
  next hop => exact isWordOf_of_formatN 0x10 hop h ⟨rfl, rfl⟩
  next hop => exact isWordOf_of_formatN 0x11 hop h ⟨rfl, rfl⟩
  next hop => exact isWordOf_of_formatN 0x12 hop h ⟨rfl, rfl⟩
  next hop => exact isWordOf_of_formatN 0x13 hop h ⟨rfl, rfl⟩
  next hop => exact isWordOf_of_formatV 0x20 hop h fun _ => ⟨rfl, rfl⟩
  next hop => exact isWordOf_of_formatPO 0x21 hop h fun _ _ hx => ⟨hx, rfl⟩
  next hop => exact isWordOf_of_formatV 0x22 hop h fun _ => ⟨rfl, rfl⟩
  next hop => exact isWordOf_of_formatPO 0x23 hop h fun _ _ hx => ⟨hx, rfl⟩
  next hop => exact isWordOf_of_formatV 0x24 hop h fun _ => ⟨rfl, rfl⟩
  next hop => exact isWordOf_of_formatP 0x30 hop h fun _ hp => ⟨hp, rfl⟩
  next hop => exact isWordOf_of_formatPE 0x31 hop h fun _ _ hp => ⟨hp, rfl⟩
  next hop => exact isWordOf_of_formatP 0x32 hop h fun _ hp => ⟨hp, rfl⟩
  next hop => exact isWordOf_of_formatP 0x33 hop h fun _ hp => ⟨hp, rfl⟩
  next hop => exact isWordOf_of_formatP 0x34 hop h fun _ hp => ⟨hp, rfl⟩
  next hop => exact isWordOf_of_formatP 0x35 hop h fun _ hp => ⟨hp, rfl⟩
  next hop => exact isWordOf_of_formatP 0x36 hop h fun _ hp => ⟨hp, rfl⟩
  next hop => exact isWordOf_of_formatP 0x37 hop h fun _ hp => ⟨hp, rfl⟩
  next hop => exact isWordOf_of_formatP 0x38 hop h fun _ hp => ⟨hp, rfl⟩
  next hop => exact isWordOf_of_formatP 0x39 hop h fun _ hp => ⟨hp, rfl⟩
  next hop => exact isWordOf_of_formatP 0x3A hop h fun _ hp => ⟨hp, rfl⟩
  next hop => exact isWordOf_of_formatN 0x40 hop h ⟨rfl, rfl⟩
  next hop => exact isWordOf_of_formatP 0x50 hop h fun _ hp => ⟨hp, rfl⟩
  next hop => exact isWordOf_of_formatP 0x51 hop h fun _ hp => ⟨hp, rfl⟩
  next hop => exact isWordOf_of_formatP 0x52 hop h fun _ hp => ⟨hp, rfl⟩
  next hop => exact isWordOf_of_formatP 0x53 hop h fun _ hp => ⟨hp, rfl⟩
  next hop => exact isWordOf_of_formatN 0x54 hop h ⟨rfl, rfl⟩
  next => cases h

/-! ### What a row of the opcode table selects -/

theorem commandWord_and (op mop : BitVec 8) (a ma : AField) (d md : DField) :
    commandWord op a d &&& commandWord mop ma md = commandWord (op &&& mop) (a &&& ma) (d &&& md) := by
  unfold commandWord
  rw [BitVec.and_append, BitVec.and_append]

theorem OpcodeRow.pattern_eq (r : OpcodeRow) : r.pattern = commandWord r.opcode 0 0 := by
  unfold OpcodeRow.pattern commandWord
  rw [BitVec.append_assoc]
  rfl

section
variable {w : CommandWord} {k : Fin 32} (h : (tableRow k).selects w = true)
include h

/-- The operand fields of a word that a row selects keep clear of the row's mask. -/
theorem fields_of_selects {ma : AField} {md : DField} (hmask : (tableRow k).mask = commandWord 0xFF ma md) :
    aField w &&& ma = 0 ∧ dField w &&& md = 0 := by
  have hbits : w &&& (tableRow k).mask = (tableRow k).pattern := beq_iff_eq.1 h
  rw [hmask, OpcodeRow.pattern_eq, ← commandWord_fields w, commandWord_and] at hbits
  constructor
  · simpa using congrArg aField hbits
  · simpa using congrArg dField hbits

theorem dField_zero_of_selects (hmask : (tableRow k).mask = 0xFF000000FFFFFFFF) : dField w = 0 := by
  obtain ⟨_, hd⟩ := fields_of_selects h (ma := 0) (md := BitVec.allOnes 32) hmask
  rwa [BitVec.and_allOnes] at hd

/-- A mask of the upper bits being clear, those bits are zero. -/
theorem upperBits_zero_of_selects (m n : Nat) (hmn : m + n = 32)
    (hmask : (tableRow k).mask = commandWord 0xFF 0 ((BitVec.allOnes m ++ 0#n).cast hmn)) :
    (dField w).extractLsb' n m = 0 := by
  obtain ⟨_, hd⟩ := fields_of_selects h hmask
  have hupper : ((BitVec.allOnes m ++ 0#n).cast hmn).extractLsb' n m = BitVec.allOnes m := by
    rw [BitVec.extractLsb'_cast]
    exact BitVec.extractLsb'_append_eq_left
  have hd := congrArg (BitVec.extractLsb' n m) hd
  rw [BitVec.extractLsb'_and, hupper, BitVec.and_allOnes] at hd
  exact hd.trans BitVec.extractLsb'_zero

theorem formatN_of_selects (hmask : (tableRow k).mask = 0xFFFFFFFFFFFFFFFF) (i : Instr) : formatN w i = .ok i := by
  obtain ⟨ha, hd⟩ := fields_of_selects h (ma := BitVec.allOnes 24) (md := BitVec.allOnes 32) hmask
  rw [BitVec.and_allOnes] at ha hd
  unfold formatN whenZero
  rw [ha, hd]
  rfl

theorem formatV_of_selects (hmask : (tableRow k).mask = 0xFF000000FFFFFFFF) (f : AField → Instr) :
    formatV w f = .ok (f (aField w)) := by
  unfold formatV whenZero
  rw [dField_zero_of_selects h hmask]
  rfl

theorem formatP_of_selects (hmask : (tableRow k).mask = 0xFF000000FFFFFFFF) (f : Nat → Instr) :
    formatP w f = .ok (f (aField w).toNat) := by
  unfold formatP whenZero
  rw [dField_zero_of_selects h hmask]
  rfl

theorem formatVB1_of_selects (hmask : (tableRow k).mask = 0xFF000000FFFFFF00) (f : AField → Byte → Instr) :
    formatVB1 w f = .ok (f (aField w) (dByte (dField w) 0)) := by
  unfold formatVB1 whenZero
  rw [upperBits_zero_of_selects h 24 8 rfl hmask]
  rfl

theorem formatVB2_of_selects (hmask : (tableRow k).mask = 0xFF000000FFFF0000) (f : AField → Byte → Byte → Instr) :
    formatVB2 w f = .ok (f (aField w) (dByte (dField w) 0) (dByte (dField w) 1)) := by
  unfold formatVB2 whenZero
  rw [upperBits_zero_of_selects h 16 16 rfl hmask]
  rfl

theorem formatPE_of_selects (hmask : (tableRow k).mask = 0xFF000000FFFF0000) (f : Nat → PteImage → Instr) :
    formatPE w f = .ok (f (aField w).toNat ((dField w).extractLsb' 0 16)) := by
  unfold formatPE whenZero
  rw [upperBits_zero_of_selects h 16 16 rfl hmask]
  rfl

/-- The command has the mnemonic of the row that selects its word: the row's opcode brings the decoder to its format,
which accepts what the row's mask lets through. -/
theorem decode_of_selects : ∃ i, decode w = .ok i ∧ (tableRow k).mnemonic = i.mnemonic := by
  unfold decode
  rw [← opcode_of_selects (List.getElem_mem k.isLt) h]
  match k, h with
  | 0, h => exact ⟨_, formatV_of_selects h rfl _, rfl⟩
  | 1, _ => exact ⟨_, rfl, rfl⟩
  | 2, h => exact ⟨_, formatVB1_of_selects h rfl _, rfl⟩
  | 3, h => exact ⟨_, formatVB2_of_selects h rfl _, rfl⟩
  | 4, _ => exact ⟨_, rfl, rfl⟩
  | 5, _ => exact ⟨_, rfl, rfl⟩
  | 6, h => exact ⟨_, formatN_of_selects h rfl _, rfl⟩
  | 7, h => exact ⟨_, formatN_of_selects h rfl _, rfl⟩
  | 8, h => exact ⟨_, formatN_of_selects h rfl _, rfl⟩
  | 9, h => exact ⟨_, formatN_of_selects h rfl _, rfl⟩
  | 10, h => exact ⟨_, formatV_of_selects h rfl _, rfl⟩
  | 11, _ => exact ⟨_, rfl, rfl⟩
  | 12, h => exact ⟨_, formatV_of_selects h rfl _, rfl⟩
  | 13, _ => exact ⟨_, rfl, rfl⟩
  | 14, h => exact ⟨_, formatV_of_selects h rfl _, rfl⟩
  | 15, h => exact ⟨_, formatP_of_selects h rfl _, rfl⟩
  | 16, h => exact ⟨_, formatPE_of_selects h rfl _, rfl⟩
  | 17, h => exact ⟨_, formatP_of_selects h rfl _, rfl⟩
  | 18, h => exact ⟨_, formatP_of_selects h rfl _, rfl⟩
  | 19, h => exact ⟨_, formatP_of_selects h rfl _, rfl⟩
  | 20, h => exact ⟨_, formatP_of_selects h rfl _, rfl⟩
  | 21, h => exact ⟨_, formatP_of_selects h rfl _, rfl⟩
  | 22, h => exact ⟨_, formatP_of_selects h rfl _, rfl⟩
  | 23, h => exact ⟨_, formatP_of_selects h rfl _, rfl⟩
  | 24, h => exact ⟨_, formatP_of_selects h rfl _, rfl⟩
  | 25, h => exact ⟨_, formatP_of_selects h rfl _, rfl⟩
  | 26, h => exact ⟨_, formatN_of_selects h rfl _, rfl⟩
  | 27, h => exact ⟨_, formatP_of_selects h rfl _, rfl⟩
  | 28, h => exact ⟨_, formatP_of_selects h rfl _, rfl⟩
  | 29, h => exact ⟨_, formatP_of_selects h rfl _, rfl⟩
  | 30, h => exact ⟨_, formatP_of_selects h rfl _, rfl⟩
  | 31, h => exact ⟨_, formatN_of_selects h rfl _, rfl⟩
  | ⟨n + 32, hn⟩, _ => exact absurd hn (by omega)

end

theorem tableRow_of_mem {r : OpcodeRow} (h : r ∈ opcodeTable) : ∃ k : Fin 32, r = tableRow k := by
  obtain ⟨n, hn, rfl⟩ := List.getElem_of_mem h
  exact ⟨⟨n, hn⟩, rfl⟩

end Sys2Proof
namespace Sys2Proof.Proofs

open Sys2Proof Sys2Proof.Machine

/-- Settles O1: the opcode brings the decoder to the format the encoder wrote, and each format reads its operands back. -/
theorem decodeEncodeRoundTrip : Obligations.DecodeEncodeRoundTrip := by
  unfold Obligations.DecodeEncodeRoundTrip
  exact fun _ => decode_encode

/-- Settles O2: the bits a format does not read are checked to be zero, so the encoder writes every bit of the word. -/
theorem encodeDecodeRoundTrip : Obligations.EncodeDecodeRoundTrip := by
  unfold Obligations.EncodeDecodeRoundTrip
  exact fun _ _ => isWordOf_of_decode

/-- Settles O3: a row's mask lets through exactly the words that its format accepts, and two rows that select one word
have that word's opcode. -/
theorem decodeFollowsOpcodeTable : Obligations.DecodeFollowsOpcodeTable := by
  unfold Obligations.DecodeFollowsOpcodeTable
  refine ⟨fun w => ⟨fun ⟨_, hi⟩ => selected_of_decode hi, fun ⟨r, hr, hs⟩ => ?_⟩, fun w i r hi hr hs => ?_⟩
  · obtain ⟨k, rfl⟩ := tableRow_of_mem hr
    obtain ⟨i, hi, _⟩ := decode_of_selects hs
    exact ⟨i, hi⟩
  · obtain ⟨k, rfl⟩ := tableRow_of_mem hr
    obtain ⟨j, hj, hname⟩ := decode_of_selects hs
    obtain rfl := Except.ok.inj (hi.symm.trans hj)
    exact hname

/-- Settles O4: the decoder evaluated on the nine words. -/
theorem sampleWordsDecode : Obligations.SampleWordsDecode := by
  unfold Obligations.SampleWordsDecode
  decide

end Sys2Proof.Proofs
end

section
/-!
The packed images of the two tables' entries (spec/10_state.md R31, R35).
-/

namespace Sys2Proof.Machine

/-- Cutting one bit out is reading it. -/
theorem extractLsb'_one {w : Nat} (x : BitVec w) (k : Nat) : x.extractLsb' k 1 = BitVec.ofBool (x.getLsbD k) := by
  ext j hj
  obtain rfl : j = 0 := by omega
  simp

theorem getLsbD_of_extractLsb' {w : Nat} {x : BitVec w} {k : Nat} {b : Bool} (h : x.extractLsb' k 1 = BitVec.ofBool b) :
    x.getLsbD k = b :=
  BitVec.ofBool_eq_iff_eq.1 ((extractLsb'_one x k).symm.trans h)

/-- The places of the six fields in the image (R31). -/
theorem Pte.image_fields (e : Pte) :
    e.image.extractLsb' 0 4 = e.frame ∧ e.image.getLsbD 4 = e.present ∧ e.image.getLsbD 5 = e.mapped ∧
      e.image.getLsbD 6 = e.dirty ∧ e.image.getLsbD 7 = e.referenced ∧ e.image.extractLsb' 8 8 = e.age := by
  unfold Pte.image
  refine ⟨BitVec.extractLsb'_append_eq_right, getLsbD_of_extractLsb' ?_, getLsbD_of_extractLsb' ?_,
    getLsbD_of_extractLsb' ?_, getLsbD_of_extractLsb' ?_, ?_⟩
  · rw [BitVec.extractLsb'_append_eq_of_le (by decide)]
    exact BitVec.extractLsb'_append_eq_right
  · iterate 2 rw [BitVec.extractLsb'_append_eq_of_le (by decide)]
    exact BitVec.extractLsb'_append_eq_right
  · iterate 3 rw [BitVec.extractLsb'_append_eq_of_le (by decide)]
    exact BitVec.extractLsb'_append_eq_right
  · iterate 4 rw [BitVec.extractLsb'_append_eq_of_le (by decide)]
    exact BitVec.extractLsb'_append_eq_right
  · iterate 4 rw [BitVec.extractLsb'_append_eq_of_le (by decide)]
    exact BitVec.extractLsb'_append_eq_left

theorem Pte.ofImage_image (e : Pte) : Pte.ofImage e.image = e := by
  obtain ⟨hframe, hpresent, hmapped, hdirty, hreferenced, hage⟩ := e.image_fields
  unfold Pte.ofImage
  rw [hframe, hpresent, hmapped, hdirty, hreferenced, hage]

/-- Two cuts of a word, the lower one a single bit, are one cut. -/
theorem extractLsb'_append_bit {w : Nat} (x : BitVec w) (k n : Nat) :
    x.extractLsb' (k + 1) n ++ x.extractLsb' k 1 = x.extractLsb' k (n + 1) :=
  BitVec.extractLsb'_append_extractLsb'_eq_extractLsb' rfl

theorem Pte.image_ofImage (b : PteImage) : (Pte.ofImage b).image = b := by
  unfold Pte.image Pte.ofImage
  simp only [← extractLsb'_one]
  rw [extractLsb'_append_bit b 7 8, extractLsb'_append_bit b 6 9, extractLsb'_append_bit b 5 10,
    extractLsb'_append_bit b 4 11]
  exact BitVec.extractLsb'_append_extractLsb'

/-- The places of the two fields in the image (R35). -/
theorem Fte.image_fields (e : Fte) : e.image.extractLsb' 0 8 = e.owner ∧ e.image.getLsbD 8 = e.occupied := by
  unfold Fte.image
  exact ⟨BitVec.extractLsb'_append_eq_right, getLsbD_of_extractLsb' BitVec.extractLsb'_append_eq_left⟩

theorem Fte.ofImage_image (e : Fte) : Fte.ofImage e.image = e := by
  obtain ⟨howner, hoccupied⟩ := e.image_fields
  unfold Fte.ofImage
  rw [howner, hoccupied]

theorem Fte.image_ofImage (b : FteImage) : (Fte.ofImage b).image = b := by
  unfold Fte.image Fte.ofImage
  rw [← extractLsb'_one]
  exact BitVec.extractLsb'_append_extractLsb'

end Sys2Proof.Machine

namespace Sys2Proof.Proofs

open Sys2Proof Sys2Proof.Machine

/-- Settles O5: the fields are consecutive cuts of the image, so the image is their append and nothing is lost. -/
theorem packedImages : Obligations.PackedImages := by
  unfold Obligations.PackedImages
  exact ⟨Pte.image_fields, Pte.ofImage_image, Pte.image_ofImage, Fte.image_fields, Fte.ofImage_image,
    Fte.image_ofImage⟩

end Sys2Proof.Proofs
end

section
/-!
One step of the machine (spec/00_scope.md R14, R77; spec/60_exceptions.md R246; spec/70_reset_and_hazards.md R260), and
what a command can answer in each mode.
-/

namespace Sys2Proof.Machine

/-! ### The step, event by event -/

theorem step_idle {s : State} (h : s.input = []) : step s = .next s := by
  unfold step
  rw [h]

theorem step_powerOn {s : State} {later : List PortEvent} (h : s.input = .powerOn :: later) :
    step s = .next (powerOnReset { s with input := later }) := by
  unfold step
  rw [h]

theorem runWord_of_ok {w : CommandWord} {i : Instr} (h : decode w = .ok i) (s : State) : runWord w s = exec i s := by
  unfold runWord
  rw [h]

theorem whenAccepting_of_aborted {s : State} (h : s.mode = .aborted)
    (body : State → Host.Outcome State Fault Refusal) : whenAccepting body s = .fault .notAccepted := by
  unfold whenAccepting
  rw [h]

theorem whenRunning_of_aborted {s : State} (h : s.mode = .aborted)
    (body : State → Host.Outcome State Fault Refusal) : whenRunning body s = .fault .notAccepted := by
  unfold whenRunning
  rw [h]

/-- The commands that do not need the pool are accepted in OFF and in RUN alike. -/
theorem exec_eq_whenAccepting {i : Instr} (h : needsPool i = false) : ∃ body, exec i = whenAccepting body := by
  cases i with
  | memInit => exact ⟨_, rfl⟩
  | decodeVirtual a => exact ⟨_, rfl⟩
  | encodeVirtual page offset => exact ⟨_, rfl⟩
  | decodePhysical a => exact ⟨_, rfl⟩
  | encodePhysical frame offset => exact ⟨_, rfl⟩
  | _ => cases h

/-- No command is accepted in ABORTED (R246). -/
theorem exec_of_aborted (i : Instr) {s : State} (h : s.mode = .aborted) : exec i s = .fault .notAccepted := by
  cases hn : needsPool i with
  | true =>
    obtain ⟨body, hbody⟩ := exec_eq_whenRunning hn
    rw [hbody, whenRunning_of_aborted h]
  | false =>
    obtain ⟨body, hbody⟩ := exec_eq_whenAccepting hn
    rw [hbody, whenAccepting_of_aborted h]

/-- Nor is a word that is no command (R246). -/
theorem runWord_of_aborted (w : CommandWord) {s : State} (h : s.mode = .aborted) :
    runWord w s = .fault .notAccepted := by
  unfold runWord
  cases decode w with
  | ok i => exact exec_of_aborted i h
  | error e => exact whenAccepting_of_aborted h _

/-- Everything a step can do (R14, R103, R236, R260). -/
theorem step_cases {s t : State} (h : step s = .next t) :
    t = s ∨ (∃ later, t = powerOnReset { s with input := later }) ∨
    ∃ w answers later, s.input = .command w answers :: later ∧
      ((∃ i, decode w = .ok i ∧ exec i (acceptCommand answers later s) = .next t) ∨
        (s.mode ≠ .aborted ∧ t = deliverFailure .illegalCommand 0 (acceptCommand answers later s))) := by
  cases hinput : s.input with
  | nil =>
    rw [step_idle hinput] at h
    cases h
    exact .inl rfl
  | cons e later =>
    cases e with
    | powerOn =>
      rw [step_powerOn hinput] at h
      cases h
      exact .inr (.inl ⟨later, rfl⟩)
    | command w answers =>
      rw [step_command hinput] at h
      refine .inr (.inr ⟨w, answers, later, rfl, ?_⟩)
      cases hw : decode w with
      | ok i => exact .inl ⟨i, rfl, (runWord_of_ok hw _).symm.trans h⟩
      | error e =>
        by_cases hm : s.mode = .aborted
        · rw [runWord_of_aborted w (s := acceptCommand answers later s) hm] at h
          cases h
        · rw [runWord_of_error hw (s := acceptCommand answers later s) hm] at h
          cases h
          exact .inr ⟨hm, rfl⟩

/-- A word of 64 bits placed by `withFetchWord` is that word. -/
theorem withFetchWord_input (s : State) (w : CommandWord) :
    (s.withFetchWord 64 w.toNat).input = .command w s.io :: s.input := by
  have hw : BitVec.ofNat 64 (w.toNat % 2 ^ 64) = w := by
    rw [Nat.mod_eq_of_lt w.isLt, BitVec.ofNat_toNat, BitVec.setWidth_eq]
  unfold State.withFetchWord
  rw [hw]

end Sys2Proof.Machine

namespace Sys2Proof.Proofs

open Sys2Proof Sys2Proof.Machine

/-- Settles O6: accepting the offer touches the ports only, and the word that `withFetchWord` places is the first offer. -/
theorem stepRunsDecodedCommand : Obligations.StepRunsDecodedCommand := by
  unfold Obligations.StepRunsDecodedCommand
  refine ⟨fun s w answers later i hinput hw => ?_, fun s answers later => ⟨rfl, rfl, rfl, rfl, rfl, rfl⟩,
    fun s w i hw => ?_⟩
  · rw [step_command hinput, runWord_of_ok hw]
  · rw [step_command (withFetchWord_input s w), runWord_of_ok hw]
    rfl

/-- Settles O8: the first event alone decides, and in ABORTED every meaning starts with a check that fails. -/
theorem portOutsideCommands : Obligations.PortOutsideCommands := by
  unfold Obligations.PortOutsideCommands
  refine ⟨fun s => step_idle, fun s later hinput => ?_, fun s w answers later hinput hm => ?_,
    fun i s => exec_of_aborted i⟩
  · exact ⟨_, step_powerOn hinput, powerOnReset_mode _, powerOnReset_input _, powerOnReset_resp _, rfl⟩
  · rw [step_command hinput]
    exact runWord_of_aborted w (s := acceptCommand answers later s) hm

end Sys2Proof.Proofs
end

section
/-!
What every command and every step keeps (spec/10_state.md R36, R37, R40 to R45, R64), said once for any property of the
tables and the memories that the operations of the fault path keep, then for the four of the statements: canonical
memories, INV1, well-formedness, soundness.
-/

namespace Sys2Proof.Machine

/-! ### States that differ in mode, ports and response only -/

/-- The tables and the memories are the same. -/
structure SameContents (s t : State) : Prop where
  pt : t.pt = s.pt
  ft : t.ft = s.ft
  pm : t.pm = s.pm
  bs : t.bs = s.bs

theorem sameContents_deliverOk (value : BitVec 32) (data : List Byte) (s : State) :
    SameContents s (deliverOk value data s) := ⟨rfl, rfl, rfl, rfl⟩

theorem sameContents_deliverFailure (k : Failure) (n : Nat) (s : State) :
    SameContents s (deliverFailure k n s) := ⟨rfl, rfl, rfl, rfl⟩

theorem sameContents_acceptCommand (answers : IoAnswers) (later : List PortEvent) (s : State) :
    SameContents s (acceptCommand answers later s) := ⟨rfl, rfl, rfl, rfl⟩

section
variable {s t : State} (h : SameContents s t)
include h

theorem SameContents.pte (p : PageNumber) : t.pte p = s.pte p := by
  unfold State.pte
  simp only [h.pt]

theorem SameContents.fte (f : FrameNumber) : t.fte f = s.fte f := by
  unfold State.fte
  simp only [h.ft]

theorem SameContents.canonical (hs : s.MemoriesCanonical) : t.MemoriesCanonical := MemoriesCanonical_of_eq hs h.pm h.bs

theorem SameContents.inv1 (hs : s.inv1) : t.inv1 := fun p => by
  rw [h.pte]
  exact hs p

theorem SameContents.wellFormed (hs : s.WellFormed) : t.WellFormed := wellFormed_of_eq hs h.pte h.fte

theorem SameContents.sound (hs : Sound s) : Sound t ∧ ∀ va, t.vm va = s.vm va := sound_of_eq hs h.pt h.ft h.pm h.bs

end

/-! ### The commands in OFF and in RUN -/

/-- A command in OFF leaves the tables and the memories alone, unless it is a MEM_INIT that succeeds. -/
theorem answered_of_off {i : Instr} {s t : State} (h : Answered i s t) (hm : s.mode = .off) :
    (t.mode = .off ∧ SameContents s t) ∨
      (i = .memInit ∧ t = deliverOk 0 [] (createPool { s.attempt .create 0 with bs := [] })) := by
  cases h with
  | created hm' hi => exact .inr ⟨rfl, rfl⟩
  | notCreated hm' hi => exact .inl ⟨hm, rfl, rfl, rfl, rfl⟩
  | notInitialized hm' hn => exact .inl ⟨hm, rfl, rfl, rfl, rfl⟩
  | contract hm' hb => exact .inl ⟨hm, rfl, rfl, rfl, rfl⟩
  | observed v hm' ho => exact .inl ⟨hm, rfl, rfl, rfl, rfl⟩
  | _ => exact absurd (hm.symm.trans ‹s.mode = .run›) (by decide)

/-- The commands that store bytes (R201). -/
def storesBytes : Instr → Bool
  | .write _ _ => true
  | .writew _ _ _ => true
  | .writedw _ _ _ _ _ => true
  | .writez _ _ => true
  | _ => false

/-- A property of the tables and the memories that every command of a class keeps in RUN, as facts about the operations
the commands are built from. The commands outside of the class may be any of those that write an entry unconditionally,
LOAD and the commands that store bytes. -/
structure KeptByCommands (P : State → Prop) (allowed : Instr → Bool) : Prop where
  congr : ∀ {s t}, SameContents s t → P s → P t
  ptSet : ∀ s p e, allowed (.ptSet p.toNat e) = true → P s → P (s.setPte p (Pte.installed e))
  ptClear : ∀ s p, allowed (.ptClear p.toNat) = true → P s → P (s.setPte p Pte.zero)
  markDirty : ∀ s p, allowed (.markDirty p.toNat) = true → P s → P (s.setPte p (s.pte p).markDirty)
  markClean : ∀ s p, allowed (.markClean p.toNat) = true → P s → P (s.setPte p (s.pte p).markClean)
  markReferenced : ∀ s p, allowed (.markReferenced p.toNat) = true → P s → P (s.markReferenced p)
  markUnreferenced : ∀ s p, P s → P (s.setPte p (s.pte p).markUnreferenced)
  tick : ∀ s, P s → P { s with pt := mapTable s.pt Pte.markUnreferenced }
  evict : ∀ s p, P s → (evict p s).Sat (fun _ => P) (fun _ => P)
  load : ∀ s p, allowed (.load p.toNat) = true → P s → loadAllowed p s = true →
    (load p s).Sat (fun _ => P) (fun _ => P)
  resolve : ∀ s p, P s → (resolve p s).Sat (fun _ => P) (fun _ => P)
  readByte : ∀ s va, P s → (readByte va s).Sat (fun _ => P) (fun _ => P)
  writeByte : ∀ s va v i, storesBytes i = true → allowed i = true → P s →
    (writeByte va v s).Sat (fun _ => P) (fun _ => P)

section
variable {P : State → Prop} {allowed : Instr → Bool} (h : KeptByCommands P allowed)
include h

theorem KeptByCommands.ptePage {s : State} (hs : P s) (p : PageNumber) :
    (ptePage p s).Sat (fun _ => P) (fun _ => P) := by
  unfold Machine.ptePage
  split
  · exact hs
  · exact h.resolve s p hs

theorem KeptByCommands.evictEach (l : List PageNumber) {s : State} (hs : P s) :
    (evictEach l s).Sat (fun _ => P) (fun _ => P) := by
  induction l generalizing s with
  | nil => exact hs
  | cons p l ih => exact sat_bind (h.evict s p hs) fun _ _ ht => ih ht

theorem KeptByCommands.readLoop (n : Nat) (va : VirtualAddress) (m : Nat) (acc : List Byte) {s : State} (hs : P s) :
    (readLoop n va m acc s).Sat (fun _ => P) (fun _ _ => P) := by
  induction n generalizing va m acc s with
  | zero => exact hs
  | succ n ih =>
    have hb := h.readByte s va hs
    unfold Machine.readLoop
    cases hr : Machine.readByte va s with
    | ok b t => rw [hr] at hb; exact ih _ _ _ hb
    | raise k t => rw [hr] at hb; exact hb

theorem KeptByCommands.writeLoop {i : Instr} (hw : storesBytes i = true) (hi : allowed i = true) (vs : List Byte)
    (va : VirtualAddress) (m : Nat) {s : State} (hs : P s) :
    (writeLoop vs va m s).Sat (fun _ => P) (fun _ _ => P) := by
  induction vs generalizing va m s with
  | nil => exact hs
  | cons v vs ih =>
    have hb := h.writeByte s va v i hw hi hs
    unfold Machine.writeLoop
    cases hr : Machine.writeByte va v s with
    | ok b t => rw [hr] at hb; exact ih _ _ hb
    | raise k t => rw [hr] at hb; exact hb

theorem KeptByCommands.deliverOk {u : State} (hu : P u) (value : BitVec 32) (data : List Byte) :
    P (deliverOk value data u) := h.congr (sameContents_deliverOk value data u) hu

theorem KeptByCommands.deliverFailure {u : State} (hu : P u) (k : Failure) (n : Nat) : P (deliverFailure k n u) :=
  h.congr (sameContents_deliverFailure k n u) hu

end

theorem Res.Sat.of_ok {α : Type} {r : Res α} {Q : α → State → Prop} {E : Failure → State → Prop} {a : α} {u : State}
    (h : r.Sat Q E) (hr : r = .ok a u) : Q a u := by
  subst hr
  exact h

theorem Res.Sat.of_raise {α : Type} {r : Res α} {Q : α → State → Prop} {E : Failure → State → Prop} {k : Failure}
    {u : State} (h : r.Sat Q E) (hr : r = .raise k u) : E k u := by
  subst hr
  exact h

theorem LoopRes.Sat.of_done {r : LoopRes} {Q : List Byte → State → Prop} {E : Nat → Failure → State → Prop}
    {data : List Byte} {u : State} (h : r.Sat Q E) (hr : r = .done data u) : Q data u := by
  subst hr
  exact h

theorem LoopRes.Sat.of_stopped {r : LoopRes} {Q : List Byte → State → Prop} {E : Nat → Failure → State → Prop} {n : Nat}
    {k : Failure} {u : State} (h : r.Sat Q E) (hr : r = .stopped n k u) : E n k u := by
  subst hr
  exact h

theorem storesBytes_of_sequence {i : Instr} {x : AField × List Byte} (h : sequence i = some x) :
    storesBytes i = true := by
  cases i with
  | writew a v1 v2 => rfl
  | writedw a v1 v2 v3 v4 => rfl
  | writez a n => rfl
  | _ => cases h

/-- A command of the class keeps the property in RUN, or releases the pool of a state that has it. -/
theorem KeptByCommands.answered {P : State → Prop} {allowed : Instr → Bool} (h : KeptByCommands P allowed) {i : Instr}
    {s t : State} (ha : Answered i s t) (hi : allowed i = true) (hrun : s.mode = .run) (hs : P s) :
    P t ∨ ∃ u, P u ∧ t = Machine.deliverOk 0 [] (releasePool u) := by
  cases ha with
  | notInitialized hm hn => exact .inl (h.deliverFailure hs _ _)
  | contract hm hb => exact .inl (h.deliverFailure hs _ _)
  | observed v hm ho => exact .inl (h.deliverOk hs _ _)
  | noVictim hm hv => exact .inl (h.deliverFailure hs _ _)
  | ptSet p e hm => exact .inl (h.deliverOk (h.ptSet s p e hi hs) _ _)
  | ptClear p hm => exact .inl (h.deliverOk (h.ptClear s p hi hs) _ _)
  | markDirty p hm => exact .inl (h.deliverOk (h.markDirty s p hi hs) _ _)
  | markClean p hm => exact .inl (h.deliverOk (h.markClean s p hi hs) _ _)
  | markReferenced p hm => exact .inl (h.deliverOk (h.markReferenced s p hi hs) _ _)
  | markUnreferenced p hm => exact .inl (h.deliverOk (h.markUnreferenced s p hs) _ _)
  | tick hm => exact .inl (h.deliverOk (h.tick s hs) _ _)
  | reinit hm => exact .inl (h.deliverFailure hs _ _)
  | created hm hio => exact absurd (hrun.symm.trans hm) (by decide)
  | notCreated hm hio => exact absurd (hrun.symm.trans hm) (by decide)
  | destroyed hm => exact .inr ⟨s, hs, rfl⟩
  | halted hm hr => exact .inr ⟨_, (h.evictEach allPages hs).of_ok hr, rfl⟩
  | haltStopped hm hr => exact .inl (h.deliverFailure ((h.evictEach allPages hs).of_raise hr) _ _)
  | evicted p hm hr => exact .inl (h.deliverOk ((h.evict s p hs).of_ok hr) _ _)
  | evictStopped p hm hr => exact .inl (h.deliverFailure ((h.evict s p hs).of_raise hr) _ _)
  | loaded p hm hal hr => exact .inl (h.deliverOk ((h.load s p hi hs hal).of_ok hr) _ _)
  | loadStopped p hm hal hr => exact .inl (h.deliverFailure ((h.load s p hi hs hal).of_raise hr) _ _)
  | resolved p hm hr => exact .inl (h.deliverOk ((h.resolve s p hs).of_ok hr) _ _)
  | resolveStopped p hm hr => exact .inl (h.deliverFailure ((h.resolve s p hs).of_raise hr) _ _)
  | handled p hm hr => exact .inl (h.deliverOk ((h.ptePage hs p).of_ok hr) _ _)
  | handleStopped p hm hr => exact .inl (h.deliverFailure ((h.ptePage hs p).of_raise hr) _ _)
  | byteRead a hm hr => exact .inl (h.deliverOk ((h.readByte s _ hs).of_ok hr) _ _)
  | readStopped a hm hr => exact .inl (h.deliverFailure ((h.readByte s _ hs).of_raise hr) _ _)
  | byteWritten a v hm hr => exact .inl (h.deliverOk ((h.writeByte s _ v _ rfl hi hs).of_ok hr) _ _)
  | writeStopped a v hm hr => exact .inl (h.deliverFailure ((h.writeByte s _ v _ rfl hi hs).of_raise hr) _ _)
  | bytesRead a n hm hr => exact .inl (h.deliverOk ((h.readLoop n _ 0 [] hs).of_done hr) _ _)
  | readnStopped a n hm hr => exact .inl (h.deliverFailure ((h.readLoop n _ 0 [] hs).of_stopped hr) _ _)
  | bytesWritten hseq hm hr =>
    exact .inl (h.deliverOk ((h.writeLoop (storesBytes_of_sequence hseq) hi _ _ 0 hs).of_done hr) _ _)
  | sequenceStopped hseq hm hr =>
    exact .inl (h.deliverFailure ((h.writeLoop (storesBytes_of_sequence hseq) hi _ _ 0 hs).of_stopped hr) _ _)

/-- Where the pool exists after a command in RUN, the property is kept. -/
theorem KeptByCommands.exec {P : State → Prop} {allowed : Instr → Bool} (h : KeptByCommands P allowed) {i : Instr}
    {s t : State} (hx : exec i s = .next t) (hi : allowed i = true) (hrun : s.mode = .run) (hs : P s)
    (ht : t.mode = .run) : P t := by
  rcases h.answered (exec_answered hx) hi hrun hs with ht' | ⟨u, _, rfl⟩
  · exact ht'
  · cases ht

/-! ### The canonical form of the memories -/

theorem keptByUpdates_memoriesCanonical : KeptByUpdates State.MemoriesCanonical where
  attempt _ _ _ h := MemoriesCanonical_of_eq h rfl rfl
  setPte _ _ _ h := MemoriesCanonical_of_eq h rfl rfl
  dropPage _ p h := canonical_dropPage h p
  storePage s p data hd h := ((keptByUpdates_canonical s).storePage s p data hd ⟨.refl s, h⟩).2
  fillFrame s p data hd h := ((keptByUpdates_canonical s).fillFrame s p data hd ⟨.refl s, h⟩).2
  memWrite _ pa v h := canonical_memWrite h pa v
  canonical _ h := h

theorem keptByCommands_canonical : KeptByCommands State.MemoriesCanonical (fun _ => true) where
  congr := SameContents.canonical
  ptSet _ _ _ _ h := MemoriesCanonical_of_eq h rfl rfl
  ptClear _ _ _ h := MemoriesCanonical_of_eq h rfl rfl
  markDirty _ _ _ h := MemoriesCanonical_of_eq h rfl rfl
  markClean _ _ _ h := MemoriesCanonical_of_eq h rfl rfl
  markReferenced _ _ _ h := MemoriesCanonical_of_eq h rfl rfl
  markUnreferenced _ _ h := MemoriesCanonical_of_eq h rfl rfl
  tick _ h := MemoriesCanonical_of_eq h rfl rfl
  evict _ p h := keptByUpdates_memoriesCanonical.evict h p
  load _ p _ h _ := keptByUpdates_memoriesCanonical.load h p
  resolve _ p h := keptByUpdates_memoriesCanonical.resolve h p
  readByte _ va h := keptByUpdates_memoriesCanonical.readByte h va
  writeByte _ va v _ _ _ h := keptByUpdates_memoriesCanonical.writeByte h va v

/-- A new pool has no listed byte. -/
theorem canonical_createPool (s : State) : (createPool { s with bs := [] }).MemoriesCanonical := ⟨rfl, rfl, rfl, rfl⟩

/-- Every command keeps the memories canonical. -/
theorem exec_canonical {i : Instr} {s t : State} (h : exec i s = .next t) (hs : s.MemoriesCanonical) :
    t.MemoriesCanonical := by
  have ha := exec_answered h
  cases hm : s.mode with
  | off =>
    rcases answered_of_off ha hm with ⟨_, hc⟩ | ⟨_, rfl⟩
    · exact hc.canonical hs
    · exact (sameContents_deliverOk _ _ _).canonical (canonical_createPool _)
  | run =>
    rcases keptByCommands_canonical.answered ha rfl hm hs with ht | ⟨u, hu, rfl⟩
    · exact ht
    · exact (sameContents_deliverOk _ _ _).canonical (canonical_releasePool hu)
  | aborted =>
    rw [exec_of_aborted i hm] at h
    cases h

theorem step_canonical {s t : State} (h : step s = .next t) (hs : s.MemoriesCanonical) : t.MemoriesCanonical := by
  rcases step_cases h with rfl | ⟨later, rfl⟩ | ⟨w, answers, later, _, ⟨i, _, hx⟩ | ⟨_, rfl⟩⟩
  · exact hs
  · exact canonical_powerOnReset _
  · exact exec_canonical hx ((sameContents_acceptCommand answers later s).canonical hs)
  · exact (sameContents_deliverFailure _ _ _).canonical ((sameContents_acceptCommand answers later s).canonical hs)

end Sys2Proof.Machine

namespace Sys2Proof.Proofs

open Sys2Proof Sys2Proof.Machine

/-- Settles O47: the operations of the fault path keep the canonical form, and what MEM_INIT, a release of the pool and a
power-on reset make of a memory has it. -/
theorem memoriesStayCanonical : Obligations.MemoriesStayCanonical := by
  unfold Obligations.MemoriesStayCanonical
  exact fun s t hs h => step_canonical h hs

end Sys2Proof.Proofs
end

section
/-!
INV1, well-formedness and soundness kept by the commands (spec/10_state.md R40 to R45): what each operation of the fault
path and of the byte accesses does to them, then the commands and the steps.
-/

namespace Sys2Proof.Machine

/-! ### INV1 -/

theorem inv1_setPte {s : State} (h : s.inv1) (p : PageNumber) {e : Pte} (he : e.present = true → e.mapped = true) :
    (s.setPte p e).inv1 := fun q hq => by
  rw [setPte_pte] at hq ⊢
  by_cases hqp : q = p
  · rw [if_pos hqp] at hq ⊢
    exact he hq
  · rw [if_neg hqp] at hq ⊢
    exact h q hq

theorem inv1_dropPage {s : State} (h : s.inv1) (p : PageNumber) : (dropPage p s).inv1 :=
  inv1_setPte h p fun _ => rfl

theorem inv1_evict {s : State} (h : s.inv1) (p : PageNumber) :
    (evict p s).Sat (fun _ => State.inv1) (fun _ => State.inv1) := by
  rcases evict_cases p s with ⟨_, he⟩ | ⟨_, _, he⟩ | ⟨_, _, _, he⟩ | ⟨_, _, _, he⟩ <;> rw [he]
  · exact h
  · exact inv1_dropPage h p
  · exact inv1_dropPage (s := writtenBack p s) h p
  · exact h

/-- `load` makes a page present, and so must be of a mapped one. -/
theorem inv1_load {s : State} (h : s.inv1) {p : PageNumber} (hmapped : (s.pte p).mapped = true) :
    (load p s).Sat (fun _ => State.inv1) (fun _ => State.inv1) := by
  rcases load_cases p s with ⟨_, he⟩ | ⟨_, he⟩ <;> rw [he]
  · exact inv1_setPte h p fun _ => hmapped
  · exact h

theorem inv1_load_setPte {s : State} (h : s.inv1) (p : PageNumber) {e : Pte} (he : e.mapped = true) :
    (load p (s.setPte p e)).Sat (fun _ => State.inv1) (fun _ => State.inv1) :=
  inv1_load (inv1_setPte h p fun _ => he) (by rw [setPte_pte_self, he])

theorem inv1_replace {s : State} (h : s.inv1) (p : PageNumber) :
    (replace p s).Sat (fun _ => State.inv1) (fun _ => State.inv1) := by
  rcases replace_cases p s with ⟨_, he⟩ | ⟨v, k, t, _, hv, he⟩ | ⟨v, t, _, hv, he⟩ <;> rw [he]
  · exact h
  · exact (inv1_evict h v).of_raise hv
  · exact inv1_load_setPte ((inv1_evict h v).of_ok hv) p rfl

theorem inv1_resolve {s : State} (h : s.inv1) (p : PageNumber) :
    (resolve p s).Sat (fun _ => State.inv1) (fun _ => State.inv1) := by
  have hresident : (makeResident p s).Sat (fun _ => State.inv1) (fun _ => State.inv1) := by
    rcases makeResident_cases p s with ⟨_, _, he⟩ | ⟨hm, _, _, he⟩ | ⟨_, _, _, he⟩ | ⟨f, _, _, he⟩ | ⟨_, _, he⟩ <;>
      rw [he]
    · exact h
    · exact inv1_load h hm
    · exact inv1_replace h p
    · exact inv1_load_setPte h p rfl
    · exact inv1_replace h p
  exact sat_bind hresident fun _ t ht => inv1_setPte ht p (ht p)

theorem inv1_ptePage {s : State} (h : s.inv1) (p : PageNumber) :
    (ptePage p s).Sat (fun _ => State.inv1) (fun _ => State.inv1) := by
  unfold ptePage
  split
  · exact h
  · exact inv1_resolve h p

theorem loadAllowed_iff {p : PageNumber} {s : State} : loadAllowed p s = true ↔
    (s.pte p).mapped = true ∧
      ((s.fte (s.pte p).frame).occupied = true → (s.fte (s.pte p).frame).owner = p) := by
  unfold loadAllowed
  cases (s.pte p).mapped <;> cases (s.fte (s.pte p).frame).occupied <;> simp

theorem keptByCommands_inv1 : KeptByCommands State.inv1 (fun _ => true) where
  congr := SameContents.inv1
  ptSet _ p _ _ h := inv1_setPte h p fun _ => rfl
  ptClear _ p _ h := inv1_setPte h p fun hc => absurd hc (by decide)
  markDirty _ p _ h := inv1_setPte h p (h p)
  markClean _ p _ h := inv1_setPte h p (h p)
  markReferenced _ p _ h := inv1_setPte h p (h p)
  markUnreferenced _ p h := inv1_setPte h p (h p)
  tick s h := fun p => by
    rw [mapTable_pte]
    exact h p
  evict _ p h := inv1_evict h p
  load _ p _ h hl := inv1_load h (loadAllowed_iff.1 hl).1
  resolve _ p h := inv1_resolve h p
  readByte _ _ h := sat_bind (inv1_ptePage h _) fun _ _ ht => inv1_setPte ht _ (ht _)
  writeByte _ _ _ _ _ _ h := sat_bind (inv1_ptePage h _) fun _ _ ht => inv1_setPte (s := memWrite _ _ _) ht _ (ht _)

/-! ### Well-formedness -/

theorem wellFormed_memWrite {s : State} (h : s.WellFormed) (pa : PhysicalAddress) (v : Byte) :
    (memWrite pa v s).WellFormed :=
  wellFormed_of_eq h (fun _ => rfl) (fun _ => rfl)

/-- Marks keep residency, frame and mapping (R139 to R142). -/
theorem wellFormed_mark {s : State} (h : s.WellFormed) (p : PageNumber) {e : Pte}
    (hpresent : e.present = (s.pte p).present) (hframe : e.frame = (s.pte p).frame)
    (hmapped : e.mapped = (s.pte p).mapped) : (s.setPte p e).WellFormed :=
  wellFormed_setPte h p e hpresent fun hp => ⟨hframe, hmapped.trans (h.inv1 p (hpresent ▸ hp))⟩

theorem keptByCommands_wellFormed : KeptByCommands State.WellFormed (fun i => !forges i) where
  congr := SameContents.wellFormed
  ptSet _ _ _ hi _ := absurd hi (by simp [forges])
  ptClear _ _ hi _ := absurd hi (by simp [forges])
  markDirty _ p _ h := wellFormed_mark h p rfl rfl rfl
  markClean _ p _ h := wellFormed_mark h p rfl rfl rfl
  markReferenced _ p _ h := wellFormed_mark h p rfl rfl rfl
  markUnreferenced _ p h := wellFormed_mark h p rfl rfl rfl
  tick _ h := wellFormed_tick h
  evict _ p h := sat_imp (keptByFaults_wellFormed.evict h p) (fun _ _ ht => ht.1) fun _ _ => id
  load s p _ h hl := by
    obtain ⟨hmapped, howner⟩ := loadAllowed_iff.1 hl
    rcases load_cases p s with ⟨_, he⟩ | ⟨_, he⟩ <;> rw [he]
    · exact wellFormed_loadedFrom h hmapped howner
    · exact keptByFaults_wellFormed.attempt _ _ _ h
  resolve _ p h := sat_imp (keptByFaults_wellFormed.resolve h p) (fun _ _ ht => ht.1) fun _ _ => id
  readByte _ _ h := sat_bind (keptByFaults_wellFormed.ptePage h _) fun _ _ ⟨ht, hp, _⟩ =>
    keptByFaults_wellFormed.markReferenced _ _ ht hp
  writeByte _ _ _ _ _ _ h := sat_bind (keptByFaults_wellFormed.ptePage h _) fun _ _ ⟨ht, _, _⟩ =>
    wellFormed_mark (wellFormed_memWrite ht _ _) _ rfl rfl rfl

/-! ### Soundness and the virtual memory -/

/-- Every entry marked unreferenced: no flag of soundness changes (R183). -/
theorem sound_tick {s : State} (h : Sound s) :
    Sound { s with pt := mapTable s.pt Pte.markUnreferenced } ∧
      ∀ va, State.vm { s with pt := mapTable s.pt Pte.markUnreferenced } va = s.vm va := by
  have hpte : ∀ q, State.pte { s with pt := mapTable s.pt Pte.markUnreferenced } q = (s.pte q).markUnreferenced :=
    mapTable_pte s Pte.markUnreferenced
  obtain ⟨c1, c2, c3, c4⟩ := h.coherent
  refine ⟨⟨MemoriesCanonical_of_eq h.canonical rfl rfl, wellFormed_tick h.wellFormed, fun p o => ?_, c2, fun p => ?_, fun p hm => ?_⟩, fun va => ?_⟩
  · rw [hpte]
    exact c1 p o
  · rw [hpte]
    exact c3 p
  · rw [hpte] at hm ⊢
    rw [c4 p hm]
    rfl
  · unfold State.vm
    rw [hpte]
    rfl

theorem sound_markUnreferenced {s : State} (h : Sound s) (p : PageNumber) :
    Sound (s.setPte p (s.pte p).markUnreferenced) ∧
      ∀ va, (s.setPte p (s.pte p).markUnreferenced).vm va = s.vm va :=
  sound_setPte h p _ rfl (fun hp => ⟨rfl, h.wellFormed.inv1 p hp⟩) (h.coherent.coh3 p) (fun _ hd => hd)
    fun hm => by rw [h.coherent.coh4 p hm, markUnreferenced_zero]

/-- Sound, with the virtual memory of `s0` (R73). -/
def SoundWith (s0 : State) (t : State) : Prop := Sound t ∧ ∀ va, t.vm va = s0.vm va

theorem SoundWith.refl {s : State} (h : Sound s) : SoundWith s s := ⟨h, fun _ => rfl⟩

theorem SoundWith.trans {r s t : State} (h : SoundWith r s) (h' : SoundWith s t) : SoundWith r t :=
  ⟨h'.1, fun va => (h'.2 va).trans (h.2 va)⟩

/-- The commands that keep the virtual memory whatever they answer: those that neither store bytes nor may break
coherence. -/
def keepsVm (i : Instr) : Bool := !mayBreakCoherence i && !storesBytes i

/-- The operations of the fault path, the byte reads and the marks keep the virtual memory (R73 (d)). -/
theorem keptByCommands_soundWith (s0 : State) : KeptByCommands (SoundWith s0) keepsVm where
  congr hc h := h.trans (hc.sound h.1)
  ptSet _ _ _ hi _ := absurd hi (by simp [keepsVm, mayBreakCoherence])
  ptClear _ _ hi _ := absurd hi (by simp [keepsVm, mayBreakCoherence])
  markDirty _ _ hi _ := absurd hi (by simp [keepsVm, mayBreakCoherence])
  markClean _ _ hi _ := absurd hi (by simp [keepsVm, mayBreakCoherence])
  markReferenced _ _ hi _ := absurd hi (by simp [keepsVm, mayBreakCoherence])
  markUnreferenced _ p h := h.trans (sound_markUnreferenced h.1 p)
  tick _ h := h.trans (sound_tick h.1)
  evict _ p h := sat_imp ((keptByFaults_sound s0).evict h p) (fun _ _ ht => ht.1) fun _ _ => id
  load _ _ hi _ _ := absurd hi (by simp [keepsVm, mayBreakCoherence])
  resolve _ p h := sat_imp ((keptByFaults_sound s0).resolve h p) (fun _ _ ht => ht.1) fun _ _ => id
  readByte _ va h := sat_imp (readByte_sound h.1 va) (fun _ _ ht => h.trans ht.1) fun _ _ ht => h.trans ht
  writeByte _ _ _ i hw hi _ := absurd hi (by simp [keepsVm, hw])

theorem keptByCommands_sound : KeptByCommands Sound (fun i => !mayBreakCoherence i) where
  congr hc h := (hc.sound h).1
  ptSet _ _ _ hi _ := absurd hi (by simp [mayBreakCoherence])
  ptClear _ _ hi _ := absurd hi (by simp [mayBreakCoherence])
  markDirty _ _ hi _ := absurd hi (by simp [mayBreakCoherence])
  markClean _ _ hi _ := absurd hi (by simp [mayBreakCoherence])
  markReferenced _ _ hi _ := absurd hi (by simp [mayBreakCoherence])
  markUnreferenced _ p h := (sound_markUnreferenced h p).1
  tick _ h := (sound_tick h).1
  evict s p h := sat_imp ((keptByCommands_soundWith s).evict s p (.refl h)) (fun _ _ ht => ht.1) fun _ _ ht => ht.1
  load _ _ hi _ _ := absurd hi (by simp [mayBreakCoherence])
  resolve s p h := sat_imp ((keptByCommands_soundWith s).resolve s p (.refl h)) (fun _ _ ht => ht.1) fun _ _ ht => ht.1
  readByte _ va h := sat_imp (readByte_sound h va) (fun _ _ ht => ht.1.1) fun _ _ ht => ht.1
  writeByte _ va v _ _ _ h := sat_imp (writeByte_sound h va v) (fun _ _ ht => ht.1) fun _ _ ht => ht.1

/-! ### A new pool -/

/-- Every property of a new pool is about its entries, free frames and empty memories (R220, R261). -/
theorem sound_createPool (s : State) : Sound (createPool { s with bs := [] }) := by
  refine ⟨canonical_createPool s, wellFormed_createPool _, fun p o hp => ?_, fun f o _ => rfl, fun p hp => ?_,
    fun p _ => createPool_pte _ p⟩
  · rw [createPool_pte] at hp
    cases hp
  · rw [createPool_pte] at hp
    cases hp

theorem vm_createPool (s : State) (va : VirtualAddress) : (createPool { s with bs := [] }).vm va = 0 := by
  unfold State.vm
  rw [createPool_pte]
  rfl

/-- A MEM_INIT that answers OK was given in OFF and created the pool. -/
theorem created_of_memInit_ok {s t : State} (h : exec .memInit s = .next t) (hok : t.hasStatus .ok) :
    t = deliverOk 0 [] (createPool { s.attempt .create 0 with bs := [] }) := by
  generalize hi : Instr.memInit = i at h
  cases exec_answered h with
  | created hm hio => rfl
  | reinit hm => exact absurd (State.hasStatus_unique hok (deliverFailure_hasStatus _ _ _)) (by decide)
  | notCreated hm hio => exact absurd (State.hasStatus_unique hok (deliverFailure_hasStatus _ _ _)) (by decide)
  | notInitialized hm hn => subst hi; cases hn
  | contract hm hb => exact absurd (State.hasStatus_unique hok (deliverFailure_hasStatus _ _ _)) (by decide)
  | observed v hm ho => subst hi; cases ho
  | bytesWritten hseq hm hr => subst hi; cases hseq
  | sequenceStopped hseq hm hr => subst hi; cases hseq
  | _ => cases hi

/-! ### The steps -/

/-- The pool after a command is a new one or a running one's. -/
theorem exec_run_cases {i : Instr} {s t : State} (h : exec i s = .next t) (ht : t.mode = .run) :
    s.mode = .run ∨ t = deliverOk 0 [] (createPool { s.attempt .create 0 with bs := [] }) := by
  cases hm : s.mode with
  | off =>
    rcases answered_of_off (exec_answered h) hm with ⟨hoff, _⟩ | ⟨_, he⟩
    · exact absurd (ht.symm.trans hoff) (by decide)
    · exact .inr he
  | run => exact .inl rfl
  | aborted =>
    rw [exec_of_aborted i hm] at h
    cases h

/-- A property that the commands of a class keep in RUN, and a new pool has, is kept by every step that runs a command of
the class. -/
theorem KeptByCommands.step {P : State → Prop} {allowed : Instr → Bool} (h : KeptByCommands P allowed)
    (hpool : ∀ s : State, P (createPool { s with bs := [] })) {s t : State}
    (hi : ∀ w answers later i, s.input = .command w answers :: later → decode w = .ok i → allowed i = true)
    (hx : Machine.step s = .next t) (hs : s.mode = .run → P s) (ht : t.mode = .run) : P t := by
  rcases step_cases hx with rfl | ⟨later, rfl⟩ | ⟨w, answers, later, hinput, ⟨i, hw, hx⟩ | ⟨_, rfl⟩⟩
  · exact hs ht
  · cases ht
  · rcases exec_run_cases hx ht with hrun | rfl
    · exact h.exec hx (hi w answers later i hinput hw) hrun
        (h.congr (sameContents_acceptCommand answers later s) (hs hrun)) ht
    · exact h.deliverOk (hpool _) _ _
  · exact h.deliverFailure (h.congr (sameContents_acceptCommand answers later s) (hs ht)) _ _

end Sys2Proof.Machine

namespace Sys2Proof.Proofs

open Sys2Proof Sys2Proof.Machine

/-- Settles O49: each operation that changes residency writes the entry and the frame table together, so only PT_SET and
PT_CLEAR can part them. -/
theorem goodStatesStayGood : Obligations.GoodStatesStayGood := by
  unfold Obligations.GoodStatesStayGood
  intro s t hs hforges h
  refine ⟨step_canonical h hs.memories, keptByCommands_wellFormed.step (fun _ => wellFormed_createPool _) ?_ h hs.pool⟩
  intro w answers later i hinput hw
  rw [hforges w answers later i hinput hw]
  rfl

/-- Settles O50: every entry that becomes present was mapped by the same command or before it. -/
theorem presentImpliesMapped : Obligations.PresentImpliesMapped := by
  unfold Obligations.PresentImpliesMapped
  intro s t hs h
  exact keptByCommands_inv1.step (fun _ => (wellFormed_createPool _).inv1) (fun _ _ _ _ _ _ => rfl) h hs

/-- Settles O53: a new pool is sound, and evictions, loads, byte accesses and the remaining marks keep a sound one. -/
theorem coherenceKept : Obligations.CoherenceKept := by
  unfold Obligations.CoherenceKept
  refine ⟨fun s t h hok => ?_, fun i s t hrun hs hi h ht => ?_⟩
  · obtain rfl := created_of_memInit_ok h hok
    exact keptByCommands_sound.deliverOk (sound_createPool _) _ _
  · exact keptByCommands_sound.exec h (by rw [hi]; rfl) hrun hs ht

end Sys2Proof.Proofs
end

section
/-!
What the answer of a command records (spec/30_encoding.md R104, R105; spec/47_lifecycle.md R225; spec/60_exceptions.md R231 to
R246; spec/20_memory.md R79): the ways a command can answer, gathered by what became of the operation it ran.
-/

namespace Sys2Proof.Machine

/-! ### Every command answers -/

/-- The meaning answers from every state. -/
def Total (body : State → Host.Outcome State Fault Refusal) : Prop := ∀ s, ∃ t, body s = .next t

theorem total_deliver {α : Type} (value : α → State → BitVec 32) (r : State → Res α) :
    Total fun s => deliver value (r s) := fun s => by
  cases hr : r s with
  | ok a u => exact ⟨_, congrArg (deliver value) hr⟩
  | raise k u => exact ⟨_, congrArg (deliver value) hr⟩

theorem total_deliverLoop (value : BitVec 32) (r : State → LoopRes) : Total fun s => deliverLoop value (r s) :=
  fun s => by
    cases hr : r s with
    | done data u => exact ⟨_, congrArg (deliverLoop value) hr⟩
    | stopped n k u => exact ⟨_, congrArg (deliverLoop value) hr⟩

theorem total_next (f : State → State) : Total fun s => .next (f s) := fun _ => ⟨_, rfl⟩

theorem total_withOperand {α : Type} (x : Option α) {body : α → State → Host.Outcome State Fault Refusal}
    (h : ∀ a, Total (body a)) : Total (withOperand x body) := fun s => by
  cases x with
  | some a => exact h a s
  | none => exact ⟨_, rfl⟩

theorem total_ite {c : State → Prop} [∀ s, Decidable (c s)] {body body' : State → Host.Outcome State Fault Refusal}
    (h : Total body) (h' : Total body') : Total fun s => if c s then body s else body' s := fun s => by
  by_cases hc : c s
  · simpa only [if_pos hc] using h s
  · simpa only [if_neg hc] using h' s

/-- Past the check of the mode every command answers. -/
theorem exec_eq_checked (i : Instr) :
    ∃ body, (exec i = whenRunning body ∨ exec i = whenAccepting body) ∧ Total body := by
  cases i with
  | read a | write a v | halt => exact ⟨_, .inl rfl, total_deliver _ _⟩
  | readn a n | writew a v1 v2 | writedw a v1 v2 v3 v4 | writez a n => exact ⟨_, .inl rfl, total_deliverLoop _ _⟩
  | memInit => exact ⟨_, .inr rfl, total_ite (total_next _) (total_deliver _ _)⟩
  | memDestroy | tick | translate a | findFreeFrame => exact ⟨_, .inl rfl, total_next _⟩
  | decodeVirtual a | decodePhysical a => exact ⟨_, .inr rfl, total_next _⟩
  | encodeVirtual x offset | encodePhysical x offset =>
    exact ⟨_, .inr rfl, total_withOperand _ fun _ => total_withOperand _ fun _ => total_next _⟩
  | ptGet page | ptSet page e | ptClear page | isUnmapped page | isPresent page | isDirty page | isReferenced page
  | markDirty page | markClean page | markReferenced page | markUnreferenced page =>
    exact ⟨_, .inl rfl, total_withOperand _ fun _ => total_next _⟩
  | resolve page | ptePage page | evict page => exact ⟨_, .inl rfl, total_withOperand _ fun _ => total_deliver _ _⟩
  | load page => exact ⟨_, .inl rfl, total_withOperand _ fun _ => total_ite (total_deliver _ _) (total_next _)⟩
  | chooseVictim =>
    refine ⟨_, .inl rfl, fun s => ?_⟩
    cases chooseVictim s with
    | some v => exact ⟨_, rfl⟩
    | none => exact ⟨_, rfl⟩

theorem exec_total (i : Instr) {s : State} (hm : s.mode ≠ .aborted) : ∃ t, exec i s = .next t := by
  obtain ⟨body, hx, hb⟩ := exec_eq_checked i
  rcases hx with hx | hx
  · cases hmode : s.mode with
    | off => exact ⟨_, hx ▸ whenRunning_off hmode body⟩
    | run =>
      rw [hx, whenRunning_run hmode]
      exact hb s
    | aborted => exact absurd hmode hm
  · rw [hx, whenAccepting_of_ne hm]
    exact hb s

/-! ### The answers, by what became of the operation -/

/-- The three commands that create or release the pool. -/
def lifecycle : Instr → Bool
  | .memInit => true
  | .memDestroy => true
  | .halt => true
  | _ => false

/-- The result value and the bytes of a command that completed: only READN answers bytes, and as many as it says. -/
structure Delivers (i : Instr) (value : BitVec 32) (data : List Byte) : Prop where
  onlyReadn : data ≠ [] → ∃ a n, i = .readn a n
  readn : ∀ a n, i = .readn a n → data.length = n ∧ value = BitVec.ofNat 32 n

theorem delivers_nil {i : Instr} (h : ∀ a n, i ≠ .readn a n) (value : BitVec 32) : Delivers i value [] :=
  ⟨fun hc => absurd rfl hc, fun a n hi => absurd hi (h a n)⟩

/-- The number of byte accesses a command can have completed before one fails (R241). -/
def Completes (i : Instr) (n : Nat) : Prop :=
  n = 0 ∨ (∃ a m, (i = .readn a m ∨ i = .writez a m) ∧ n < m) ∨ (∃ a v1 v2, i = .writew a v1 v2 ∧ n = 1) ∨
    ∃ a v1 v2 v3 v4, i = .writedw a v1 v2 v3 v4 ∧ n < 4

/-- The ways a command can answer: a check failed, a fatal failure, the pool created or released, an operation that
completed, an operation that stopped. -/
inductive Summary (i : Instr) (s : State) : State → Prop
  | notInitialized (hm : s.mode = .off) : Summary i s (deliverFailure .notInitialized 0 s)
  | contract (hi : lifecycle i = false) (hm : s.mode ≠ .aborted) : Summary i s (deliverFailure .contractViolation 0 s)
  | reinit (hi : i = .memInit) (hm : s.mode = .run) : Summary i s (deliverFailure .reinitMisuse 0 s)
  | noVictim (hi : i = .chooseVictim) (hm : s.mode = .run) (hv : chooseVictim s = none) :
    Summary i s (deliverFailure .invariantViolation 0 s)
  | created (hi : i = .memInit) (hm : s.mode = .off) (hio : s.io.next.1 = .ok) :
    Summary i s (deliverOk 0 [] (createPool { s.attempt .create 0 with bs := [] }))
  | released {u} (hi : i = .halt ∨ i = .memDestroy) (hm : s.mode = .run) (hu : TracedOk s u) :
    Summary i s (deliverOk 0 [] (releasePool u))
  | completed {u value data} (hi : lifecycle i = false) (hm : s.mode ≠ .aborted) (hu : TracedOk s u)
    (hd : Delivers i value data) : Summary i s (deliverOk value data u)
  | stopped {u k n} (hi : i ≠ .memDestroy)
    (hm : s.mode = .run ∨ (s.mode = .off ∧ i = .memInit ∧ k = .backingStoreUnavailable 0))
    (hu : TracedRaise k s u) (hn : Completes i n) : Summary i s (deliverFailure k n u)

theorem lifecycle_of_observer {i : Instr} (h : observer i = true) : lifecycle i = false := by
  cases i with
  | memInit | memDestroy | halt => cases h
  | _ => rfl

/-- Only commands with an operand have a contract to break. -/
theorem lifecycle_of_breaksContract {i : Instr} {s : State} (h : breaksContract i s) : lifecycle i = false := by
  cases i with
  | memInit | memDestroy | halt => simp [breaksContract, poolPage] at h
  | _ => rfl

theorem observer_ne_readn {i : Instr} (h : observer i = true) (a : AField) (n : Nat) : i ≠ .readn a n := by
  rintro rfl
  cases h

/-- A multi-byte write is no READN, creates and releases no pool, and stops before its last byte. -/
theorem sequence_facts {i : Instr} {a : AField} {vs : List Byte} (h : sequence i = some (a, vs)) :
    lifecycle i = false ∧ (∀ b n, i ≠ .readn b n) ∧ ∀ n, n < vs.length → Completes i n := by
  cases i with
  | writew b v1 v2 =>
    cases h
    refine ⟨rfl, nofun, fun n hn => ?_⟩
    obtain rfl | rfl : n = 0 ∨ n = 1 := by
      have : n < 2 := hn
      omega
    · exact .inl rfl
    · exact .inr (.inr (.inl ⟨_, _, _, rfl, rfl⟩))
  | writedw b v1 v2 v3 v4 =>
    cases h
    exact ⟨rfl, nofun, fun n hn => .inr (.inr (.inr ⟨_, _, _, _, _, rfl, hn⟩))⟩
  | writez b m =>
    cases h
    refine ⟨rfl, nofun, fun n hn => .inr (.inl ⟨_, m, .inr rfl, ?_⟩)⟩
    rwa [List.length_replicate] at hn
  | _ => cases h

theorem ne_aborted_of_run {s : State} (h : s.mode = .run) : s.mode ≠ .aborted := by
  rw [h]
  decide

theorem exec_summary {i : Instr} {s t : State} (h : exec i s = .next t) : Summary i s t := by
  cases exec_answered h with
  | notInitialized hm hn => exact .notInitialized hm
  | contract hm hb =>
    exact .contract (lifecycle_of_breaksContract hb) (by rcases hm with hm | ⟨hm, _⟩ <;> rw [hm] <;> decide)
  | observed v hm ho =>
    exact .completed (lifecycle_of_observer ho) (by rcases hm with hm | ⟨hm, _⟩ <;> rw [hm] <;> decide) (.refl s)
      (delivers_nil (observer_ne_readn ho) v)
  | noVictim hm hv => exact .noVictim rfl hm hv
  | ptSet p e hm | ptClear p hm | markDirty p hm | markClean p hm | markReferenced p hm | markUnreferenced p hm =>
    exact .completed rfl (ne_aborted_of_run hm) (.of_nil (traced_setPte s p _)) (delivers_nil (by simp) _)
  | tick hm =>
    exact .completed rfl (ne_aborted_of_run hm)
      (.of_nil (.of_eq rfl rfl rfl ⟨rfl, rfl, rfl, rfl⟩ fun hs => MemoriesCanonical_of_eq hs rfl rfl))
      (delivers_nil (by simp) _)
  | reinit hm => exact .reinit rfl hm
  | created hm hi => exact .created rfl hm hi
  | notCreated hm hi =>
    exact .stopped (by simp) (.inr ⟨hm, rfl, rfl⟩) ⟨[], _, traced_attempt s .create 0, by simp, hi, rfl⟩ (.inl rfl)
  | destroyed hm => exact .released (.inr rfl) hm (.refl s)
  | halted hm hr => exact .released (.inl rfl) hm ((traces_evictEach allPages s).of_ok hr)
  | haltStopped hm hr => exact .stopped (by simp) (.inl hm) ((traces_evictEach allPages s).of_raise hr) (.inl rfl)
  | evicted p hm hr =>
    exact .completed rfl (ne_aborted_of_run hm) ((traces_evict p s).of_ok hr) (delivers_nil (by simp) _)
  | evictStopped p hm hr => exact .stopped (by simp) (.inl hm) ((traces_evict p s).of_raise hr) (.inl rfl)
  | loaded p hm ha hr =>
    exact .completed rfl (ne_aborted_of_run hm) ((traces_load p s).of_ok hr) (delivers_nil (by simp) _)
  | loadStopped p hm ha hr => exact .stopped (by simp) (.inl hm) ((traces_load p s).of_raise hr) (.inl rfl)
  | resolved p hm hr =>
    exact .completed rfl (ne_aborted_of_run hm) ((traces_resolve p s).of_ok hr) (delivers_nil (by simp) _)
  | resolveStopped p hm hr => exact .stopped (by simp) (.inl hm) ((traces_resolve p s).of_raise hr) (.inl rfl)
  | handled p hm hr =>
    exact .completed rfl (ne_aborted_of_run hm) ((traces_ptePage p s).of_ok hr) (delivers_nil (by simp) _)
  | handleStopped p hm hr => exact .stopped (by simp) (.inl hm) ((traces_ptePage p s).of_raise hr) (.inl rfl)
  | byteRead a hm hr =>
    exact .completed rfl (ne_aborted_of_run hm) ((traces_readByte _ s).of_ok hr) (delivers_nil (by simp) _)
  | readStopped a hm hr => exact .stopped (by simp) (.inl hm) ((traces_readByte _ s).of_raise hr) (.inl rfl)
  | byteWritten a v hm hr =>
    exact .completed rfl (ne_aborted_of_run hm) ((traces_writeByte _ v s).of_ok hr) (delivers_nil (by simp) _)
  | writeStopped a v hm hr => exact .stopped (by simp) (.inl hm) ((traces_writeByte _ v s).of_raise hr) (.inl rfl)
  | bytesRead a n hm hr =>
    obtain ⟨hu, hlength⟩ := LoopRes.Sat.of_done (traces_readLoop n _ 0 [] s) hr
    refine .completed rfl (ne_aborted_of_run hm) hu ⟨fun _ => ⟨a, n, rfl⟩, fun b m hi => ?_⟩
    cases hi
    exact ⟨by simpa using hlength, rfl⟩
  | readnStopped a n hm hr =>
    obtain ⟨hu, _, hlt⟩ := LoopRes.Sat.of_stopped (traces_readLoop n _ 0 [] s) hr
    exact .stopped (by simp) (.inl hm) hu (.inr (.inl ⟨a, n, .inl rfl, by omega⟩))
  | bytesWritten hi hm hr =>
    obtain ⟨hlife, hread, _⟩ := sequence_facts hi
    obtain ⟨hu, rfl⟩ := LoopRes.Sat.of_done (traces_writeLoop _ _ 0 s) hr
    exact .completed hlife (ne_aborted_of_run hm) hu (delivers_nil hread _)
  | sequenceStopped hi hm hr =>
    obtain ⟨hlife, _, hcount⟩ := sequence_facts hi
    obtain ⟨hu, _, hlt⟩ := LoopRes.Sat.of_stopped (traces_writeLoop _ _ 0 s) hr
    refine .stopped ?_ (.inl hm) hu (hcount _ (by omega))
    rintro rfl
    cases hlife

end Sys2Proof.Machine
end

section
/-!
Responses, modes and the record of store operations (spec/30_encoding.md R104, R105; spec/47_lifecycle.md R225;
spec/60_exceptions.md R231 to R246; spec/20_memory.md R79), read off the ways a command can answer.
-/

namespace Sys2Proof.Machine

/-! ### The status of an answer -/

theorem hasStatus_deliverOk_iff {value : BitVec 32} {data : List Byte} {s : State} {st : Status} :
    (deliverOk value data s).hasStatus st ↔ st = .ok :=
  ⟨fun h => State.hasStatus_unique h (deliverOk_hasStatus value data s), fun h => h ▸ deliverOk_hasStatus value data s⟩

theorem hasStatus_deliverFailure_iff {k : Failure} {n : Nat} {s : State} {st : Status} :
    (deliverFailure k n s).hasStatus st ↔ st = k.status :=
  ⟨fun h => State.hasStatus_unique h (deliverFailure_hasStatus k n s), fun h => h ▸ deliverFailure_hasStatus k n s⟩

theorem Failure.status_ne_ok (k : Failure) : k.status ≠ .ok := by
  cases k <;> simp [Failure.status]

theorem Failure.status_eq_invariantViolation {k : Failure} : k.status = .invariantViolation ↔ k = .invariantViolation := by
  cases k <;> simp [Failure.status]

theorem Failure.fatal_iff_status {k : Failure} :
    k.fatal = true ↔ k.status = .reinitMisuse ∨ k.status = .invariantViolation := by
  cases k <;> simp [Failure.status, Failure.fatal]

/-! ### What an operation attempted -/

theorem TracedOk.sameOutside {s t : State} (h : TracedOk s t) : SameOutside s t :=
  let ⟨_, hnew, _⟩ := h
  hnew.outside

theorem TracedRaise.cases {k : Failure} {s t : State} (h : TracedRaise k s t) :
    (∃ p, k = .backingStoreUnavailable p ∧ TracedFail p s t) ∨ (k = .invariantViolation ∧ TracedOk s t) := by
  cases k with
  | backingStoreUnavailable p => exact .inl ⟨p, rfl, h⟩
  | invariantViolation => exact .inr ⟨rfl, h⟩
  | contractViolation => exact h.elim
  | illegalCommand => exact h.elim
  | notInitialized => exact h.elim
  | reinitMisuse => exact h.elim

theorem TracedRaise.sameOutside {k : Failure} {s t : State} (h : TracedRaise k s t) : SameOutside s t := by
  rcases h.cases with ⟨p, _, before, op, hnew, _⟩ | ⟨_, hok⟩
  · exact hnew.outside
  · exact hok.sameOutside

/-! ### Responses -/

/-- The rules of `info` and `data` that every answer in OFF and RUN obeys (R104, R105); the input is as before. -/
def Responds (i : Instr) (s t : State) : Prop :=
  ∃ r, t.resp = some r ∧ t.input = s.input ∧ (r.status = .ok → r.info = 0) ∧
    (r.data ≠ [] → r.status = .ok ∧ ∃ a n, i = .readn a n) ∧
    ∀ a n, i = .readn a n → r.status = .ok → r.data.length = n ∧ r.value = BitVec.ofNat 32 n

theorem responds_deliverFailure {i : Instr} {s u : State} (hinput : u.input = s.input) (k : Failure) (n : Nat) :
    Responds i s (deliverFailure k n u) :=
  ⟨_, rfl, hinput, fun hc => absurd hc k.status_ne_ok, fun hc => absurd rfl hc, fun _ _ _ hc => absurd hc k.status_ne_ok⟩

theorem responds_deliverOk {i : Instr} {s u : State} {value : BitVec 32} {data : List Byte}
    (hinput : u.input = s.input) (hd : Delivers i value data) : Responds i s (deliverOk value data u) :=
  ⟨_, rfl, hinput, fun _ => rfl, fun hc => ⟨rfl, hd.onlyReadn hc⟩, fun a n hi _ => hd.readn a n hi⟩

theorem Summary.responds {i : Instr} {s t : State} (h : Summary i s t) : Responds i s t := by
  cases h with
  | notInitialized hm => exact responds_deliverFailure rfl _ _
  | contract hi hm => exact responds_deliverFailure rfl _ _
  | reinit hi hm => exact responds_deliverFailure rfl _ _
  | noVictim hi hm hv => exact responds_deliverFailure rfl _ _
  | created hi hm hio => exact responds_deliverOk rfl (delivers_nil (by rw [hi]; nofun) _)
  | released hi hm hu =>
    exact responds_deliverOk hu.sameOutside.input (delivers_nil (by rcases hi with rfl | rfl <;> nofun) _)
  | completed hi hm hu hd => exact responds_deliverOk hu.sameOutside.input hd
  | stopped hi hm hu hn => exact responds_deliverFailure hu.sameOutside.input _ _

/-! ### The mode machine -/

/-- What the answer to a command in OFF says about the mode (R225). -/
def ModesFromOff (i : Instr) (t : State) : Prop :=
  (t.mode = .run ↔ i = .memInit ∧ t.hasStatus .ok) ∧ t.mode ≠ .aborted

/-- What the answer to a command in RUN says about the mode (R225). -/
def ModesFromRun (i : Instr) (t : State) : Prop :=
  (t.mode = .off ↔ (i = .halt ∧ t.hasStatus .ok) ∨ i = .memDestroy) ∧
    (t.mode = .aborted ↔ t.hasStatus .reinitMisuse ∨ t.hasStatus .invariantViolation)

theorem modesFromOff_of_off {i : Instr} {t : State} (ht : t.mode = .off)
    (h : ¬ (i = .memInit ∧ t.hasStatus .ok)) : ModesFromOff i t := by
  unfold ModesFromOff
  simp [ht, h]

theorem modesFromRun_deliverFailure {i : Instr} {u : State} (hu : u.mode = .run) (hi : i ≠ .memDestroy) (k : Failure)
    (n : Nat) : ModesFromRun i (deliverFailure k n u) := by
  have hne : Status.ok ≠ k.status := k.status_ne_ok.symm
  have hfatal : (k.fatal = true) = (Status.reinitMisuse = k.status ∨ Status.invariantViolation = k.status) :=
    propext (Failure.fatal_iff_status.trans (or_congr eq_comm eq_comm))
  unfold ModesFromRun
  simp only [hasStatus_deliverFailure_iff, deliverFailure_mode, hu, hi, hne, ← hfatal]
  cases k.fatal <;> simp

theorem modesFromRun_deliverOk {i : Instr} {u : State} (hu : u.mode = .run) (hi : lifecycle i = false)
    (value : BitVec 32) (data : List Byte) : ModesFromRun i (deliverOk value data u) := by
  have hhalt : i ≠ .halt := by rintro rfl; cases hi
  have hdestroy : i ≠ .memDestroy := by rintro rfl; cases hi
  unfold ModesFromRun
  simp [hasStatus_deliverOk_iff, hu, hhalt, hdestroy]

theorem not_ok_deliverFailure {i : Instr} {k : Failure} {n : Nat} {u : State} :
    ¬ (i = .memInit ∧ (deliverFailure k n u).hasStatus .ok) :=
  fun hc => k.status_ne_ok (hasStatus_deliverFailure_iff.1 hc.2).symm

theorem Summary.modesFromOff {i : Instr} {s t : State} (h : Summary i s t) (hoff : s.mode = .off) :
    ModesFromOff i t := by
  cases h with
  | notInitialized hm => exact modesFromOff_of_off hm not_ok_deliverFailure
  | contract hi hm => exact modesFromOff_of_off hoff not_ok_deliverFailure
  | reinit hi hm => exact absurd (hoff.symm.trans hm) (by decide)
  | noVictim hi hm hv => exact absurd (hoff.symm.trans hm) (by decide)
  | created hi hm hio => exact ⟨⟨fun _ => ⟨hi, deliverOk_hasStatus _ _ _⟩, fun _ => rfl⟩, nofun⟩
  | released hi hm hu => exact absurd (hoff.symm.trans hm) (by decide)
  | completed hi hm hu hd =>
    refine modesFromOff_of_off (hu.sameOutside.mode.trans hoff) fun hc => ?_
    rw [hc.1] at hi
    cases hi
  | stopped hi hm hu hn =>
    rcases hm with hm | ⟨_, _, rfl⟩
    · exact absurd (hoff.symm.trans hm) (by decide)
    · exact modesFromOff_of_off (hu.sameOutside.mode.trans hoff) not_ok_deliverFailure

theorem Summary.modesFromRun {i : Instr} {s t : State} (h : Summary i s t) (hrun : s.mode = .run) :
    ModesFromRun i t := by
  cases h with
  | notInitialized hm => exact absurd (hrun.symm.trans hm) (by decide)
  | contract hi hm => exact modesFromRun_deliverFailure hrun (by rintro rfl; cases hi) _ _
  | reinit hi hm => exact modesFromRun_deliverFailure hm (by rw [hi]; nofun) _ _
  | noVictim hi hm hv => exact modesFromRun_deliverFailure hm (by rw [hi]; nofun) _ _
  | created hi hm hio => exact absurd (hrun.symm.trans hm) (by decide)
  | released hi hm hu =>
    unfold ModesFromRun
    simp [hasStatus_deliverOk_iff, hi]
  | completed hi hm hu hd => exact modesFromRun_deliverOk (hu.sameOutside.mode.trans hrun) hi _ _
  | stopped hi hm hu hn => exact modesFromRun_deliverFailure (hu.sameOutside.mode.trans hrun) hi _ _

/-! ### MEM_INIT in RUN -/

theorem exec_memInit_of_run {s : State} (hrun : s.mode = .run) :
    exec .memInit s = .next (deliverFailure .reinitMisuse 0 s) := by
  show execMemInit s = _
  rw [execMemInit, whenAccepting_of_ne (ne_aborted_of_run hrun), if_pos hrun]

/-- Only MEM_INIT in RUN is a ReinitMisuse (R234). -/
theorem Summary.reinitMisuse {i : Instr} {s t : State} (h : Summary i s t) (hst : t.hasStatus .reinitMisuse) :
    i = .memInit ∧ s.mode = .run := by
  cases h with
  | reinit hi hm => exact ⟨hi, hm⟩
  | notInitialized hm => exact absurd (hasStatus_deliverFailure_iff.1 hst) (by decide)
  | contract hi hm => exact absurd (hasStatus_deliverFailure_iff.1 hst) (by decide)
  | noVictim hi hm hv => exact absurd (hasStatus_deliverFailure_iff.1 hst) (by decide)
  | created hi hm hio => exact absurd (hasStatus_deliverOk_iff.1 hst) (by decide)
  | released hi hm hu => exact absurd (hasStatus_deliverOk_iff.1 hst) (by decide)
  | completed hi hm hu hd => exact absurd (hasStatus_deliverOk_iff.1 hst) (by decide)
  | stopped hi hm hu hn =>
    have hk := hasStatus_deliverFailure_iff.1 hst
    rcases hu.cases with ⟨p, rfl, _⟩ | ⟨rfl, _⟩ <;> cases hk

/-! ### The record of store operations -/

/-- Exactly the operations `new` are recorded, with the first answers offered, which are gone (R79, R164). -/
structure Recorded (s t : State) (new : List StoreOp) : Prop where
  ops : t.ops = s.ops ++ new
  io : t.io = s.io.drop new.length
  answers : new.map (·.answer) = s.io.take new.length

/-- The record of a command that met no failed operation. -/
def RecordedOk (s t : State) : Prop :=
  (∃ new, Recorded s t new ∧ ∀ op ∈ new, op.answer = .ok) ∧ ¬ t.hasStatus .backingStoreUnavailable

/-- The record of a command that a failed operation stopped: it is the last one, and its page is answered (R241). -/
def RecordedFail (s t : State) : Prop :=
  ∃ before op, Recorded s t (before ++ [op]) ∧ (∀ x ∈ before, x.answer = .ok) ∧ op.answer = .fail ∧
    ∃ n, t.resp = some ⟨.backingStoreUnavailable, op.page.zeroExtend 24, BitVec.ofNat 32 n, []⟩

theorem TracedOk.recordedOk {s u t : State} (h : TracedOk s u) (hops : t.ops = u.ops) (hio : t.io = u.io)
    (hst : ¬ t.hasStatus .backingStoreUnavailable) : RecordedOk s t :=
  let ⟨new, hnew, hall⟩ := h
  ⟨⟨new, ⟨hops ▸ hnew.ops, hio ▸ hnew.io, hnew.answers⟩, hall⟩, hst⟩

theorem TracedFail.recordedFail {s u : State} {p : PageNumber} (h : TracedFail p s u) (n : Nat) :
    RecordedFail s (deliverFailure (.backingStoreUnavailable p) n u) := by
  obtain ⟨before, op, hnew, hall, hfail, rfl⟩ := h
  exact ⟨before, op, ⟨hnew.ops, hnew.io, hnew.answers⟩, hall, hfail, n, rfl⟩

theorem not_unavailable_deliverOk {value : BitVec 32} {data : List Byte} {u : State} :
    ¬ (deliverOk value data u).hasStatus .backingStoreUnavailable :=
  fun hc => absurd (hasStatus_deliverOk_iff.1 hc) (by decide)

theorem not_unavailable_deliverFailure {k : Failure} {n : Nat} {u : State} (hk : k.status ≠ .backingStoreUnavailable) :
    ¬ (deliverFailure k n u).hasStatus .backingStoreUnavailable :=
  fun hc => hk (hasStatus_deliverFailure_iff.1 hc).symm

/-- Every answer's record: all operations succeeded, or the last and only the last failed. -/
theorem Summary.recorded {i : Instr} {s t : State} (h : Summary i s t) : RecordedOk s t ∨ RecordedFail s t := by
  cases h with
  | notInitialized hm => exact .inl ((TracedOk.refl s).recordedOk rfl rfl (not_unavailable_deliverFailure (by decide)))
  | contract hi hm => exact .inl ((TracedOk.refl s).recordedOk rfl rfl (not_unavailable_deliverFailure (by decide)))
  | reinit hi hm => exact .inl ((TracedOk.refl s).recordedOk rfl rfl (not_unavailable_deliverFailure (by decide)))
  | noVictim hi hm hv => exact .inl ((TracedOk.refl s).recordedOk rfl rfl (not_unavailable_deliverFailure (by decide)))
  | created hi hm hio =>
    have hu : TracedOk s (s.attempt .create 0) := ⟨_, traced_attempt s .create 0, by simp [hio]⟩
    exact .inl (hu.recordedOk rfl rfl not_unavailable_deliverOk)
  | released hi hm hu => exact .inl (hu.recordedOk rfl rfl not_unavailable_deliverOk)
  | completed hi hm hu hd => exact .inl (hu.recordedOk rfl rfl not_unavailable_deliverOk)
  | stopped hi hm hu hn =>
    rcases hu.cases with ⟨p, rfl, hfail⟩ | ⟨rfl, hok⟩
    · exact .inr (hfail.recordedFail _)
    · exact .inl (hok.recordedOk rfl rfl (not_unavailable_deliverFailure (by decide)))

/-- After operations that succeeded the first failed one is where the list ends. -/
theorem last_of_fail {before earlier after : List StoreOp} {op last : StoreOp} (hall : ∀ x ∈ before, x.answer = .ok)
    (he : before ++ [last] = earlier ++ op :: after) (hop : op.answer = .fail) : after = [] := by
  rcases List.eq_nil_or_concat after with hnil | ⟨rest, x, rfl⟩
  · exact hnil
  · have he' : before ++ [last] = (earlier ++ op :: rest) ++ [x] := by simpa using he
    obtain ⟨rfl, _⟩ := List.append_inj' he' rfl
    exact absurd (hop.symm.trans (hall op (by simp))) (by decide)

/-- The form of a record in the rules of R79 and R164: a failed operation is the last, and only then is the answer
BackingStoreUnavailable. -/
theorem answers_in_order {s t : State} (h : RecordedOk s t ∨ RecordedFail s t) :
    ∃ new, t.ops = s.ops ++ new ∧ t.io = s.io.drop new.length ∧ new.map (·.answer) = s.io.take new.length ∧
      (∀ (before : List StoreOp) (op : StoreOp) (after : List StoreOp), new = before ++ op :: after →
        op.answer = .fail → after = []) ∧
      (t.hasStatus .backingStoreUnavailable ↔ ∃ before op, new = before ++ [op] ∧ op.answer = .fail) := by
  rcases h with ⟨⟨new, hnew, hall⟩, hst⟩ | ⟨before, op, hnew, hall, hfail, n, hresp⟩
  · refine ⟨new, hnew.ops, hnew.io, hnew.answers, fun b op a he hop => ?_, fun hc => absurd hc hst, fun hc => ?_⟩
    · exact absurd (hop.symm.trans (hall op (by rw [he]; simp))) (by decide)
    · obtain ⟨b, op, he, hop⟩ := hc
      exact absurd (hop.symm.trans (hall op (by rw [he]; simp))) (by decide)
  · exact ⟨_, hnew.ops, hnew.io, hnew.answers, fun b x a he hx => last_of_fail hall he hx,
      fun _ => ⟨before, op, rfl, hfail⟩, fun _ => ⟨_, hresp, rfl⟩⟩

/-! ### The store -/

/-- The operations an answer stands for say which pages of the store it changed. -/
def StoreAccounted (i : Instr) (s t : State) : Prop :=
  ∀ p o, t.storeByte p o ≠ s.storeByte p o →
    (i = .memInit ∧ t.hasStatus .ok) ∨ ∃ new, t.ops = s.ops ++ new ∧ (⟨.write, p, .ok⟩ : StoreOp) ∈ new

theorem storeAccounted_of_traced {i : Instr} {s u t : State} {new : List StoreOp} (hs : s.MemoriesCanonical)
    (h : Traced s u new) (hops : t.ops = u.ops) (hbs : t.bs = u.bs) : StoreAccounted i s t := fun p o hne => by
  refine .inr ⟨new, hops.trans h.ops, h.store hs p o ?_⟩
  rwa [storeByte_eq, hbs, ← storeByte_eq u] at hne

theorem Summary.storeAccounted {i : Instr} {s t : State} (hs : s.MemoriesCanonical) (h : Summary i s t) :
    StoreAccounted i s t := by
  cases h with
  | notInitialized hm => exact storeAccounted_of_traced hs (.refl s) rfl rfl
  | contract hi hm => exact storeAccounted_of_traced hs (.refl s) rfl rfl
  | reinit hi hm => exact storeAccounted_of_traced hs (.refl s) rfl rfl
  | noVictim hi hm hv => exact storeAccounted_of_traced hs (.refl s) rfl rfl
  | created hi hm hio => exact fun _ _ _ => .inl ⟨hi, deliverOk_hasStatus _ _ _⟩
  | released hi hm hu =>
    obtain ⟨new, hnew, _⟩ := hu
    exact storeAccounted_of_traced hs hnew rfl rfl
  | completed hi hm hu hd =>
    obtain ⟨new, hnew, _⟩ := hu
    exact storeAccounted_of_traced hs hnew rfl rfl
  | stopped hi hm hu hn =>
    rcases hu.cases with ⟨p, rfl, before, op, hnew, _⟩ | ⟨rfl, new, hnew, _⟩
    · exact storeAccounted_of_traced hs hnew rfl rfl
    · exact storeAccounted_of_traced hs hnew rfl rfl

/-! ### What a failure's response records -/

theorem Failure.info_eq_zero {k : Failure} (h : k.status ≠ .backingStoreUnavailable) : k.info = 0 := by
  cases k with
  | backingStoreUnavailable p => exact absurd rfl h
  | _ => rfl

/-- The counts that R241 allows as the value of a failure. -/
def FailureValue (i : Instr) (value : BitVec 32) : Prop :=
  value = 0 ∨ (∃ a n k, (i = .readn a n ∨ i = .writez a n) ∧ k < n ∧ value = BitVec.ofNat 32 k) ∨
    (∃ a v1 v2, i = .writew a v1 v2 ∧ value = 1) ∨ ∃ a v1 v2 v3 v4, i = .writedw a v1 v2 v3 v4 ∧ value.toNat < 4

theorem Completes.failureValue {i : Instr} {n : Nat} (h : Completes i n) : FailureValue i (BitVec.ofNat 32 n) := by
  rcases h with rfl | ⟨a, m, hi, hn⟩ | ⟨a, v1, v2, hi, rfl⟩ | ⟨a, v1, v2, v3, v4, hi, hn⟩
  · exact .inl rfl
  · exact .inr (.inl ⟨a, m, n, hi, hn, rfl⟩)
  · exact .inr (.inr (.inl ⟨a, v1, v2, hi, rfl⟩))
  · refine .inr (.inr (.inr ⟨a, v1, v2, v3, v4, hi, ?_⟩))
    rw [BitVec.toNat_ofNat]
    omega

/-- An answer other than OK is a delivered failure, with a count that the command allows. -/
theorem Summary.failure {i : Instr} {s t : State} (h : Summary i s t) (hst : ¬ t.hasStatus .ok) :
    ∃ k n u, t = deliverFailure k n u ∧ Completes i n := by
  cases h with
  | notInitialized hm => exact ⟨_, _, _, rfl, .inl rfl⟩
  | contract hi hm => exact ⟨_, _, _, rfl, .inl rfl⟩
  | reinit hi hm => exact ⟨_, _, _, rfl, .inl rfl⟩
  | noVictim hi hm hv => exact ⟨_, _, _, rfl, .inl rfl⟩
  | created hi hm hio => exact absurd (deliverOk_hasStatus _ _ _) hst
  | released hi hm hu => exact absurd (deliverOk_hasStatus _ _ _) hst
  | completed hi hm hu hd => exact absurd (deliverOk_hasStatus _ _ _) hst
  | stopped hi hm hu hn => exact ⟨_, _, _, rfl, hn⟩

/-- A BackingStoreUnavailable answers the page of the last operation recorded, which failed. -/
theorem info_of_unavailable {s t : State} {r : Response} (h : RecordedOk s t ∨ RecordedFail s t)
    (hr : t.resp = some r) (hst : r.status = .backingStoreUnavailable) :
    ∃ before op, t.ops = s.ops ++ before ++ [op] ∧ op.answer = .fail ∧ r.info = op.page.zeroExtend 24 := by
  rcases h with ⟨_, hnot⟩ | ⟨before, op, hnew, _, hfail, n, hresp⟩
  · exact absurd ⟨r, hr, hst⟩ hnot
  · obtain rfl := Option.some.inj (hresp.symm.trans hr)
    exact ⟨before, op, hnew.ops.trans (List.append_assoc _ _ _).symm, hfail, rfl⟩

end Sys2Proof.Machine

namespace Sys2Proof.Proofs

open Sys2Proof Sys2Proof.Machine

/-- Settles O9: past the check of the mode every meaning answers, and every answer is delivered in one of two forms. -/
theorem everyCommandAnswered : Obligations.EveryCommandAnswered := by
  unfold Obligations.EveryCommandAnswered
  intro i s hm
  obtain ⟨t, ht⟩ := exec_total i hm
  obtain ⟨r, hr⟩ := (exec_summary ht).responds
  exact ⟨t, r, ht, hr⟩

/-- Settles O10: only the creation and the release of the pool and the delivery of a fatal failure write the mode. -/
theorem modeMachine : Obligations.ModeMachine := by
  unfold Obligations.ModeMachine
  refine fun i s t h => ⟨(exec_summary h).modesFromOff, (exec_summary h).modesFromRun, fun hm => ?_⟩
  rw [exec_of_aborted i hm] at h
  cases h

/-- Settles O23: the check of the mode comes before anything is written, and ABORTED accepts nothing. -/
theorem memInitWhileRunningIsFatal : Obligations.MemInitWhileRunningIsFatal := by
  unfold Obligations.MemInitWhileRunningIsFatal
  refine ⟨fun s => exec_memInit_of_run, fun i s t h => (exec_summary h).reinitMisuse, fun s t hrun h => ?_, rfl⟩
  rw [exec_memInit_of_run hrun] at h
  cases h
  refine ⟨fun j u hu => ?_, fun w answers later => ?_⟩
  · rw [exec_of_aborted j rfl] at hu
    cases hu
  · rw [step_command rfl]
    exact runWord_of_aborted w rfl

/-- Settles O57: every operation of the fault path that writes the store is a recorded successful write-back. -/
theorem storeWrittenOnlyByWriteBack : Obligations.StoreWrittenOnlyByWriteBack := by
  unfold Obligations.StoreWrittenOnlyByWriteBack
  exact fun i s t p o hs h => (exec_summary h).storeAccounted hs p o

/-- Settles O59: a failure is delivered by one operation, which writes its own page or 0 and the count of the loop. -/
theorem failureResponseRecords : Obligations.FailureResponseRecords := by
  unfold Obligations.FailureResponseRecords
  intro i s t r h hr hst
  have hsum := exec_summary h
  have hnot : ¬ t.hasStatus .ok := fun hc => hst (State.hasStatus_unique ⟨r, hr, rfl⟩ hc)
  refine ⟨?_, info_of_unavailable hsum.recorded hr, ?_⟩
  all_goals
    obtain ⟨k, n, u, rfl, hn⟩ := hsum.failure hnot
    obtain rfl := Option.some.inj ((deliverFailure_resp u k n).symm.trans hr)
  · rfl
  · exact ⟨Failure.info_eq_zero, hn.failureValue⟩

/-- Settles O60: the record of a command is that of the operations it ran, each of which stops at a failed one. -/
theorem answersConsumedInOrder : Obligations.AnswersConsumedInOrder := by
  unfold Obligations.AnswersConsumedInOrder
  exact fun i s t h => answers_in_order (exec_summary h).recorded

end Sys2Proof.Proofs
end

section
/-!
Which failures the fault path raises from a well-formed state (spec/44_replacement.md R182, spec/60_exceptions.md R235), and
the refusals that leave the block as it was (R240).
-/

namespace Sys2Proof.Machine

/-! ### No InvariantViolation from a well-formed state -/

/-- The operation raises no InvariantViolation. -/
abbrev Res.NoViolation {α : Type} (r : Res α) : Prop := r.Sat (fun _ _ => True) (fun k _ => k ≠ .invariantViolation)

theorem noViolation_evict (p : PageNumber) (s : State) : (evict p s).NoViolation := by
  rcases evict_cases p s with ⟨_, he⟩ | ⟨_, _, he⟩ | ⟨_, _, _, he⟩ | ⟨_, _, _, he⟩ <;> rw [he]
  · trivial
  · trivial
  · trivial
  · exact nofun

theorem noViolation_load (p : PageNumber) (s : State) : (load p s).NoViolation := by
  rcases load_cases p s with ⟨_, he⟩ | ⟨_, he⟩ <;> rw [he]
  · trivial
  · exact nofun

theorem candidate_iff {s : State} {q : PageNumber} : candidate s q = true ↔ s.isCandidate q := by
  unfold candidate State.isCandidate
  rw [Bool.and_eq_true]

theorem noViolation_evictEach (l : List PageNumber) (s : State) : (evictEach l s).NoViolation := by
  induction l generalizing s with
  | nil => trivial
  | cons p l ih => exact sat_bind (noViolation_evict p s) fun _ t _ => ih t

section
variable {s : State} (h : s.WellFormed)
include h

/-- The page in an occupied frame is a candidate victim (R43, R181). -/
theorem exists_candidate_of_occupied {f : FrameNumber} (hf : (s.fte f).occupied = true) : ∃ q, s.isCandidate q := by
  have hpresent : (s.pte (s.fte f).owner).present = true := ((h.inv4 f).1 hf).1
  exact ⟨_, h.inv1 _ hpresent, hpresent⟩

theorem noViolation_replace (p : PageNumber) {f : FrameNumber} (hf : (s.fte f).occupied = true) :
    (replace p s).NoViolation := by
  rcases replace_cases p s with ⟨hnone, _⟩ | ⟨v, k, t, _, hv, he⟩ | ⟨v, t, _, _, he⟩
  · obtain ⟨q, hq⟩ := exists_candidate_of_occupied h hf
    exact absurd (chooseVictim_none.1 hnone q) (by rw [candidate_iff.2 hq]; decide)
  · rw [he]
    exact (noViolation_evict v s).of_raise hv
  · rw [he]
    exact noViolation_load p _

theorem noViolation_resolve (p : PageNumber) : (resolve p s).NoViolation := by
  have hresident : (makeResident p s).NoViolation := by
    rcases makeResident_cases p s with ⟨_, _, he⟩ | ⟨_, _, _, he⟩ | ⟨_, _, hf, he⟩ | ⟨f, _, _, he⟩ | ⟨_, hf, he⟩ <;>
      rw [he]
    · trivial
    · exact noViolation_load p _
    · exact noViolation_replace h p hf
    · exact noViolation_load p _
    · exact noViolation_replace h p (findFreeFrame_none.1 hf 0)
  exact sat_bind hresident fun _ _ _ => trivial

theorem noViolation_ptePage (p : PageNumber) : (ptePage p s).NoViolation := by
  unfold ptePage
  split
  · trivial
  · exact noViolation_resolve h p

theorem noViolation_readByte (va : VirtualAddress) : (readByte va s).NoViolation :=
  sat_bind (noViolation_ptePage h _) fun _ _ _ => trivial

theorem noViolation_writeByte (va : VirtualAddress) (v : Byte) : (writeByte va v s).NoViolation :=
  sat_bind (noViolation_ptePage h _) fun _ _ _ => trivial

end

theorem noViolation_readLoop (n : Nat) (va : VirtualAddress) (m : Nat) (acc : List Byte) {s : State} (h : s.WellFormed) :
    (readLoop n va m acc s).Sat (fun _ _ => True) (fun _ k _ => k ≠ .invariantViolation) := by
  induction n generalizing va m acc s with
  | zero => trivial
  | succ n ih =>
    have hb := sat_and (noViolation_readByte h va) (keptByCommands_wellFormed.readByte s va h)
    unfold readLoop
    cases hr : readByte va s with
    | ok b t => exact ih _ _ _ (hb.of_ok hr).2
    | raise k t => exact (hb.of_raise hr).1

theorem noViolation_writeLoop (vs : List Byte) (va : VirtualAddress) (m : Nat) {s : State} (h : s.WellFormed) :
    (writeLoop vs va m s).Sat (fun _ _ => True) (fun _ k _ => k ≠ .invariantViolation) := by
  induction vs generalizing va m s with
  | nil => trivial
  | cons v vs ih =>
    have hb := sat_and (noViolation_writeByte h va v)
      (keptByCommands_wellFormed.writeByte s va v (.write 0 v) rfl rfl h)
    unfold writeLoop
    cases hr : writeByte va v s with
    | ok b t => exact ih _ _ (hb.of_ok hr).2
    | raise k t => exact (hb.of_raise hr).1

theorem absent_of_no_candidate {s : State} (h : s.inv1) (hv : chooseVictim s = none) (p : PageNumber) :
    (s.pte p).present = false := by
  by_contra hp
  have hp : (s.pte p).present = true := by simpa using hp
  exact absurd (chooseVictim_none.1 hv p) (by rw [candidate_iff.2 ⟨h p hp, hp⟩]; decide)

/-- From a well-formed state only CHOOSE_VICTIM with no page present answers InvariantViolation. -/
theorem chooseVictim_of_violation {i : Instr} {s t : State} (h : s.WellFormed) (ha : Answered i s t)
    (hst : t.hasStatus .invariantViolation) : i = .chooseVictim ∧ ∀ p, (s.pte p).present = false := by
  have raised {k : Failure} {n : Nat} {u : State} (hst : (deliverFailure k n u).hasStatus .invariantViolation) :
      k = .invariantViolation := Failure.status_eq_invariantViolation.1 (hasStatus_deliverFailure_iff.1 hst).symm
  cases ha with
  | noVictim hm hv => exact ⟨rfl, absent_of_no_candidate h.inv1 hv⟩
  | notInitialized hm hn => cases raised hst
  | contract hm hb => cases raised hst
  | reinit hm => cases raised hst
  | notCreated hm hi => cases raised hst
  | haltStopped hm hr => exact absurd (raised hst) ((noViolation_evictEach allPages s).of_raise hr)
  | evictStopped p hm hr => exact absurd (raised hst) ((noViolation_evict p s).of_raise hr)
  | loadStopped p hm hal hr => exact absurd (raised hst) ((noViolation_load p s).of_raise hr)
  | resolveStopped p hm hr => exact absurd (raised hst) ((noViolation_resolve h p).of_raise hr)
  | handleStopped p hm hr => exact absurd (raised hst) ((noViolation_ptePage h p).of_raise hr)
  | readStopped a hm hr => exact absurd (raised hst) ((noViolation_readByte h _).of_raise hr)
  | writeStopped a v hm hr => exact absurd (raised hst) ((noViolation_writeByte h _ v).of_raise hr)
  | readnStopped a n hm hr => exact absurd (raised hst) ((noViolation_readLoop n _ 0 [] h).of_stopped hr)
  | sequenceStopped hseq hm hr => exact absurd (raised hst) ((noViolation_writeLoop _ _ 0 h).of_stopped hr)
  | _ => exact absurd (hasStatus_deliverOk_iff.1 hst) (by decide)

/-! ### The refusals of R240 -/

theorem evict_raise {p : PageNumber} {s u : State} {k : Failure} (h : evict p s = .raise k u) :
    k = .backingStoreUnavailable p ∧ u = s.attempt .write p := by
  rcases evict_cases p s with ⟨_, he⟩ | ⟨_, _, he⟩ | ⟨_, _, _, he⟩ | ⟨_, _, _, he⟩ <;> rw [he] at h <;> cases h
  exact ⟨rfl, rfl⟩

theorem load_raise {p : PageNumber} {s u : State} {k : Failure} (h : load p s = .raise k u) :
    k = .backingStoreUnavailable p ∧ u = s.attempt .read p := by
  rcases load_cases p s with ⟨_, he⟩ | ⟨_, he⟩ <;> rw [he] at h <;> cases h
  exact ⟨rfl, rfl⟩

/-- A failed LOAD or EVICT has only consumed its answer (R240 (b)). -/
theorem toBlock_of_unavailable {i : Instr} {s t : State} (ha : Answered i s t)
    (hst : t.hasStatus .backingStoreUnavailable) (hi : ∃ page, i = .load page ∨ i = .evict page) :
    t.toBlock = s.toBlock := by
  have failed (p : PageNumber) (kind : StoreOpKind) :
      (deliverFailure (.backingStoreUnavailable p) 0 (s.attempt kind p)).toBlock = s.toBlock :=
    (deliverFailure_toBlock _ _ _ rfl).trans (attempt_toBlock s kind p)
  cases ha with
  | evictStopped p hm hr =>
    obtain ⟨rfl, rfl⟩ := evict_raise hr
    exact failed p .write
  | loadStopped p hm hal hr =>
    obtain ⟨rfl, rfl⟩ := load_raise hr
    exact failed p .read
  | notInitialized hm hn => exact absurd (hasStatus_deliverFailure_iff.1 hst) (by decide)
  | contract hm hb => exact absurd (hasStatus_deliverFailure_iff.1 hst) (by decide)
  | sequenceStopped hseq hm hr => rcases hi with ⟨page, rfl | rfl⟩ <;> cases hseq
  | noVictim | reinit | notCreated | haltStopped | resolveStopped | handleStopped | readStopped | writeStopped
  | readnStopped => simp at hi
  | _ => exact absurd (hasStatus_deliverOk_iff.1 hst) (by decide)

end Sys2Proof.Machine

namespace Sys2Proof.Proofs

open Sys2Proof Sys2Proof.Machine

/-- Settles O51: a replacement is made only when a frame is occupied, and its owner is a candidate. -/
theorem invariantViolationOnlyChooseVictim : Obligations.InvariantViolationOnlyChooseVictim := by
  unfold Obligations.InvariantViolationOnlyChooseVictim
  exact fun i s t hs h hst => chooseVictim_of_violation hs (exec_answered h) hst

/-- Settles O56: the checks come before any write, and EVICT and LOAD write only after their transfer. -/
theorem refusalsChangeNothing : Obligations.RefusalsChangeNothing := by
  unfold Obligations.RefusalsChangeNothing
  refine fun i s t h => ⟨fun hst => ?_, toBlock_of_unavailable (exec_answered h)⟩
  rcases exec_checked h with ⟨_, _, rfl⟩ | ⟨_, rfl⟩ | hx
  · rfl
  · rfl
  · rcases hst with hst | hst
    · exact absurd hst (hx.not_hasStatus rfl)
    · exact absurd hst (hx.not_hasStatus rfl)

end Sys2Proof.Proofs
end

section
/-!
The commands that run no operation that can fail (spec/40_address_codec.md, spec/41_page_table.md, spec/42_frame_table_pm_bs.md
R152, spec/43_translate_fault.md R170, spec/44_replacement.md, spec/47_lifecycle.md R221): what each one answers and writes.
-/

namespace Sys2Proof.Machine

/-! ### Answers -/

/-- A result value given as a number is the value answered. -/
theorem deliverOk_eq {value : BitVec 32} {n : Nat} (h : value.toNat = n) (data : List Byte) (s : State) :
    deliverOk value data s = { s with resp := okResponse n data } := by
  subst h
  unfold deliverOk okResponse
  rw [BitVec.ofNat_toNat, BitVec.setWidth_eq]

theorem toNat_zeroExtend {w : Nat} (hw : w ≤ 32) (x : BitVec w) : (x.zeroExtend 32).toNat = x.toNat :=
  BitVec.toNat_setWidth_of_le hw

theorem flagValue_toNat (b : Bool) : (flagValue b).toNat = if b then 1 else 0 := by
  cases b <;> rfl

/-! ### The address codec -/

theorem exec_decodeVirtual_of_accepting {s : State} (hm : s.mode ≠ .aborted) (a : AField) :
    exec (.decodeVirtual a) s = .next (deliverOk ((virtualAddress a).zeroExtend 32) [] s) := by
  show execDecodeVirtual a s = _
  rw [execDecodeVirtual, whenAccepting_of_ne hm]
  show Host.Outcome.next (deliverOk ((encodeVirtual (pageOf (virtualAddress a)) (offsetOf (virtualAddress a))).zeroExtend
    32) [] s) = _
  rw [encodeVirtual_pageOf_offsetOf]

theorem exec_decodePhysical_of_accepting {s : State} (hm : s.mode ≠ .aborted) (a : AField) :
    exec (.decodePhysical a) s = .next (deliverOk ((physicalAddress a).zeroExtend 32) [] s) := by
  show execDecodePhysical a s = _
  rw [execDecodePhysical, whenAccepting_of_ne hm]
  show Host.Outcome.next (deliverOk ((encodePhysical (frameOf (physicalAddress a))
    (physicalOffsetOf (physicalAddress a))).zeroExtend 32) [] s) = _
  rw [encodePhysical_frameOf_physicalOffsetOf]

theorem exec_encodeVirtual_of_lt {s : State} (hm : s.mode ≠ .aborted) {page offset : Nat} (hp : page < 256)
    (ho : offset < 4096) : exec (.encodeVirtual page offset) s =
      .next (deliverOk ((encodeVirtual (BitVec.ofNat 8 page) (BitVec.ofNat 12 offset)).zeroExtend 32) [] s) := by
  show execEncodeVirtual page offset s = _
  rw [execEncodeVirtual, whenAccepting_of_ne hm, pageOperand_of_lt hp, offsetOperand_of_lt ho]
  rfl

theorem exec_encodePhysical_of_lt {s : State} (hm : s.mode ≠ .aborted) {frame offset : Nat} (hf : frame < 16)
    (ho : offset < 4096) : exec (.encodePhysical frame offset) s =
      .next (deliverOk ((encodePhysical (BitVec.ofNat 4 frame) (BitVec.ofNat 12 offset)).zeroExtend 32) [] s) := by
  show execEncodePhysical frame offset s = _
  rw [execEncodePhysical, whenAccepting_of_ne hm, frameOperand_of_lt hf, offsetOperand_of_lt ho]
  rfl

theorem encodeVirtual_ofNat_toNat {page offset : Nat} (hp : page < 256) (ho : offset < 4096) :
    (encodeVirtual (BitVec.ofNat 8 page) (BitVec.ofNat 12 offset)).toNat = page * 4096 + offset := by
  rw [encodeVirtual_toNat, storeBase, BitVec.toNat_ofNat, BitVec.toNat_ofNat, Nat.mod_eq_of_lt hp, Nat.mod_eq_of_lt ho]

theorem encodePhysical_ofNat_toNat {frame offset : Nat} (hf : frame < 16) (ho : offset < 4096) :
    (encodePhysical (BitVec.ofNat 4 frame) (BitVec.ofNat 12 offset)).toNat = frame * 4096 + offset := by
  rw [encodePhysical_toNat, frameBase, BitVec.toNat_ofNat, BitVec.toNat_ofNat, Nat.mod_eq_of_lt hf, Nat.mod_eq_of_lt ho]

/-! ### The commands with a page operand -/

section
variable {s : State} (hrun : s.mode = .run) (p : PageNumber)
include hrun

theorem exec_ptGet_of_run : exec (.ptGet p.toNat) s = .next (deliverOk ((s.pte p).image.zeroExtend 32) [] s) :=
  withPage_run hrun p _

theorem exec_isUnmapped_of_run : exec (.isUnmapped p.toNat) s = .next (deliverOk (flagValue (!(s.pte p).mapped)) [] s) :=
  withPage_run hrun p _

theorem exec_isPresent_of_run : exec (.isPresent p.toNat) s = .next (deliverOk (flagValue (s.pte p).present) [] s) :=
  withPage_run hrun p _

theorem exec_isDirty_of_run : exec (.isDirty p.toNat) s = .next (deliverOk (flagValue (s.pte p).dirty) [] s) :=
  withPage_run hrun p _

theorem exec_isReferenced_of_run :
    exec (.isReferenced p.toNat) s = .next (deliverOk (flagValue (s.pte p).referenced) [] s) :=
  withPage_run hrun p _

theorem exec_ptSet_of_run (e : PteImage) :
    exec (.ptSet p.toNat e) s = .next (deliverOk 0 [] (s.setPte p (Pte.installed e))) :=
  withPage_run hrun p _

theorem exec_ptClear_of_run : exec (.ptClear p.toNat) s =
    .next (deliverOk ((s.pte p).image.zeroExtend 32) [] (s.setPte p Pte.zero)) :=
  withPage_run hrun p _

theorem exec_markDirty_of_run :
    exec (.markDirty p.toNat) s = .next (deliverOk 0 [] (s.setPte p (s.pte p).markDirty)) :=
  withPage_run hrun p _

theorem exec_markClean_of_run :
    exec (.markClean p.toNat) s = .next (deliverOk 0 [] (s.setPte p (s.pte p).markClean)) :=
  withPage_run hrun p _

theorem exec_markReferenced_of_run :
    exec (.markReferenced p.toNat) s = .next (deliverOk 0 [] (s.setPte p (s.pte p).markReferenced)) :=
  withPage_run hrun p _

theorem exec_markUnreferenced_of_run :
    exec (.markUnreferenced p.toNat) s = .next (deliverOk 0 [] (s.setPte p (s.pte p).markUnreferenced)) :=
  withPage_run hrun p _

/-! ### The commands with no page operand -/

theorem exec_translate_of_run (a : AField) : exec (.translate a) s = .next (deliverOk
    ((encodePhysical (s.pte (pageOf (virtualAddress a))).frame (offsetOf (virtualAddress a))).zeroExtend 32) [] s) := by
  show execTranslate a s = _
  rw [execTranslate, whenRunning_run hrun]

theorem exec_findFreeFrame_of_run : exec .findFreeFrame s = .next (deliverOk (freeFrameValue (findFreeFrame s)) [] s) := by
  show execFindFreeFrame s = _
  rw [execFindFreeFrame, whenRunning_run hrun]

theorem exec_tick_of_run :
    exec .tick s = .next (deliverOk 0 [] { s with pt := mapTable s.pt Pte.markUnreferenced }) := by
  show execTick s = _
  rw [execTick, whenRunning_run hrun]

theorem exec_memDestroy_of_run : exec .memDestroy s = .next (deliverOk 0 [] (releasePool s)) := by
  show execMemDestroy s = _
  rw [execMemDestroy, whenRunning_run hrun]

theorem exec_chooseVictim_of_some {v : PageNumber} (hv : chooseVictim s = some v) :
    exec .chooseVictim s = .next (deliverOk (v.zeroExtend 32) [] s) := by
  show execChooseVictim s = _
  rw [execChooseVictim, whenRunning_run hrun, hv]

theorem exec_chooseVictim_of_none (hv : chooseVictim s = none) :
    exec .chooseVictim s = .next (deliverFailure .invariantViolation 0 s) := by
  show execChooseVictim s = _
  rw [execChooseVictim, whenRunning_run hrun, hv]

end

/-! ### Address operands as the statements write them -/

theorem pageOf_virtualAddress (a : AField) : pageOf (virtualAddress a) = a.extractLsb' 12 8 :=
  BitVec.extractLsb'_extractLsb'_of_le (by decide)

theorem offsetOf_virtualAddress (a : AField) : offsetOf (virtualAddress a) = a.extractLsb' 0 12 :=
  BitVec.extractLsb'_extractLsb'_of_le (by decide)

/-! ### The two scans -/

theorem freeFrameValue_some_toNat (f : FrameNumber) : (freeFrameValue (some f)).toNat = 16 + f.toNat := by
  show ((1#1 ++ f).zeroExtend 32).toNat = _
  rw [toNat_zeroExtend (by decide), toNat_append]
  rfl

/-- The lowest free frame is the one the scan finds (R152). -/
theorem findFreeFrame_of_lowestFree {s : State} {f : FrameNumber} (h : s.lowestFree f) : findFreeFrame s = some f := by
  obtain ⟨hfree, hlower⟩ := h
  cases hfind : findFreeFrame s with
  | none =>
    rw [findFreeFrame_none.1 hfind f] at hfree
    cases hfree
  | some g =>
    obtain ⟨hg, hg'⟩ := findFreeFrame_some hfind
    rcases BitVec.lt_trichotomy g f with hlt | rfl | hlt
    · rw [hlower g hlt] at hg
      cases hg
    · rfl
    · rw [hg' f hlt] at hfree
      cases hfree

theorem lowestFree_or_full (s : State) : (∃ f, s.lowestFree f) ∨ ∀ f, (s.fte f).occupied = true := by
  cases hfind : findFreeFrame s with
  | none => exact .inr (findFreeFrame_none.1 hfind)
  | some f => exact .inl ⟨f, findFreeFrame_some hfind⟩

theorem isVictim_of_chooseVictim {s : State} {v : PageNumber} (h : chooseVictim s = some v) : s.isVictim v :=
  ⟨candidate_iff.1 (chooseVictim_some h).1, fun q hq => (chooseVictim_some h).2 q (candidate_iff.2 hq)⟩

/-- The order of the scan leaves one victim at most (R180). -/
theorem isVictim_unique {s : State} {v w : PageNumber} (hv : s.isVictim v) (hw : s.isVictim w) : v = w := by
  rcases hv.2 w hw.1, hw.2 v hv.1 with ⟨h1 | ⟨h1, hle⟩, h2 | ⟨h2, hle'⟩⟩
  · exact absurd (BitVec.lt_trans h1 h2) (BitVec.lt_irrefl _)
  · rw [h2] at h1
    exact absurd h1 (BitVec.lt_irrefl _)
  · rw [h1] at h2
    exact absurd h2 (BitVec.lt_irrefl _)
  · exact BitVec.le_antisymm hle hle'

/-- The victim is the one the scan chooses (R180). -/
theorem chooseVictim_of_isVictim {s : State} {v : PageNumber} (h : s.isVictim v) : chooseVictim s = some v := by
  cases hc : chooseVictim s with
  | none => exact absurd (chooseVictim_none.1 hc v) (by rw [candidate_iff.2 h.1]; decide)
  | some w => rw [isVictim_unique (isVictim_of_chooseVictim hc) h]

theorem chooseVictim_of_no_candidate {s : State} (h : ∀ q, ¬ s.isCandidate q) : chooseVictim s = none :=
  chooseVictim_none.2 fun q => by
    rw [← Bool.not_eq_true, candidate_iff]
    exact h q

theorem isVictim_or_no_candidate (s : State) : (∃ v, s.isVictim v) ∨ ∀ q, ¬ s.isCandidate q := by
  cases hc : chooseVictim s with
  | none => exact .inr fun q hq => absurd (chooseVictim_none.1 hc q) (by rw [candidate_iff.2 hq]; decide)
  | some v => exact .inl ⟨v, isVictim_of_chooseVictim hc⟩

/-! ### When PT_SET and PT_CLEAR keep a state well-formed -/

theorem wellFormed_deliverOk_iff {value : BitVec 32} {data : List Byte} {s : State} :
    (deliverOk value data s).WellFormed ↔ s.WellFormed :=
  ⟨SameContents.wellFormed ⟨rfl, rfl, rfl, rfl⟩, SameContents.wellFormed ⟨rfl, rfl, rfl, rfl⟩⟩

@[simp] theorem installed_present (e : PteImage) : (Pte.installed e).present = e.getLsbD 4 := rfl
@[simp] theorem installed_frame (e : PteImage) : (Pte.installed e).frame = e.extractLsb' 0 4 := rfl

/-- Replacing an entry keeps a well-formed state so exactly when residency does not change: the frame table is not
written, so it would no longer agree (R133 (b), R134 (b)). -/
theorem wellFormed_setPte_iff {s : State} (h : s.WellFormed) (p : PageNumber) {e : Pte}
    (hmapped : e.present = true → e.mapped = true) : (s.setPte p e).WellFormed ↔
      ((s.pte p).present = false ∧ e.present = false) ∨
        ((s.pte p).present = true ∧ e.present = true ∧ e.frame = (s.pte p).frame) := by
  constructor
  · intro ht
    cases hs : (s.pte p).present with
    | false =>
      refine .inl ⟨rfl, ?_⟩
      by_contra hc
      have he : e.present = true := by simpa using hc
      have hfte : s.fte e.frame = Fte.taken p := by
        have := fte_of_present ht (p := p) (by rwa [setPte_pte_self])
        rwa [setPte_pte_self, setPte_fte] at this
      have howner := ((h.inv4 e.frame).1 (by rw [hfte]; rfl)).1
      rw [hfte, taken_owner, hs] at howner
      cases howner
    | true =>
      have hfte := fte_of_present h hs
      have howner := (ht.inv4 (s.pte p).frame).1 (by rw [setPte_fte, hfte]; rfl)
      unfold State.resident at howner
      rw [setPte_fte, hfte, taken_owner, setPte_pte_self] at howner
      exact .inr ⟨rfl, howner⟩
  · rintro (⟨hs, he⟩ | ⟨hs, he, hf⟩)
    · exact wellFormed_setPte h p e (he.trans hs.symm) fun hc => absurd (hc.symm.trans he) (by decide)
    · exact wellFormed_setPte h p e (he.trans hs.symm) fun hc => ⟨hf, hmapped hc⟩

theorem restKept_deliverOk_tick (s : State) :
    RestKept s (deliverOk 0 [] { s with pt := mapTable s.pt Pte.markUnreferenced }) where
  mode := rfl
  frameTable := fun _ => rfl
  frames := fun _ _ => rfl
  store := fun _ _ => rfl
  ports := ⟨rfl, rfl, rfl, rfl⟩

/-- A command that writes one page-table entry: its answer, the entry, and the rest left alone. -/
theorem entryWritten (s : State) (p : PageNumber) (e : Pte) (value : BitVec 32) :
    (deliverOk value [] (s.setPte p e)).pte p = e ∧
      (∀ q, q ≠ p → (deliverOk value [] (s.setPte p e)).pte q = s.pte q) ∧
      RestKept s (deliverOk value [] (s.setPte p e)) :=
  ⟨setPte_pte_self s p e, fun q hq => (setPte_pte s p e q).trans (if_neg hq), restKept_deliverOk_setPte s p e value []⟩

end Sys2Proof.Machine

namespace Sys2Proof.Proofs

open Sys2Proof Sys2Proof.Machine

/-- Settles O14: the codec's functions are appends and cuts of the operands' fields. -/
theorem codecCommands : Obligations.CodecCommands := by
  unfold Obligations.CodecCommands
  intro s hm
  refine ⟨fun a => ?_, fun page offset hp ho => ?_, fun a => ?_, fun frame offset hf ho => ?_⟩
  · rw [exec_decodeVirtual_of_accepting hm, deliverOk_eq (toNat_zeroExtend (by decide) _)]
    rfl
  · rw [exec_encodeVirtual_of_lt hm hp ho,
      deliverOk_eq ((toNat_zeroExtend (by decide) _).trans (encodeVirtual_ofNat_toNat hp ho))]
  · rw [exec_decodePhysical_of_accepting hm, deliverOk_eq (toNat_zeroExtend (by decide) _)]
    rfl
  · rw [exec_encodePhysical_of_lt hm hf ho,
      deliverOk_eq ((toNat_zeroExtend (by decide) _).trans (encodePhysical_ofNat_toNat hf ho))]

/-- Settles O16: each command delivers a field of the entry and passes the state on. -/
theorem pageTableReads : Obligations.PageTableReads := by
  unfold Obligations.PageTableReads
  refine fun s hrun => ⟨fun p => ⟨?_, ?_, ?_, ?_, ?_⟩, fun a => ?_⟩
  · rw [exec_ptGet_of_run hrun, deliverOk_eq (toNat_zeroExtend (by decide) _)]
  · have hvalue : (flagValue (!(s.pte p).mapped)).toNat = if (s.pte p).mapped then 0 else 1 := by
      rw [flagValue_toNat]
      cases (s.pte p).mapped <;> rfl
    rw [exec_isUnmapped_of_run hrun, deliverOk_eq hvalue]
  · rw [exec_isPresent_of_run hrun, deliverOk_eq (flagValue_toNat _)]
  · rw [exec_isDirty_of_run hrun, deliverOk_eq (flagValue_toNat _)]
  · rw [exec_isReferenced_of_run hrun, deliverOk_eq (flagValue_toNat _)]
  · rw [exec_translate_of_run hrun, pageOf_virtualAddress, offsetOf_virtualAddress,
      deliverOk_eq ((toNat_zeroExtend (by decide) _).trans (encodePhysical_toNat _ _))]
    rfl

/-- Settles O17: the scan meets the frames in ascending order. -/
theorem findFreeFrameScan : Obligations.FindFreeFrameScan := by
  unfold Obligations.FindFreeFrameScan
  refine fun s hrun => ⟨fun f hf => ?_, fun hfull => ?_, lowestFree_or_full s⟩
  · rw [exec_findFreeFrame_of_run hrun, findFreeFrame_of_lowestFree hf, deliverOk_eq (freeFrameValue_some_toNat f)]
  · rw [exec_findFreeFrame_of_run hrun, findFreeFrame_none.2 hfull]
    rfl

/-- Settles O18: the scan replaces its best page by a strictly younger one only, so the lowest of the smallest age stays. -/
theorem chooseVictimScan : Obligations.ChooseVictimScan := by
  unfold Obligations.ChooseVictimScan
  refine fun s hrun => ⟨fun v hv => ?_, fun hnone => ?_, isVictim_or_no_candidate s⟩
  · rw [exec_chooseVictim_of_some hrun (chooseVictim_of_isVictim hv), deliverOk_eq (toNat_zeroExtend (by decide) _)]
  · rw [exec_chooseVictim_of_none hrun (chooseVictim_of_no_candidate hnone)]
    rfl

/-- Settles O19: both commands are a write of one page-table entry. -/
theorem ptSetAndPtClear : Obligations.PtSetAndPtClear := by
  unfold Obligations.PtSetAndPtClear
  refine fun s p hrun => ⟨fun e => ?_, ?_⟩
  · exact ⟨_, exec_ptSet_of_run hrun p e, rfl, entryWritten s p (Pte.installed e) 0⟩
  · exact ⟨_, exec_ptClear_of_run hrun p, deliverOk_zeroExtend_resp _ _ _, entryWritten s p Pte.zero _⟩

/-- Settles O20: each MARK command is a write of one page-table entry. -/
theorem markCommands : Obligations.MarkCommands := by
  unfold Obligations.MarkCommands
  refine fun s p hrun => ⟨?_, ?_, ?_, ?_⟩
  · exact ⟨_, exec_markDirty_of_run hrun p, rfl, entryWritten s p _ 0⟩
  · exact ⟨_, exec_markClean_of_run hrun p, rfl, entryWritten s p _ 0⟩
  · exact ⟨_, exec_markReferenced_of_run hrun p, rfl, entryWritten s p _ 0⟩
  · exact ⟨_, exec_markUnreferenced_of_run hrun p, rfl, entryWritten s p _ 0⟩

/-- Settles O21: the whole table is mapped by `mark_unreferenced`. -/
theorem tickAgesEveryPage : Obligations.TickAgesEveryPage := by
  unfold Obligations.TickAgesEveryPage
  exact fun s hrun => ⟨_, exec_tick_of_run hrun, rfl, mapTable_pte s Pte.markUnreferenced, restKept_deliverOk_tick s⟩

/-- Settles O24: the release writes the tables, physical memory and the mode only. -/
theorem memDestroyReleasesWithoutFlush : Obligations.MemDestroyReleasesWithoutFlush := by
  unfold Obligations.MemDestroyReleasesWithoutFlush
  exact fun s hrun => ⟨_, exec_memDestroy_of_run hrun, rfl, rfl, fun _ _ => rfl, rfl, rfl, rfl⟩

/-- Settles O48: the tables and memories at reset are those of a new pool. -/
theorem resetState : Obligations.ResetState := by
  unfold Obligations.ResetState
  have hcontents : SameContents (createPool { State.reset with bs := [] }) State.reset := ⟨rfl, rfl, rfl, rfl⟩
  obtain ⟨hsound, _⟩ := hcontents.sound (sound_createPool State.reset)
  exact ⟨rfl, ⟨hsound.canonical, fun _ => hsound.wellFormed⟩, hsound⟩

/-- Settles O52: neither command writes the frame table, so the state stays well-formed exactly when the page's residency
does not change. -/
theorem forgingSafeUses : Obligations.ForgingSafeUses := by
  unfold Obligations.ForgingSafeUses
  refine fun s t p hrun hs => ⟨fun e h => ?_, fun h => ?_⟩
  · rw [exec_ptSet_of_run hrun] at h
    cases h
    exact wellFormed_deliverOk_iff.trans (wellFormed_setPte_iff hs p fun _ => rfl)
  · rw [exec_ptClear_of_run hrun] at h
    cases h
    rw [wellFormed_deliverOk_iff, wellFormed_setPte_iff hs p fun hc => absurd hc (by decide)]
    simp

end Sys2Proof.Proofs
end

section
/-!
LOAD, RESOLVE, PTE_PAGE and the second EVICT (spec/43_translate_fault.md, spec/45_evict_load.md R191 to R193): what a load
and an eviction leave, the branch that `resolve` takes, and each branch as a composition of the two.
-/

namespace Sys2Proof.Machine

/-! ### What was asked of the environment -/

theorem Asked.refl (s : State) : Asked s s [] := ⟨rfl, rfl, by simp, rfl, rfl⟩

theorem Asked.trans {s t u : State} {m n : List StoreOp} (h : Asked s t m) (h' : Asked t u n) : Asked s u (m ++ n) where
  input := h'.input.trans h.input
  freeCount := h'.freeCount.trans h.freeCount
  ops := by rw [h'.ops, h.ops, List.append_assoc]
  io := by rw [h'.io, h.io, List.length_append, drop_add]
  answers := by rw [List.map_append, h.answers, h'.answers, h.io, List.length_append, take_add]

/-- Nothing but the ports is judged by what was asked. -/
theorem Asked.of_ports {s t u : State} {new : List StoreOp} (h : Asked s t new) (hu : PortsKept t u) :
    Asked s u new :=
  ⟨hu.input.trans h.input, hu.freeCount.trans h.freeCount, hu.ops.trans h.ops, hu.io.trans h.io, h.answers⟩

theorem portsKept_setPte (s : State) (p : PageNumber) (e : Pte) : PortsKept s (s.setPte p e) := ⟨rfl, rfl, rfl, rfl⟩

theorem asked_of_setPte {s t : State} {p : PageNumber} {e : Pte} {new : List StoreOp}
    (h : Asked (s.setPte p e) t new) : Asked s t new := ⟨h.input, h.freeCount, h.ops, h.io, h.answers⟩

/-- The answers to `m ++ n` are those to `m` and then, from what is left, those to `n`. -/
theorem take_append_answers {x : IoAnswers} {m n : List StoreOp}
    (h : x.take (m ++ n).length = (m ++ n).map (·.answer)) :
    x.take m.length = m.map (·.answer) ∧ (x.drop m.length).take n.length = n.map (·.answer) := by
  rw [List.length_append, take_add, List.map_append] at h
  exact List.append_inj h (by rw [length_take, List.length_map])

/-! ### load -/

section
variable {s : State}

theorem load_of_ok (h : s.io.next.1 = .ok) (p : PageNumber) : load p s = .ok () (loadedFrom p s) := by
  simpa [h] using load_cases p s

theorem load_of_fail (h : s.io.next.1 = .fail) (p : PageNumber) :
    load p s = .raise (.backingStoreUnavailable p) (s.attempt .read p) := by
  simpa [h] using load_cases p s

/-- A load through a new entry puts the store image into the frame the entry names (R171, R192). -/
theorem pageLoaded_loadedFrom (hs : s.MemoriesCanonical) (p : PageNumber) (e : Pte) :
    PageLoaded s (loadedFrom p (s.setPte p e)) p e.frame e.loaded := by
  have hframe : ((s.setPte p e).pte p).frame = e.frame := by rw [setPte_pte_self]
  have hbyte := frameByte_loadedFrom (s := s.setPte p e) hs.pm_wf hs.bs_wf p
  have hpte := fillFrame_pte ((s.setPte p e).attempt .read p) p
    (Memory.readBlock (s.setPte p e).bs (storeBase p) Config.pageSize)
  have hfte := fillFrame_fte ((s.setPte p e).attempt .read p) p
    (Memory.readBlock (s.setPte p e).bs (storeBase p) Config.pageSize)
  simp only [attempt_pte, attempt_fte, setPte_fte, hframe] at hpte hfte hbyte
  refine ⟨?_, fun q hq => ?_, ?_, fun g hg => ?_, fun o => ?_, fun g o hg => ?_, fun _ _ => rfl⟩
  · exact (hpte p).trans (by rw [if_pos rfl, setPte_pte_self])
  · exact (hpte q).trans (by rw [if_neg hq, setPte_pte, if_neg hq])
  · exact (hfte e.frame).trans (if_pos rfl)
  · exact (hfte g).trans (if_neg hg)
  · exact (hbyte e.frame o).trans (if_pos rfl)
  · exact (hbyte g o).trans (if_neg hg)

theorem asked_loadedFrom (h : s.io.take 1 = [.ok]) (p : PageNumber) : Asked s (loadedFrom p s) [⟨.read, p, .ok⟩] :=
  have ha := asked_attempt h .read p
  ⟨ha.input, ha.freeCount, ha.ops, ha.io, ha.answers⟩

end

/-- The loaded page's entry may be written again: no other part of the transfer depends on it. -/
theorem PageLoaded.setPte {s t : State} {p : PageNumber} {f : FrameNumber} {e : Pte} (h : PageLoaded s t p f e)
    (e' : Pte) : PageLoaded s (t.setPte p e') p f e' where
  entry := setPte_pte_self t p e'
  otherEntries := fun q hq => (setPte_pte t p e' q).trans ((if_neg hq).trans (h.otherEntries q hq))
  frame := h.frame
  otherFrames := h.otherFrames
  bytes := h.bytes
  otherBytes := h.otherBytes
  store := h.store

theorem PageLoaded.markReferenced {s t : State} {p : PageNumber} {f : FrameNumber} {e : Pte}
    (h : PageLoaded s t p f e) : PageLoaded s (t.markReferenced p) p f e.markReferenced := by
  have := h.setPte e.markReferenced
  rwa [← h.entry] at this ⊢

theorem PageLoaded.deliverOk {s t : State} {p : PageNumber} {f : FrameNumber} {e : Pte} (h : PageLoaded s t p f e)
    (value : BitVec 32) (data : List Byte) : PageLoaded s (deliverOk value data t) p f e :=
  ⟨h.entry, h.otherEntries, h.frame, h.otherFrames, h.bytes, h.otherBytes, h.store⟩

/-! ### EVICT twice -/

/-- Once `evict` completes the page is not present (R190, R195). -/
theorem absent_of_evict_ok {p : PageNumber} {s u : State} (h : evict p s = .ok () u) : (u.pte p).present = false := by
  rcases evict_cases p s with ⟨hp, he⟩ | ⟨_, _, he⟩ | ⟨_, _, _, he⟩ | ⟨_, _, _, he⟩ <;> rw [he] at h <;> cases h
  · exact hp
  · rw [dropPage_pte, if_pos rfl, evicted_present]
  · rw [dropPage_pte, if_pos rfl, evicted_present]

/-! ### LOAD -/

theorem exec_load_of_allowed {s : State} (hrun : s.mode = .run) {p : PageNumber} (h : loadAllowed p s = true) :
    exec (.load p.toNat) s = deliver (fun _ _ => 0) (load p s) := by
  show execLoad p.toNat s = _
  rw [execLoad, withPage_run hrun]
  exact if_pos h

/-! ### The branches of resolve -/

section
variable {s u : State} {p : PageNumber}

theorem resolve_of_makeResident_ok (h : makeResident p s = .ok () u) :
    resolve p s = .ok (u.pte p).frame (u.markReferenced p) := by
  rw [resolve, h, bind_ok, markReferenced_pte_self, markReferenced_frame]

theorem resolve_of_makeResident_raise {k : Failure} (h : makeResident p s = .raise k u) : resolve p s = .raise k u := by
  rw [resolve, h, bind_raise]

theorem makeResident_of_lowestFree {f : FrameNumber} (hmapped : (s.pte p).mapped = false) (hf : s.lowestFree f) :
    makeResident p s = load p (s.setPte p (Pte.fresh f)) := by
  simp [makeResident, hmapped, findFreeFrame_of_lowestFree hf]

theorem makeResident_of_idle (hmapped : (s.pte p).mapped = true) (hpresent : (s.pte p).present = false)
    (hf : (s.fte (s.pte p).frame).occupied = false) : makeResident p s = load p s := by
  simp [makeResident, hmapped, hpresent, hf]

theorem makeResident_of_needsReplacement (h : s.needsReplacement p) : makeResident p s = replace p s := by
  rcases h with ⟨hmapped, hpresent, hf⟩ | ⟨hmapped, hfull⟩
  · simp [makeResident, hmapped, hpresent, hf]
  · simp [makeResident, hmapped, findFreeFrame_none.2 hfull]

theorem replace_of_evicted {v : PageNumber} (hv : s.isVictim v) (h : evict v s = .ok () u) :
    replace p s = load p (u.setPte p ((u.pte p).remapped (s.pte v).frame)) := by
  rw [replace, chooseVictim_of_isVictim hv]
  simp only [h, bind_ok]

theorem replace_of_evict_raise {v : PageNumber} {k : Failure} (hv : s.isVictim v) (h : evict v s = .raise k u) :
    replace p s = .raise k u := by
  rw [replace, chooseVictim_of_isVictim hv]
  simp only [h, bind_raise]

/-- A page that needs replacement is no candidate itself. -/
theorem ne_victim_of_needsReplacement {v : PageNumber} (h : s.needsReplacement p) (hv : s.isVictim v) : p ≠ v := by
  rintro rfl
  obtain ⟨hmapped, hpresent⟩ := hv.1
  rcases h with ⟨_, habsent, _⟩ | ⟨hunmapped, _⟩
  · exact absurd (hpresent.symm.trans habsent) (by decide)
  · exact absurd (hmapped.symm.trans hunmapped) (by decide)

end

/-! ### The eviction of a victim -/

/-- The store operations of an eviction that succeeds: the write-back of a dirty page. -/
def writeBack (s : State) (v : PageNumber) : List StoreOp := if (s.pte v).dirty then [⟨.write, v, .ok⟩] else []

/-- The store after an eviction: the write-back of a dirty page. -/
def StoreEvicted (s t : State) (v : PageNumber) : Prop := if (s.pte v).dirty then PageWritten s t v else StoreKept s t

section
variable {s t : State} {v : PageNumber}

theorem writeBack_of_clean (h : (s.pte v).dirty = false) : writeBack s v = [] := if_neg (by rw [h]; decide)

theorem writeBack_of_dirty (h : (s.pte v).dirty = true) : writeBack s v = [⟨.write, v, .ok⟩] := if_pos h

theorem storeEvicted_of_clean (h : (s.pte v).dirty = false) : StoreEvicted s t v ↔ StoreKept s t :=
  iff_of_eq (if_neg (by rw [h]; decide))

theorem storeEvicted_of_dirty (h : (s.pte v).dirty = true) : StoreEvicted s t v ↔ PageWritten s t v :=
  iff_of_eq (if_pos h)

theorem StoreEvicted.trans {u : State} (h : StoreEvicted s t v) (hu : StoreKept t u) : StoreEvicted s u v := by
  cases hd : (s.pte v).dirty with
  | false => exact (storeEvicted_of_clean hd).2 fun q o => (hu q o).trans ((storeEvicted_of_clean hd).1 h q o)
  | true =>
    obtain ⟨hwritten, hother⟩ := (storeEvicted_of_dirty hd).1 h
    exact (storeEvicted_of_dirty hd).2
      ⟨fun o => (hu v o).trans (hwritten o), fun q o hq => (hu q o).trans (hother q o hq)⟩

theorem StoreEvicted.otherPages (h : StoreEvicted s t v) {q : PageNumber} (hq : q ≠ v) (o : Offset) :
    t.storeByte q o = s.storeByte q o := by
  cases hd : (s.pte v).dirty with
  | false => exact (storeEvicted_of_clean hd).1 h q o
  | true => exact ((storeEvicted_of_dirty hd).1 h).otherPages q o hq

end

/-- The state after a successful eviction, as R190 gives it. -/
structure Evicted (s t : State) (v : PageNumber) : Prop where
  mode : t.mode = s.mode
  canonical : t.MemoriesCanonical
  dropped : PageDropped s t v
  store : StoreEvicted s t v
  asked : Asked s t (writeBack s v)

theorem evict_evicted {s : State} {v : PageNumber} (hs : s.MemoriesCanonical) (hpresent : (s.pte v).present = true)
    (hio : s.io.take (writeBack s v).length = (writeBack s v).map (·.answer)) :
    ∃ t, evict v s = .ok () t ∧ Evicted s t v := by
  cases hdirty : (s.pte v).dirty with
  | false =>
    refine ⟨_, evict_of_clean hpresent hdirty, rfl, canonical_dropPage hs v, pageDropped_dropPage hs.pm_wf v,
      (storeEvicted_of_clean hdirty).2 fun _ _ => rfl, ?_⟩
    rw [writeBack_of_clean hdirty]
    exact (Asked.refl s).of_ports ⟨rfl, rfl, rfl, rfl⟩
  | true =>
    rw [writeBack_of_dirty hdirty] at hio
    refine ⟨_, evict_of_dirty_ok hpresent hdirty (IoAnswers.next_of_take_one hio), rfl,
      canonical_dropPage (canonical_writtenBack hs v) v, pageDropped_dropPage_writtenBack hs.pm_wf v,
      (storeEvicted_of_dirty hdirty).2 ((pageWritten_writtenBack hs.pm_wf hs.bs_wf v).of_bs_eq rfl), ?_⟩
    rw [writeBack_of_dirty hdirty]
    exact asked_dropPage_writtenBack hio v

/-- Branch 3 up to the load: the victim evicted, the page remapped to its frame (R171, R174). -/
theorem makeResident_replacing {s : State} {p v : PageNumber} {a : IoAnswer} (hs : s.MemoriesCanonical)
    (hneeds : s.needsReplacement p) (hv : s.isVictim v)
    {ops : List StoreOp} (hops : ops = writeBack s v ++ [⟨.read, p, a⟩])
    (hio : s.io.take ops.length = ops.map (·.answer)) :
    ∃ t, Evicted s t v ∧ t.io.take 1 = [a] ∧
      makeResident p s = load p (t.setPte p ((s.pte p).remapped (s.pte v).frame)) := by
  subst hops
  obtain ⟨hwrite, hread⟩ := take_append_answers hio
  obtain ⟨t, ht, hevicted⟩ := evict_evicted hs hv.1.2 hwrite
  refine ⟨t, hevicted, ?_, ?_⟩
  · rw [hevicted.asked.io]
    exact hread
  · rw [makeResident_of_needsReplacement hneeds, replace_of_evicted hv ht,
      hevicted.dropped.otherEntries p (ne_victim_of_needsReplacement hneeds hv)]

/-- The operations of branch 3 in the form the statements give them. -/
theorem replacement_ops (s : State) (p v : PageNumber) (a : IoAnswer) :
    (if (s.pte v).dirty then [(⟨.write, v, .ok⟩ : StoreOp), ⟨.read, p, a⟩] else [⟨.read, p, a⟩]) =
      writeBack s v ++ [⟨.read, p, a⟩] := by
  unfold writeBack
  split <;> rfl

/-! ### RESOLVE of a page that has to be loaded -/

section
variable {s u : State} {p : PageNumber} (hrun : s.mode = .run)
include hrun

/-- The answer of a RESOLVE whose branch loaded the page into frame `f`: the page is marked referenced (R176). -/
theorem exec_resolve_of_loaded {t : State} {f : FrameNumber} {e : Pte} (h : makeResident p s = .ok () u)
    (hu : PageLoaded t u p f e) (hf : e.frame = f) :
    exec (.resolve p.toNat) s = .next (deliverOk (f.zeroExtend 32) [] (u.markReferenced p)) := by
  rw [exec_resolve_of_run hrun, resolve_of_makeResident_ok h, hu.entry, hf]
  rfl

theorem exec_resolve_of_raise {k : Failure} (h : makeResident p s = .raise k u) :
    exec (.resolve p.toNat) s = .next (deliverFailure k 0 u) := by
  rw [exec_resolve_of_run hrun, resolve_of_makeResident_raise h]
  rfl

end

/-- Branches 1 and 2, the read answered ok: the page loaded through the entry `e` and marked (R172, R173, R176). -/
theorem resolve_loads {s : State} {p : PageNumber} {e : Pte} (hrun : s.mode = .run) (hs : s.MemoriesCanonical)
    (h : makeResident p s = load p (s.setPte p e)) (hio : s.io.take 1 = [.ok]) :
    ∃ t, exec (.resolve p.toNat) s = .next t ∧ t.resp = okResponse e.frame.toNat [] ∧ t.mode = .run ∧
      PageLoaded s t p e.frame e.loaded.markReferenced ∧ Asked s t [⟨.read, p, .ok⟩] := by
  have hload := h.trans (load_of_ok (s := s.setPte p e) (IoAnswers.next_of_take_one hio) p)
  have hloaded := pageLoaded_loadedFrom hs p e
  have hasked : Asked s (loadedFrom p (s.setPte p e)) [⟨.read, p, .ok⟩] :=
    asked_of_setPte (asked_loadedFrom (s := s.setPte p e) hio p)
  exact ⟨_, exec_resolve_of_loaded hrun hload hloaded rfl, deliverOk_zeroExtend_resp _ _ _, hrun,
    hloaded.markReferenced.deliverOk _ _, (hasked.of_ports (portsKept_setPte _ _ _)).deliverOk _ _⟩

/-- A failed read of branches 1 to 3 has consumed its answer and leaves the entry written for it (R178). -/
theorem resolve_stops {s u : State} {p : PageNumber} {e : Pte} (hrun : s.mode = .run)
    (h : makeResident p s = load p (u.setPte p e)) (hio : u.io.take 1 = [.fail]) :
    exec (.resolve p.toNat) s =
        .next (deliverFailure (.backingStoreUnavailable p) 0 ((u.setPte p e).attempt .read p)) ∧
      Asked u (deliverFailure (.backingStoreUnavailable p) 0 ((u.setPte p e).attempt .read p)) [⟨.read, p, .fail⟩] := by
  have hload := h.trans (load_of_fail (s := u.setPte p e) (IoAnswers.next_of_take_one hio) p)
  exact ⟨exec_resolve_of_raise hrun hload,
    (asked_of_setPte (asked_attempt (s := u.setPte p e) hio .read p)).deliverFailure _ 0⟩

/-! ### The seventeenth page -/

/-- What a completed load leaves of the tables (R192). -/
theorem load_tables {s u : State} {p : PageNumber} (h : load p s = .ok () u) :
    (∀ q, u.pte q = if q = p then (s.pte p).loaded else s.pte q) ∧
      ∀ f, u.fte f = if f = (s.pte p).frame then Fte.taken p else s.fte f := by
  rcases load_cases p s with ⟨_, he⟩ | ⟨_, he⟩ <;> rw [he] at h <;> cases h
  exact ⟨fillFrame_pte (s.attempt .read p) p _, fillFrame_fte (s.attempt .read p) p _⟩

/-- A completed replacement: the victim's entry, the page's entry and the victim's frame are written, no other (R174). -/
theorem replace_tables {s u : State} {p : PageNumber} (hp : (s.pte p).present = false) (h : replace p s = .ok () u) :
    ∃ v, s.isVictim v ∧ u.pte v = (s.pte v).evicted ∧ u.pte p = ((s.pte p).remapped (s.pte v).frame).loaded ∧
      (∀ q, q ≠ v → q ≠ p → u.pte q = s.pte q) ∧
      ∀ f, u.fte f = if f = (s.pte v).frame then Fte.taken p else s.fte f := by
  rcases replace_cases p s with ⟨_, he⟩ | ⟨v, k, t, _, _, he⟩ | ⟨v, t, hchosen, hevict, he⟩ <;> rw [he] at h
  · cases h
  · cases h
  have hv := isVictim_of_chooseVictim hchosen
  have hpv : p ≠ v := by
    rintro rfl
    exact absurd (hv.1.2.symm.trans hp) (by decide)
  obtain ⟨hentries, hframes⟩ := evict_tables hv.1.2 hevict
  obtain ⟨hentries', hframes'⟩ := load_tables h
  simp only [setPte_pte, setPte_fte, hentries, hframes, if_true, remapped_frame] at hentries' hframes'
  refine ⟨v, hv, ?_, ?_, fun q hqv hqp => ?_, fun f => ?_⟩
  · rw [hentries', if_neg (Ne.symm hpv), if_neg (Ne.symm hpv), if_pos rfl]
  · rw [hentries', if_pos rfl, if_neg hpv]
  · rw [hentries', if_neg hqp, if_neg hqp, if_neg hqv]
  · rw [hframes']
    split
    · rfl
    · rfl

/-- With every frame occupied a page that is not present is made resident by replacement or not at all. -/
theorem makeResident_of_full {s : State} {p : PageNumber} (hfull : ∀ f, (s.fte f).occupied = true)
    (hp : (s.pte p).present = false) : makeResident p s = replace p s := by
  apply makeResident_of_needsReplacement
  cases hm : (s.pte p).mapped with
  | true => exact .inl ⟨hm, hp, hfull _⟩
  | false => exact .inr ⟨hm, hfull⟩

/-- A command that answers OK from an operation that can fail: the operation completed. -/
theorem ok_of_deliver {α : Type} {value : α → State → BitVec 32} {r : Res α} {t : State}
    (h : deliver value r = .next t) (hok : t.hasStatus .ok) : ∃ a u, r = .ok a u ∧ t = deliverOk (value a u) [] u := by
  rcases deliver_next h with hu | ⟨k, u, _, rfl⟩
  · exact hu
  · exact absurd (hasStatus_deliverFailure_iff.1 hok).symm k.status_ne_ok

/-! ### PTE_PAGE -/

theorem exec_ptePage_of_run {s : State} (hrun : s.mode = .run) (p : PageNumber) :
    exec (.ptePage p.toNat) s = deliver (fun f _ => f.zeroExtend 32) (ptePage p s) := by
  show execPtePage p.toNat s = _
  rw [execPtePage, withPage_run hrun]

theorem ptePage_of_present {s : State} {p : PageNumber} (h : (s.pte p).present = true) :
    ptePage p s = .ok (s.pte p).frame s := if_pos h

theorem ptePage_of_absent {s : State} {p : PageNumber} (h : (s.pte p).present = false) :
    ptePage p s = resolve p s := if_neg (by rw [h]; decide)

end Sys2Proof.Machine

namespace Sys2Proof.Proofs

open Sys2Proof Sys2Proof.Machine

/-- Settles O29: the page that the first EVICT leaves is not present, so the second takes the branch that does nothing,
and its answer is the one already there. -/
theorem evictTwice : Obligations.EvictTwice := by
  unfold Obligations.EvictTwice
  intro s t p hrun h hok
  rw [exec_evict_of_run hrun] at h
  obtain ⟨_, u, hu, rfl⟩ := ok_of_deliver h hok
  have hmode : (deliverOk 0 [] u).mode = .run :=
    (((traces_evict p s).of_ok hu).sameOutside.mode).trans hrun
  have habsent : ((deliverOk 0 [] u).pte p).present = false := absent_of_evict_ok (u := u) hu
  rw [exec_evict_of_run hmode, evict_of_absent habsent]
  rfl

/-- Settles O30: the answer to the read selects between the transfer of R192 and nothing. -/
theorem loadEffects : Obligations.LoadEffects := by
  unfold Obligations.LoadEffects
  intro s p hrun hs hmapped hframe
  have hallowed : loadAllowed p s = true :=
    loadAllowed_iff.2 ⟨hmapped, fun hocc => hframe.resolve_left (by rw [hocc]; decide)⟩
  rw [exec_load_of_allowed hrun hallowed]
  refine ⟨fun hio => ?_, fun hio => ?_⟩
  · rw [load_of_ok (IoAnswers.next_of_take_one hio)]
    have hloaded := pageLoaded_loadedFrom hs p (s.pte p)
    rw [setPte_pte_same] at hloaded
    exact ⟨_, rfl, rfl, hrun, hloaded.deliverOk 0 [], (asked_loadedFrom hio p).deliverOk 0 []⟩
  · rw [load_of_fail (IoAnswers.next_of_take_one hio)]
    exact ⟨_, rfl, deliverFailure_backingStoreUnavailable_resp p 0 _, deliverFailure_toBlock _ _ 0 rfl,
      (asked_attempt hio .read p).deliverFailure _ 0⟩

/-- Settles O32: branch 1 loads the page through a fresh entry. -/
theorem resolveUnmappedPage : Obligations.ResolveUnmappedPage := by
  unfold Obligations.ResolveUnmappedPage
  intro s p f hrun hs hmapped hf hio
  have hentry : (Pte.fresh f).loaded.markReferenced = ⟨f, true, true, false, true, 0x80⟩ :=
    congrArg (Pte.mk f true true false true) (BitVec.zero_or (x := 0x80#8))
  have hloads := resolve_loads hrun hs (makeResident_of_lowestFree hmapped hf) hio
  rwa [hentry] at hloads

/-- Settles O33: branch 2 loads the page through the entry it has. -/
theorem resolveIdleFrame : Obligations.ResolveIdleFrame := by
  unfold Obligations.ResolveIdleFrame
  intro s p hrun hs hmapped hpresent hf hio
  have hresident : makeResident p s = load p (s.setPte p (s.pte p)) := by
    rw [setPte_pte_same, makeResident_of_idle hmapped hpresent hf]
  exact resolve_loads hrun hs hresident hio

/-- Settles O34: branch 3 is the victim's eviction followed by a load through the remapped entry. -/
theorem resolveReplacement : Obligations.ResolveReplacement := by
  unfold Obligations.ResolveReplacement
  intro s p v moved hrun hs hneeds hv hmoved hio
  rw [replacement_ops] at hmoved
  subst hmoved
  obtain ⟨u, ⟨hmode, hcanonical, hdropped, hstore, hasked⟩, hread, hresident⟩ :=
    makeResident_replacing hs hneeds hv rfl hio
  have hpv := ne_victim_of_needsReplacement hneeds hv
  have hload := hresident.trans
    (load_of_ok (s := u.setPte p ((s.pte p).remapped (s.pte v).frame)) (IoAnswers.next_of_take_one hread) p)
  have hloaded := pageLoaded_loadedFrom hcanonical p ((s.pte p).remapped (s.pte v).frame)
  have hfinal := hloaded.markReferenced.deliverOk ((s.pte v).frame.zeroExtend 32) []
  have hasked' := hasked.trans (asked_of_setPte
    (asked_loadedFrom (s := u.setPte p ((s.pte p).remapped (s.pte v).frame)) hread p))
  refine ⟨_, exec_resolve_of_loaded hrun hload hloaded rfl, deliverOk_zeroExtend_resp _ _ _, hmode.trans hrun, ?_,
    hfinal.entry, fun q hqv hqp => ?_, hfinal.frame, fun f hf => ?_, fun o => ?_, fun f o hf => ?_,
    hstore.trans hfinal.store, (hasked'.of_ports (portsKept_setPte _ _ _)).deliverOk _ _⟩
  · exact (hfinal.otherEntries v (Ne.symm hpv)).trans hdropped.entry
  · exact (hfinal.otherEntries q hqp).trans (hdropped.otherEntries q hqv)
  · exact (hfinal.otherFrames f hf).trans (hdropped.otherFrames f hf)
  · exact (hfinal.bytes o).trans (hstore.otherPages hpv o)
  · exact (hfinal.otherBytes f o hf).trans (hdropped.otherBytes f o hf)

/-- Settles O35: with no free frame the page takes the frame of the victim, the one page that leaves. -/
theorem seventeenthPage : Obligations.SeventeenthPage := by
  unfold Obligations.SeventeenthPage
  intro s t p hrun hs hfull hp h hok
  rw [exec_resolve_of_run hrun] at h
  obtain ⟨_, _, hresolve, rfl⟩ := ok_of_deliver h hok
  obtain ⟨_, u, hu, hmarked⟩ := bind_eq_ok.1 hresolve
  cases hmarked
  rw [makeResident_of_full hfull hp] at hu
  obtain ⟨v, hv, hvictim, hpage, hother, hframes⟩ := replace_tables hp hu
  have hpv : v ≠ p := by
    rintro rfl
    exact absurd (hv.1.2.symm.trans hp) (by decide)
  have hpte : ∀ q, (u.markReferenced p).pte q = if q = p then (u.pte p).markReferenced else u.pte q :=
    markReferenced_pte u p
  have hpage' : (u.markReferenced p).pte p = ((s.pte p).remapped (s.pte v).frame).loaded.markReferenced := by
    rw [hpte, if_pos rfl, hpage]
  simp only [deliverOk_pte, deliverOk_fte]
  refine ⟨⟨v, hv.1.2, ?_, ?_, fun q hqv hq => ?_⟩, ?_, fun f => ?_⟩
  · rw [hpte, if_neg hpv, hvictim, evicted_present]
  · rw [hpage', markReferenced_frame, loaded_frame, remapped_frame]
  · by_cases hqp : q = p
    · rw [hqp, hpage', markReferenced_present, loaded_present]
    · rw [hpte, if_neg hqp, hother q hqv hqp, hq]
  · rw [hpage', markReferenced_present, loaded_present]
  · show (u.fte f).occupied = true
    rw [hframes]
    split
    · rfl
    · exact hfull f

/-- Settles O36: each failed transfer ends `resolve` before any write that would follow it. -/
theorem resolveFailureStops : Obligations.ResolveFailureStops := by
  unfold Obligations.ResolveFailureStops
  intro s p hrun hs
  refine ⟨fun f hmapped hf hio => ?fresh, fun hmapped hpresent hf hio => ?idle, fun v hneeds hv hdirty hio => ?writeBack,
    fun v moved hneeds hv hmoved hio => ?reload⟩
  case fresh =>
    obtain ⟨hexec, hasked⟩ := resolve_stops hrun (makeResident_of_lowestFree hmapped hf) hio
    exact ⟨_, hexec, deliverFailure_backingStoreUnavailable_resp p 0 _, setPte_pte_self s p _,
      fun q hq => (setPte_pte s p _ q).trans (if_neg hq), hrun, fun _ => rfl, fun _ _ => rfl, fun _ _ => rfl, hasked⟩
  case idle =>
    have hresident : makeResident p s = load p (s.setPte p (s.pte p)) := by
      rw [setPte_pte_same, makeResident_of_idle hmapped hpresent hf]
    obtain ⟨hexec, hasked⟩ := resolve_stops hrun hresident hio
    refine ⟨_, hexec, deliverFailure_backingStoreUnavailable_resp p 0 _, ?_, hasked⟩
    rw [deliverFailure_toBlock _ _ _ rfl, attempt_toBlock, setPte_pte_same]
  case writeBack =>
    have hevict := evict_of_dirty_fail hv.1.2 hdirty (IoAnswers.next_of_take_one hio)
    have hraise : makeResident p s = .raise (.backingStoreUnavailable v) (s.attempt .write v) := by
      rw [makeResident_of_needsReplacement hneeds, replace_of_evict_raise hv hevict]
    exact ⟨_, exec_resolve_of_raise hrun hraise, deliverFailure_backingStoreUnavailable_resp v 0 _,
      deliverFailure_toBlock _ _ 0 rfl, (asked_attempt hio .write v).deliverFailure _ 0⟩
  case reload =>
    rw [replacement_ops] at hmoved
    subst hmoved
    obtain ⟨u, ⟨hmode, hcanonical, hdropped, hstore, hasked⟩, hread, hresident⟩ :=
      makeResident_replacing hs hneeds hv rfl hio
    have hpv := ne_victim_of_needsReplacement hneeds hv
    obtain ⟨hexec, hasked'⟩ := resolve_stops hrun hresident hread
    refine ⟨_, hexec, deliverFailure_backingStoreUnavailable_resp p 0 _, hmode.trans hrun, ?_, setPte_pte_self u p _,
      fun q hqv hqp => ?_, hdropped.frame, hdropped.otherFrames, hdropped.zeroed, hdropped.otherBytes,
      hstore.trans fun _ _ => rfl, hasked.trans hasked'⟩
    · exact ((setPte_pte u p _ v).trans (if_neg (Ne.symm hpv))).trans hdropped.entry
    · exact ((setPte_pte u p _ q).trans (if_neg hqp)).trans (hdropped.otherEntries q hqv)

/-- Settles O37: PTE_PAGE is RESOLVE behind a test of `present`, and the fault path keeps a well-formed state so. -/
theorem ptePageAnswers : Obligations.PtePageAnswers := by
  unfold Obligations.PtePageAnswers
  refine fun s p hrun => ⟨fun hp => ?_, fun hp => ?_, fun t hs h hok => ?_⟩
  · rw [exec_ptePage_of_run hrun, ptePage_of_present hp]
    exact congrArg _ (deliverOk_eq (toNat_zeroExtend (by decide) _) _ _)
  · rw [exec_ptePage_of_run hrun, ptePage_of_absent hp, exec_resolve_of_run hrun]
  · rw [exec_ptePage_of_run hrun] at h
    obtain ⟨f, u, hu, rfl⟩ := ok_of_deliver h hok
    obtain ⟨hwf, hpresent, rfl⟩ := (keptByFaults_wellFormed.ptePage hs p).of_ok hu
    exact ⟨deliverOk_zeroExtend_resp _ _ _, hpresent, fte_of_present hwf hpresent⟩

end Sys2Proof.Proofs
end

section
/-!
The byte accesses (spec/46_byte_access.md): the addresses of a multi-byte command, its loop as the loops of its parts, one
access to a present page and to a page that RESOLVE made present, and a loop over present pages.
-/

namespace Sys2Proof.Machine

/-! ### The addresses -/

theorem byteAddress_eq (a : AField) (k : Nat) : byteAddress a k = virtualAddress a + BitVec.ofNat 20 k := by
  apply BitVec.eq_of_toNat_eq
  simp [byteAddress, virtualAddress, Nat.add_mod]

theorem virtualAddress_byteField (a : AField) (k : Nat) : virtualAddress (byteField a k) = byteAddress a k := by
  apply BitVec.eq_of_toNat_eq
  simp [byteField, virtualAddress]
  omega

theorem nextAddress_add (va : VirtualAddress) (k : Nat) :
    nextAddress va + BitVec.ofNat 20 k = va + BitVec.ofNat 20 (k + 1) := by
  rw [nextAddress, Nat.add_comm k 1, BitVec.ofNat_add, BitVec.add_assoc]
  rfl

/-! ### A loop in two parts -/

/-- Go on after the first part of a loop; a failure is the answer of the whole loop (R203). -/
def LoopRes.andThen : LoopRes → (List Byte → State → LoopRes) → LoopRes
  | .done data s, rest => rest data s
  | .stopped m k s, _ => .stopped m k s

theorem readLoop_succ_of_ok {va : VirtualAddress} {b : Byte} {s t : State} (h : readByte va s = .ok b t)
    (n m : Nat) (acc : List Byte) : readLoop (n + 1) va m acc s = readLoop n (nextAddress va) (m + 1) (b :: acc) t := by
  rw [readLoop, h]

theorem readLoop_succ_of_raise {va : VirtualAddress} {k : Failure} {s t : State} (h : readByte va s = .raise k t)
    (n m : Nat) (acc : List Byte) : readLoop (n + 1) va m acc s = .stopped m k t := by
  rw [readLoop, h]

theorem writeLoop_cons_of_ok {va : VirtualAddress} {v : Byte} {s t : State} (h : writeByte va v s = .ok () t)
    (vs : List Byte) (m : Nat) : writeLoop (v :: vs) va m s = writeLoop vs (nextAddress va) (m + 1) t := by
  rw [writeLoop, h]

theorem writeLoop_cons_of_raise {va : VirtualAddress} {v : Byte} {k : Failure} {s t : State}
    (h : writeByte va v s = .raise k t) (vs : List Byte) (m : Nat) : writeLoop (v :: vs) va m s = .stopped m k t := by
  rw [writeLoop, h]

/-- Reading `n + j` bytes is reading `n` and then, from the next address on, `j` more (R202, R203). -/
theorem readLoop_add (n j : Nat) (va : VirtualAddress) (m : Nat) (acc : List Byte) (s : State) :
    readLoop (n + j) va m acc s = (readLoop n va m acc s).andThen fun data u =>
      readLoop j (va + BitVec.ofNat 20 n) (m + n) data.reverse u := by
  induction n generalizing va m acc s with
  | zero => simp [readLoop, LoopRes.andThen]
  | succ n ih =>
    rw [Nat.succ_add]
    cases h : readByte va s with
    | ok b t =>
      rw [readLoop_succ_of_ok h, readLoop_succ_of_ok h, ih, nextAddress_add, Nat.add_right_comm, Nat.add_assoc m n]
    | raise k t => rw [readLoop_succ_of_raise h, readLoop_succ_of_raise h, LoopRes.andThen]

/-- Writing two lists of bytes is writing the first and then, from the next address on, the second (R202, R203). -/
theorem writeLoop_append (vs ws : List Byte) (va : VirtualAddress) (m : Nat) (s : State) :
    writeLoop (vs ++ ws) va m s = (writeLoop vs va m s).andThen fun _ u =>
      writeLoop ws (va + BitVec.ofNat 20 vs.length) (m + vs.length) u := by
  induction vs generalizing va m s with
  | nil => simp [writeLoop, LoopRes.andThen]
  | cons v vs ih =>
    rw [List.cons_append, List.length_cons]
    cases h : writeByte va v s with
    | ok _ t =>
      rw [writeLoop_cons_of_ok h, writeLoop_cons_of_ok h, ih, nextAddress_add, Nat.add_right_comm, Nat.add_assoc m]
    | raise k t => rw [writeLoop_cons_of_raise h, writeLoop_cons_of_raise h, LoopRes.andThen]

/-! ### The commands in RUN -/

section
variable {s : State} (hrun : s.mode = .run)
include hrun

theorem exec_read_of_run (a : AField) :
    exec (.read a) s = deliver (fun b _ => b.zeroExtend 32) (readByte (virtualAddress a) s) := by
  show execRead a s = _
  rw [execRead, whenRunning_run hrun]

theorem exec_write_of_run (a : AField) (v : Byte) :
    exec (.write a v) s = deliver (fun _ _ => 0) (writeByte (virtualAddress a) v s) := by
  show execWrite a v s = _
  rw [execWrite, whenRunning_run hrun]

theorem exec_readn_of_run (a : AField) (n : Nat) :
    exec (.readn a n) s = deliverLoop (BitVec.ofNat 32 n) (readLoop n (virtualAddress a) 0 [] s) := by
  show execReadn a n s = _
  rw [execReadn, whenRunning_run hrun]

theorem exec_writew_of_run (a : AField) (v1 v2 : Byte) :
    exec (.writew a v1 v2) s = deliverLoop 0 (writeLoop [v1, v2] (virtualAddress a) 0 s) := by
  show execWritew a v1 v2 s = _
  rw [execWritew, whenRunning_run hrun]

theorem exec_writedw_of_run (a : AField) (v1 v2 v3 v4 : Byte) :
    exec (.writedw a v1 v2 v3 v4) s = deliverLoop 0 (writeLoop [v1, v2, v3, v4] (virtualAddress a) 0 s) := by
  show execWritedw a v1 v2 v3 v4 s = _
  rw [execWritedw, whenRunning_run hrun]

theorem exec_writez_of_run (a : AField) (n : Nat) :
    exec (.writez a n) s = deliverLoop 0 (writeLoop (List.replicate n 0) (virtualAddress a) 0 s) := by
  show execWritez a n s = _
  rw [execWritez, whenRunning_run hrun]

end

/-! ### One access -/

/-- The state after a byte is stored in the frame of the page at the address, the page marked written (R201). -/
def State.stored (s : State) (va : VirtualAddress) (v : Byte) : State :=
  (memWrite (encodePhysical (s.pte (pageOf va)).frame (offsetOf va)) v s).markWritten (pageOf va)

theorem stored_pte (s : State) (va : VirtualAddress) (v : Byte) (q : PageNumber) : (s.stored va v).pte q =
    if q = pageOf va then (s.pte (pageOf va)).markDirty.markReferenced else s.pte q :=
  markWritten_pte _ _ _

theorem frameByte_stored {s : State} (hs : s.MemoriesCanonical) (va : VirtualAddress) (v : Byte) (f : FrameNumber)
    (o : Offset) : (s.stored va v).frameByte f o =
    if f = (s.pte (pageOf va)).frame ∧ o = offsetOf va then v else s.frameByte f o :=
  frameByte_memWrite hs.pm_wf _ _ _ _ _

theorem canonical_stored {s : State} (hs : s.MemoriesCanonical) (va : VirtualAddress) (v : Byte) :
    (s.stored va v).MemoriesCanonical := MemoriesCanonical_of_eq (canonical_memWrite hs _ _) rfl rfl

section
variable {s u : State} {va : VirtualAddress}

theorem readByte_of_present (h : (s.pte (pageOf va)).present = true) :
    readByte va s = .ok (s.frameByte (s.pte (pageOf va)).frame (offsetOf va)) (s.markReferenced (pageOf va)) := by
  rw [readByte, ptePage_of_present h, bind_ok]
  rfl

theorem writeByte_of_present (h : (s.pte (pageOf va)).present = true) (v : Byte) :
    writeByte va v s = .ok () (s.stored va v) := by
  rw [writeByte, ptePage_of_present h, bind_ok]
  rfl

theorem readByte_of_resolve_ok {f : FrameNumber} (h : (s.pte (pageOf va)).present = false)
    (hr : resolve (pageOf va) s = .ok f u) :
    readByte va s = .ok (u.frameByte f (offsetOf va)) (u.markReferenced (pageOf va)) := by
  rw [readByte, ptePage_of_absent h, hr, bind_ok]
  rfl

theorem writeByte_of_resolve_ok (h : (s.pte (pageOf va)).present = false)
    (hr : resolve (pageOf va) s = .ok (u.pte (pageOf va)).frame u) (v : Byte) :
    writeByte va v s = .ok () (u.stored va v) := by
  rw [writeByte, ptePage_of_absent h, hr, bind_ok]
  rfl

theorem readByte_of_resolve_raise {k : Failure} (h : (s.pte (pageOf va)).present = false)
    (hr : resolve (pageOf va) s = .raise k u) : readByte va s = .raise k u := by
  rw [readByte, ptePage_of_absent h, hr, bind_raise]

theorem writeByte_of_resolve_raise {k : Failure} (h : (s.pte (pageOf va)).present = false)
    (hr : resolve (pageOf va) s = .raise k u) (v : Byte) : writeByte va v s = .raise k u := by
  rw [writeByte, ptePage_of_absent h, hr, bind_raise]

end

/-- A completed `resolve` answers the page's frame and leaves the page marked (R176). -/
theorem resolve_ok {s u : State} {p : PageNumber} {f : FrameNumber} (h : resolve p s = .ok f u) :
    f = (u.pte p).frame ∧ ∃ e : Pte, u.pte p = e.markReferenced := by
  obtain ⟨_, s1, _, hmarked⟩ := bind_eq_ok.1 h
  cases hmarked
  exact ⟨rfl, _, markReferenced_pte_self s1 p⟩

/-- Marking a page referenced that has just been marked changes nothing: the age bit is ORed in (R141). -/
theorem markReferenced_of_marked {s : State} {p : PageNumber} {e : Pte} (h : s.pte p = e.markReferenced) :
    s.markReferenced p = s := by
  rw [State.markReferenced, h, markReferenced_markReferenced, ← h, setPte_pte_same]

/-! ### A loop over present pages -/

/-- The entries of the pages of the first `n` bytes have `g` applied, once however often a page is touched; every other
entry is as before (R202). -/
structure Touched (g : Pte → Pte) (s t : State) (a : AField) (n : Nat) : Prop where
  touched : ∀ k, k < n → t.pte (pageOf (byteAddress a k)) = g (s.pte (pageOf (byteAddress a k)))
  others : ∀ q, (∀ k, k < n → pageOf (byteAddress a k) ≠ q) → t.pte q = s.pte q

section
variable {g : Pte → Pte} {s t u : State} {a : AField} {n : Nat}

theorem Touched.zero (g : Pte → Pte) (s : State) (a : AField) : Touched g s s a 0 :=
  ⟨fun _ h => absurd h (Nat.not_lt_zero _), fun _ _ => rfl⟩

theorem Touched.touched_or (h : Touched g s t a n) (q : PageNumber) : t.pte q = g (s.pte q) ∨ t.pte q = s.pte q := by
  by_cases hq : ∃ k, k < n ∧ pageOf (byteAddress a k) = q
  · obtain ⟨k, hk, rfl⟩ := hq
    exact .inl (h.touched k hk)
  · exact .inr (h.others q fun k hk hkq => hq ⟨k, hk, hkq⟩)

/-- The next byte's page is touched; if it was before, the marks are already there. -/
theorem Touched.succ (h : Touched g s t a n) (hg : ∀ e, g (g e) = g e)
    (hu : ∀ q, u.pte q =
      if q = pageOf (byteAddress a n) then g (t.pte (pageOf (byteAddress a n))) else t.pte q) :
    Touched g s u a (n + 1) where
  touched k hk := by
    rw [hu]
    split
    · rename_i hkn
      rw [hkn]
      rcases h.touched_or (pageOf (byteAddress a n)) with ht | ht <;> rw [ht]
      exact hg _
    · rename_i hkn
      have hne : k ≠ n := fun hc => hkn (by rw [hc])
      exact h.touched k (by omega)
  others q hq := by
    rw [hu, if_neg (hq n (Nat.lt_succ_self n)).symm]
    exact h.others q fun k hk => hq k (Nat.lt_succ_of_lt hk)

end

theorem RestKept.trans {s t u : State} (h : RestKept s t) (h' : RestKept t u) : RestKept s u where
  mode := h'.mode.trans h.mode
  frameTable f := (h'.frameTable f).trans (h.frameTable f)
  frames f o := (h'.frames f o).trans (h.frames f o)
  store p o := (h'.store p o).trans (h.store p o)
  ports := ⟨h'.ports.input.trans h.ports.input, h'.ports.io.trans h.ports.io, h'.ports.ops.trans h.ports.ops,
    h'.ports.freeCount.trans h.ports.freeCount⟩

theorem restKept_setPte (s : State) (p : PageNumber) (e : Pte) : RestKept s (s.setPte p e) :=
  ⟨rfl, fun _ => rfl, fun _ _ => rfl, fun _ _ => rfl, portsKept_setPte s p e⟩

/-- A loop over present pages reads every byte from the frames as they are: marking changes no frame number. -/
theorem readLoop_of_resident {s : State} {a : AField} {n : Nat} (h : touchesResident s a n) :
    ∃ t, readLoop n (virtualAddress a) 0 [] s = .done ((List.range n).map fun k =>
        s.frameByte (s.pte (pageOf (byteAddress a k))).frame (offsetOf (byteAddress a k))) t ∧
      Touched Pte.markReferenced s t a n ∧ RestKept s t := by
  induction n with
  | zero => exact ⟨s, rfl, .zero _ s a, ⟨rfl, fun _ => rfl, fun _ _ => rfl, fun _ _ => rfl, rfl, rfl, rfl, rfl⟩⟩
  | succ n ih =>
    obtain ⟨t, hloop, htouched, hrest⟩ := ih fun k hk => h k (Nat.lt_succ_of_lt hk)
    have hkept : (t.pte (pageOf (byteAddress a n))).present = (s.pte (pageOf (byteAddress a n))).present ∧
        (t.pte (pageOf (byteAddress a n))).frame = (s.pte (pageOf (byteAddress a n))).frame := by
      rcases htouched.touched_or (pageOf (byteAddress a n)) with ht | ht <;> rw [ht] <;> exact ⟨rfl, rfl⟩
    have hbyte := readByte_of_present (hkept.1.trans (h n (Nat.lt_succ_self n)))
    rw [hkept.2, hrest.frames] at hbyte
    refine ⟨_, ?_, htouched.succ markReferenced_markReferenced (markReferenced_pte t _),
      hrest.trans (restKept_setPte t _ _)⟩
    rw [readLoop_add, hloop, LoopRes.andThen, ← byteAddress_eq, readLoop_succ_of_ok hbyte, readLoop,
      List.reverse_cons, List.reverse_reverse, List.range_succ, List.map_append]
    rfl

/-- The bytes of a list, stored in the frames of the pages that `s` has present: each address holds the last byte written
to it, every other byte is as before (R202, R203). -/
structure BytesStored (s t : State) (a : AField) (vs : List Byte) : Prop where
  last : ∀ k v, vs[k]? = some v → (∀ j, k < j → j < vs.length → byteAddress a j ≠ byteAddress a k) →
    t.frameByte (s.pte (pageOf (byteAddress a k))).frame (offsetOf (byteAddress a k)) = v
  others : ∀ f o, (∀ k, k < vs.length →
    ¬ (f = (s.pte (pageOf (byteAddress a k))).frame ∧ o = offsetOf (byteAddress a k))) → t.frameByte f o = s.frameByte f o

/-- One byte more: two addresses of present pages with one place in one frame are the same address, for no two present
pages of a well-formed state share a frame. -/
theorem BytesStored.snoc {s t u : State} {a : AField} {vs : List Byte} (h : BytesStored s t a vs) (hwf : s.WellFormed)
    (v : Byte) (hres : touchesResident s a (vs ++ [v]).length)
    (hu : ∀ f o, u.frameByte f o =
      if f = (s.pte (pageOf (byteAddress a vs.length))).frame ∧ o = offsetOf (byteAddress a vs.length) then v
      else t.frameByte f o) : BytesStored s u a (vs ++ [v]) where
  last k w hk hlast := by
    have hlen : (vs ++ [v]).length = vs.length + 1 := by simp
    have hkn : k < vs.length + 1 := by
      rw [← hlen]
      exact (List.getElem?_eq_some_iff.1 hk).1
    rw [hu]
    rcases Nat.lt_succ_iff_lt_or_eq.1 hkn with hlt | rfl
    · rw [if_neg]
      · rw [List.getElem?_append_left hlt] at hk
        exact h.last k w hk fun j hkj hj => hlast j hkj (by omega)
      · rintro ⟨hframe, hoffset⟩
        have hpage := frame_injective hwf (hres k (by omega)) (hres vs.length (by omega)) hframe
        exact hlast vs.length hlt (by omega) (virtualAddress_ext hpage hoffset).symm
    · rw [if_pos ⟨rfl, rfl⟩]
      simpa using hk
  others f o hfo := by
    have hlen : (vs ++ [v]).length = vs.length + 1 := by simp
    rw [hu, if_neg (hfo vs.length (by omega))]
    exact h.others f o fun k hk => hfo k (by omega)

/-- Everything but the page table, the frames and the response is as before. -/
structure TablesAndStoreKept (s t : State) : Prop where
  mode : t.mode = s.mode
  frameTable : FrameTableKept s t
  store : StoreKept s t
  ports : PortsKept s t

theorem TablesAndStoreKept.stored {s t : State} (h : TablesAndStoreKept s t) (va : VirtualAddress) (v : Byte) :
    TablesAndStoreKept s (t.stored va v) :=
  ⟨h.mode, h.frameTable, h.store, h.ports.input, h.ports.io, h.ports.ops, h.ports.freeCount⟩

/-- A loop of writes over present pages (R201 to R203). -/
theorem writeLoop_of_resident {s : State} {a : AField} (hs : s.MemoriesCanonical) (hwf : s.WellFormed) (vs : List Byte)
    (h : touchesResident s a vs.length) :
    ∃ t, writeLoop vs (virtualAddress a) 0 s = .done [] t ∧ t.MemoriesCanonical ∧ BytesStored s t a vs ∧
      Touched (fun e => e.markDirty.markReferenced) s t a vs.length ∧ TablesAndStoreKept s t := by
  induction vs using List.reverseRecOn with
  | nil =>
    exact ⟨s, rfl, hs, ⟨fun _ _ hk => absurd hk (by simp), fun _ _ _ => rfl⟩, .zero _ s a,
      ⟨rfl, fun _ => rfl, fun _ _ => rfl, rfl, rfl, rfl, rfl⟩⟩
  | append_singleton vs v ih =>
    have hlen : (vs ++ [v]).length = vs.length + 1 := by simp
    obtain ⟨t, hloop, ht, hbytes, htouched, hrest⟩ := ih fun k hk => h k (by omega)
    have hkept : (t.pte (pageOf (byteAddress a vs.length))).present = (s.pte (pageOf (byteAddress a vs.length))).present ∧
        (t.pte (pageOf (byteAddress a vs.length))).frame = (s.pte (pageOf (byteAddress a vs.length))).frame := by
      rcases htouched.touched_or (pageOf (byteAddress a vs.length)) with he | he <;> rw [he] <;> exact ⟨rfl, rfl⟩
    have hbyte := writeByte_of_present (hkept.1.trans (h vs.length (by omega))) v
    refine ⟨t.stored (byteAddress a vs.length) v, ?_, canonical_stored ht _ v, hbytes.snoc hwf v h fun f o => ?_, ?_,
      hrest.stored _ v⟩
    · rw [writeLoop_append, hloop, LoopRes.andThen, ← byteAddress_eq, writeLoop_cons_of_ok hbyte, writeLoop]
    · rw [frameByte_stored ht, hkept.2]
    · rw [hlen]
      exact htouched.succ (fun e => markReferenced_markReferenced e.markDirty) (stored_pte t _ v)

/-- The bytes of each of the three multi-byte writes are those of the loop it runs (R207 to R209). -/
theorem exec_writeSequence {s : State} (hrun : s.mode = .run) {a : AField} {i : Instr} {vs : List Byte}
    (h : (∃ v1 v2, i = .writew a v1 v2 ∧ vs = [v1, v2]) ∨
      (∃ v1 v2 v3 v4, i = .writedw a v1 v2 v3 v4 ∧ vs = [v1, v2, v3, v4]) ∨
      ∃ n, i = .writez a n ∧ vs = List.replicate n 0) :
    exec i s = deliverLoop 0 (writeLoop vs (virtualAddress a) 0 s) := by
  rcases h with ⟨v1, v2, rfl, rfl⟩ | ⟨v1, v2, v3, v4, rfl, rfl⟩ | ⟨n, rfl, rfl⟩
  · exact exec_writew_of_run hrun a v1 v2
  · exact exec_writedw_of_run hrun a v1 v2 v3 v4
  · exact exec_writez_of_run hrun a n

end Sys2Proof.Machine

namespace Sys2Proof.Proofs

open Sys2Proof Sys2Proof.Machine

/-- Settles O38: the handler has nothing to do for a present page; what is left of READ is a write to its entry. -/
theorem readResidentByte : Obligations.ReadResidentByte := by
  unfold Obligations.ReadResidentByte
  simp only [← pageOf_virtualAddress, ← offsetOf_virtualAddress]
  intro s a hrun hp
  rw [exec_read_of_run hrun, readByte_of_present hp]
  exact ⟨_, rfl, deliverOk_zeroExtend_resp _ _ _, entryWritten s _ (s.pte _).markReferenced _⟩

/-- Settles O39: the byte goes to the frame the entry names, and the entry gets the marks of a write. -/
theorem writeResidentByte : Obligations.WriteResidentByte := by
  unfold Obligations.WriteResidentByte
  simp only [← pageOf_virtualAddress, ← offsetOf_virtualAddress]
  intro s a v hrun hs hp
  rw [exec_write_of_run hrun, writeByte_of_present hp]
  refine ⟨_, rfl, rfl, hrun, frameByte_stored hs (virtualAddress a) v, ?_, fun q hq => ?_, fun _ => rfl,
    fun _ _ => rfl, rfl, rfl, rfl, rfl⟩
  · exact (stored_pte s (virtualAddress a) v _).trans (if_pos rfl)
  · exact (stored_pte s (virtualAddress a) v q).trans (if_neg hq)

/-- Settles O40: the handler's call of `resolve` is the one RESOLVE makes, and marking the page again that `resolve` has
marked changes nothing. -/
theorem byteAccessFaultsIn : Obligations.ByteAccessFaultsIn := by
  unfold Obligations.ByteAccessFaultsIn
  simp only [← pageOf_virtualAddress, ← offsetOf_virtualAddress]
  intro s t a v hrun hs hp h
  rw [exec_resolve_of_run hrun] at h
  rw [exec_read_of_run hrun, exec_write_of_run hrun]
  refine ⟨fun hok => ?resolved, fun hfail => ?failed⟩
  case resolved =>
    obtain ⟨f, u, hu, rfl⟩ := ok_of_deliver h hok
    obtain ⟨rfl, e, he⟩ := resolve_ok hu
    have hmode : u.mode = .run := (((traces_resolve _ s).of_ok hu).sameOutside.mode).trans hrun
    have hcanonical : u.MemoriesCanonical := (keptByUpdates_memoriesCanonical.resolve hs _).of_ok hu
    have hmarked : (u.pte (pageOf (virtualAddress a))).markDirty.markReferenced =
        { u.pte (pageOf (virtualAddress a)) with dirty := true } := by
      rw [he]
      simp [Pte.markReferenced, Pte.markDirty, BitVec.or_assoc]
    rw [readByte_of_resolve_ok hp hu, writeByte_of_resolve_ok hp hu, markReferenced_of_marked he]
    refine ⟨congrArg _ (deliverOk_eq (toNat_zeroExtend (by decide) _) _ u), _, rfl, rfl, hmode, ?_, fun q hq => ?_,
      frameByte_stored hcanonical (virtualAddress a) v, fun _ => rfl, fun _ _ => rfl, rfl, rfl, rfl, rfl⟩
    · exact ((stored_pte u (virtualAddress a) v _).trans (if_pos rfl)).trans hmarked
    · exact (stored_pte u (virtualAddress a) v q).trans (if_neg hq)
  case failed =>
    rcases deliver_next h with ⟨f, u, _, rfl⟩ | ⟨k, u, hu, rfl⟩
    · exact absurd (hasStatus_deliverOk_iff.2 rfl) hfail
    · rw [readByte_of_resolve_raise hp hu, writeByte_of_resolve_raise hp hu]
      exact ⟨rfl, rfl⟩

/-- Settles O41: the loop over present pages reads the frames' bytes and marks the pages. -/
theorem readnResidentBytes : Obligations.ReadnResidentBytes := by
  unfold Obligations.ReadnResidentBytes
  intro s a n hrun h
  obtain ⟨t, hloop, ⟨htouched, hothers⟩, hrest⟩ := readLoop_of_resident h
  rw [exec_readn_of_run hrun, hloop]
  exact ⟨_, rfl, rfl, htouched, hothers,
    ⟨hrest.mode, hrest.frameTable, hrest.frames, hrest.store, ⟨hrest.ports.input, hrest.ports.io, hrest.ports.ops,
      hrest.ports.freeCount⟩⟩⟩

/-- Settles O42: the three commands run one loop, whose bytes go to the frames of the pages present at its start. -/
theorem writeSequenceResident : Obligations.WriteSequenceResident := by
  unfold Obligations.WriteSequenceResident
  intro s a i vs hrun hs hwf h hi
  obtain ⟨t, hloop, _, ⟨hlast, hkept⟩, ⟨htouched, hothers⟩, hmode, hframes, hstore, hports⟩ :=
    writeLoop_of_resident hs hwf vs h
  rw [exec_writeSequence hrun hi, hloop]
  exact ⟨_, rfl, rfl, hmode.trans hrun, hlast, hkept, htouched, hothers, hframes, hstore,
    ⟨hports.input, hports.io, hports.ops, hports.freeCount⟩⟩

end Sys2Proof.Proofs
end

section
/-!
The multi-byte commands as their byte commands one after another (spec/46_byte_access.md R203, R205, R207 to R209). The
state between two commands holds the response of the first, the state between two accesses of one command does not; so
the operations of the fault path are first shown not to look at the response.
-/

namespace Sys2Proof.Machine

/-! ### The operations do not read the response -/

/-- The same state with another response. -/
def State.withResp (s : State) (r : Option Response) : State := { s with resp := r }

/-- The same outcome, its state holding another response. -/
def Res.withResp {α : Type} : Res α → Option Response → Res α
  | .ok a s, r => .ok a (s.withResp r)
  | .raise k s, r => .raise k (s.withResp r)

/-- The same outcome of a loop, its state holding another response. -/
def LoopRes.withResp : LoopRes → Option Response → LoopRes
  | .done data s, r => .done data (s.withResp r)
  | .stopped m k s, r => .stopped m k (s.withResp r)

/-- A response in the state before an operation is in the state after it and has no other effect. -/
def IgnoresResp {α : Type} (op : State → Res α) : Prop := ∀ s r, op (s.withResp r) = (op s).withResp r

theorem IgnoresResp.bind {α β : Type} {op : State → Res α} {next : α → State → Res β} (h : IgnoresResp op)
    (hnext : ∀ a, IgnoresResp (next a)) : IgnoresResp fun s => (op s).bind next := by
  intro s r
  show (op (s.withResp r)).bind next = ((op s).bind next).withResp r
  rw [h]
  cases op s with
  | ok a t => exact hnext a t r
  | raise k t => rfl

theorem ignoresResp_ite {α : Type} {c : State → Bool} {op op' : State → Res α} (hc : ∀ s r, c (s.withResp r) = c s)
    (h : IgnoresResp op) (h' : IgnoresResp op') : IgnoresResp fun s => if c s = true then op s else op' s := by
  intro s r
  show (if c (s.withResp r) = true then op (s.withResp r) else op' (s.withResp r)) =
    (if c s = true then op s else op' s).withResp r
  rw [hc]
  by_cases hs : c s = true
  · rw [if_pos hs, if_pos hs, h]
  · rw [if_neg hs, if_neg hs, h']

/-- An operation that answers by a function of the state and an update, neither of which reads the response. -/
theorem ignoresResp_ok {α : Type} {value : State → α} {update : State → State}
    (hvalue : ∀ s r, value (s.withResp r) = value s)
    (hupdate : ∀ s r, update (s.withResp r) = (update s).withResp r) :
    IgnoresResp fun s => .ok (value s) (update s) := by
  intro s r
  show Res.ok _ _ = Res.ok _ _
  rw [hvalue, hupdate]

theorem ignoresResp_bsRead (p : PageNumber) : IgnoresResp (bsRead p) := by
  intro s r
  cases h : s.io.next.1 with
  | ok => rw [bsRead_of_ok h, bsRead_of_ok (s := s.withResp r) h]; rfl
  | fail => rw [bsRead_of_fail h, bsRead_of_fail (s := s.withResp r) h]; rfl

theorem ignoresResp_bsWrite (p : PageNumber) (data : Memory) : IgnoresResp (bsWrite p data) := by
  intro s r
  cases h : s.io.next.1 with
  | ok => rw [bsWrite_of_ok h, bsWrite_of_ok (s := s.withResp r) h]; rfl
  | fail => rw [bsWrite_of_fail h, bsWrite_of_fail (s := s.withResp r) h]; rfl

theorem ignoresResp_load (p : PageNumber) : IgnoresResp (load p) :=
  (ignoresResp_bsRead p).bind fun _ => ignoresResp_ok (fun _ _ => rfl) fun _ _ => rfl

theorem ignoresResp_evict (p : PageNumber) : IgnoresResp (evict p) := by
  have hdrop : IgnoresResp fun s => .ok () (dropPage p s) := ignoresResp_ok (fun _ _ => rfl) fun _ _ => rfl
  refine ignoresResp_ite (c := fun s => (s.pte p).present) (fun _ _ => rfl)
    (ignoresResp_ite (c := fun s => (s.pte p).dirty) (fun _ _ => rfl) (fun s r => ?_) hdrop)
    (ignoresResp_ok (fun _ _ => rfl) fun _ _ => rfl)
  exact ((ignoresResp_bsWrite p (pmReadPage (s.pte p).frame s)).bind fun _ => hdrop) s r

theorem chooseVictim_withResp (s : State) (r : Option Response) : chooseVictim (s.withResp r) = chooseVictim s := by
  have hbetter : betterVictim (s.withResp r) = betterVictim s := rfl
  rw [chooseVictim, hbetter, chooseVictim]

theorem findFreeFrame_withResp (s : State) (r : Option Response) : findFreeFrame (s.withResp r) = findFreeFrame s := rfl

theorem ignoresResp_replace (p : PageNumber) : IgnoresResp (replace p) := by
  intro s r
  have hremap (f : FrameNumber) : IgnoresResp fun t => load p (t.setPte p ((t.pte p).remapped f)) :=
    fun t r => ignoresResp_load p (t.setPte p ((t.pte p).remapped f)) r
  rw [replace, replace, chooseVictim_withResp]
  cases chooseVictim s with
  | none => rfl
  | some v => exact (ignoresResp_evict v).bind (fun _ => hremap (s.pte v).frame) s r

theorem ignoresResp_makeResident (p : PageNumber) : IgnoresResp (makeResident p) := by
  intro s r
  have hpte : (s.withResp r).pte p = s.pte p := rfl
  have hfte : (s.withResp r).fte (s.pte p).frame = s.fte (s.pte p).frame := rfl
  unfold makeResident
  rw [hpte, hfte, findFreeFrame_withResp]
  cases (s.pte p).mapped with
  | true =>
    cases (s.pte p).present with
    | true => rfl
    | false =>
      cases (s.fte (s.pte p).frame).occupied with
      | true => exact ignoresResp_replace p s r
      | false => exact ignoresResp_load p s r
  | false =>
    cases findFreeFrame s with
    | some f => exact ignoresResp_load p (s.setPte p (Pte.fresh f)) r
    | none => exact ignoresResp_replace p s r

theorem ignoresResp_resolve (p : PageNumber) : IgnoresResp (resolve p) :=
  (ignoresResp_makeResident p).bind fun _ => ignoresResp_ok (fun _ _ => rfl) fun _ _ => rfl

theorem ignoresResp_ptePage (p : PageNumber) : IgnoresResp (ptePage p) :=
  ignoresResp_ite (c := fun s => (s.pte p).present) (fun _ _ => rfl) (ignoresResp_ok (fun _ _ => rfl) fun _ _ => rfl)
    (ignoresResp_resolve p)

theorem ignoresResp_readByte (va : VirtualAddress) : IgnoresResp (readByte va) :=
  (ignoresResp_ptePage _).bind fun _ => ignoresResp_ok (fun _ _ => rfl) fun _ _ => rfl

theorem ignoresResp_writeByte (va : VirtualAddress) (v : Byte) : IgnoresResp (writeByte va v) :=
  (ignoresResp_ptePage _).bind fun _ => ignoresResp_ok (fun _ _ => rfl) fun _ _ => rfl

theorem writeLoop_withResp (vs : List Byte) (va : VirtualAddress) (m : Nat) (s : State) (r : Option Response) :
    writeLoop vs va m (s.withResp r) = (writeLoop vs va m s).withResp r := by
  induction vs generalizing va m s with
  | nil => rfl
  | cons v vs ih =>
    have hbyte := ignoresResp_writeByte va v s r
    cases h : writeByte va v s with
    | ok _ t =>
      rw [h] at hbyte
      rw [writeLoop_cons_of_ok h, writeLoop_cons_of_ok hbyte, ih]
    | raise k t =>
      rw [h] at hbyte
      rw [writeLoop_cons_of_raise h, writeLoop_cons_of_raise hbyte]
      rfl

/-! ### A loop counts from where it starts -/

/-- The same outcome of a loop before which `j` accesses were completed. -/
def LoopRes.after (j : Nat) : LoopRes → LoopRes
  | .done data s => .done data s
  | .stopped m k s => .stopped (j + m) k s

theorem writeLoop_after (j : Nat) (vs : List Byte) (va : VirtualAddress) (m : Nat) (s : State) :
    writeLoop vs va (j + m) s = (writeLoop vs va m s).after j := by
  induction vs generalizing va m s with
  | nil => rfl
  | cons v vs ih =>
    cases h : writeByte va v s with
    | ok _ t => rw [writeLoop_cons_of_ok h, writeLoop_cons_of_ok h, Nat.add_assoc, ih]
    | raise k t => rw [writeLoop_cons_of_raise h, writeLoop_cons_of_raise h, LoopRes.after]

/-- What a write command answers has no data: the loop returns none. -/
theorem writeLoop_data {vs data : List Byte} {va : VirtualAddress} {m : Nat} {s u : State}
    (h : writeLoop vs va m s = .done data u) : data = [] :=
  ((traces_writeLoop vs va m s).of_done h).2

/-! ### The answers of two loops in sequence -/

theorem failureResponse_eq_iff {k : Failure} {n m : Nat} {s : State} {st : Status} {info : Nat} :
    (deliverFailure k n s).resp = failureResponse st info m ↔
      k.status = st ∧ k.info = BitVec.ofNat 24 info ∧ BitVec.ofNat 32 n = BitVec.ofNat 32 m := by
  simp [failureResponse]

/-- The state a failure leaves, with the response of the same failure counted differently. -/
theorem deliverFailure_recount {k : Failure} {n m j : Nat} {s : State} {st : Status} {info : Nat}
    (h : (deliverFailure k n s).resp = failureResponse st info m) :
    deliverFailure k (n + j) s = { deliverFailure k n s with resp := failureResponse st info (m + j) } := by
  obtain ⟨hst, hinfo, hn⟩ := failureResponse_eq_iff.1 h
  have hcount : BitVec.ofNat 32 (n + j) = BitVec.ofNat 32 (m + j) := by rw [BitVec.ofNat_add, hn, ← BitVec.ofNat_add]
  simp only [deliverFailure, failureResponse, hst, hinfo, hcount]

/-- What a multi-byte write command does in RUN. -/
def writes (a : AField) (vs : List Byte) (s : State) : Host.Outcome State Fault Refusal :=
  deliverLoop 0 (writeLoop vs (virtualAddress a) 0 s)

section
variable {s u t : State} {a : AField} {vs : List Byte}

theorem exec_write_eq_writes (hrun : s.mode = .run) (a : AField) (v : Byte) : exec (.write a v) s = writes a [v] s := by
  rw [exec_write_of_run hrun, writes]
  cases h : writeByte (virtualAddress a) v s with
  | ok _ t => rw [writeLoop_cons_of_ok h]; rfl
  | raise k t => rw [writeLoop_cons_of_raise h]; rfl

/-- A write command that answers OK has run its loop to the end. -/
theorem writes_ok (h : writes a vs s = .next u) (hok : u.hasStatus .ok) :
    ∃ w, writeLoop vs (virtualAddress a) 0 s = .done [] w ∧ u = deliverOk 0 [] w := by
  rcases deliverLoop_next h with ⟨data, w, hw, rfl⟩ | ⟨_, k, w, _, rfl⟩
  · obtain rfl := writeLoop_data hw
    exact ⟨w, hw, rfl⟩
  · exact absurd (hasStatus_deliverFailure_iff.1 hok).symm k.status_ne_ok

/-- A failure of the first part is the answer of the whole (R203). -/
theorem writes_append_of_failure (h : writes a vs s = .next t) (hfail : ¬ t.hasStatus .ok) (ws : List Byte) :
    writes a (vs ++ ws) s = .next t := by
  rcases deliverLoop_next h with ⟨_, _, _, rfl⟩ | ⟨n, k, w, hw, rfl⟩
  · exact absurd (hasStatus_deliverOk_iff.2 rfl) hfail
  · rw [writes, writeLoop_append, hw]
    rfl

/-- After a first part that answers OK the whole answers what the second part answers at the next address, a failure
counting the bytes of the first part too (R203, R241). -/
theorem writes_append (h : writes a vs s = .next u) (hok : u.hasStatus .ok) {ws : List Byte}
    (h' : writes (byteField a vs.length) ws u = .next t) :
    (t.hasStatus .ok → writes a (vs ++ ws) s = .next t) ∧
      ∀ st info k, st ≠ .ok → t.resp = failureResponse st info k →
        writes a (vs ++ ws) s = .next { t with resp := failureResponse st info (k + vs.length) } := by
  obtain ⟨w, hw, rfl⟩ := writes_ok h hok
  have hsplit : writeLoop (vs ++ ws) (virtualAddress a) 0 s =
      (writeLoop ws (byteAddress a vs.length) 0 w).after vs.length := by
    rw [writeLoop_append, hw, LoopRes.andThen, ← byteAddress_eq, Nat.add_comm 0, writeLoop_after]
  have hsecond : writeLoop ws (byteAddress a vs.length) 0 (deliverOk 0 [] w) =
      (writeLoop ws (byteAddress a vs.length) 0 w).withResp _ := writeLoop_withResp _ _ _ w _
  rw [writes, virtualAddress_byteField, hsecond] at h'
  rw [writes, hsplit]
  cases hloop : writeLoop ws (byteAddress a vs.length) 0 w with
  | done data x =>
    rw [hloop] at h'
    cases h'
    exact ⟨fun _ => rfl, fun st info k hst hresp => absurd (congrArg (Option.map Response.status) hresp)
      (fun hc => hst (Option.some.inj hc).symm)⟩
  | stopped m k x =>
    rw [hloop] at h'
    cases h'
    refine ⟨fun hok => absurd (hasStatus_deliverFailure_iff.1 hok).symm k.status_ne_ok, fun st info j _ hresp => ?_⟩
    show Host.Outcome.next (deliverFailure k (vs.length + m) x) = _
    rw [Nat.add_comm]
    exact congrArg _ (deliverFailure_recount (s := x) hresp)

end

/-! ### READN and its reads -/

section
variable {s u t : State} {a : AField} {n : Nat} {data : List Byte}

/-- A READN that answers OK has run its loop to the end. -/
theorem readn_ok (hrun : s.mode = .run) (h : exec (.readn a n) s = .next u) (hu : u.resp = okResponse n data) :
    ∃ w, readLoop n (virtualAddress a) 0 [] s = .done data w ∧ w.mode = .run ∧
      u = deliverOk (BitVec.ofNat 32 n) data w := by
  rw [exec_readn_of_run hrun] at h
  rcases deliverLoop_next h with ⟨bytes, w, hw, rfl⟩ | ⟨_, k, w, _, rfl⟩
  · obtain rfl : bytes = data := congrArg Response.data (Option.some.inj hu)
    exact ⟨w, hw, (((traces_readLoop _ _ _ _ _).of_done hw).1.sameOutside.mode).trans hrun, rfl⟩
  · exact absurd (congrArg Response.status (Option.some.inj hu)) k.status_ne_ok

/-- One more byte after a loop that ran to its end. -/
theorem readLoop_succ_of_done {w : State} (h : readLoop n (virtualAddress a) 0 [] s = .done data w) :
    readLoop (n + 1) (virtualAddress a) 0 [] s = readLoop 1 (byteAddress a n) n data.reverse w := by
  rw [readLoop_add, h, LoopRes.andThen, ← byteAddress_eq, Nat.zero_add]

/-- The READ that follows a READN, from the loop of the READN: it reads the next byte of the loop's state. -/
theorem exec_read_after {w : State} {value : BitVec 32} (hrun : w.mode = .run) :
    exec (.read (byteField a n)) (deliverOk value data w) =
      deliver (fun b _ => b.zeroExtend 32) (readByte (byteAddress a n) w) := by
  rw [exec_read_of_run (s := deliverOk value data w) hrun, virtualAddress_byteField]
  have hbyte : readByte (byteAddress a n) (deliverOk value data w) = _ := ignoresResp_readByte _ w _
  rw [hbyte]
  cases readByte (byteAddress a n) w <;> rfl

end

end Sys2Proof.Machine

namespace Sys2Proof.Proofs

open Sys2Proof Sys2Proof.Machine

/-- Settles O43: the loop of `n + 1` bytes is the loop of `n` bytes and one read more, and the response that stands
between the two commands is not read. -/
theorem readnIsItsByteReads : Obligations.ReadnIsItsByteReads := by
  unfold Obligations.ReadnIsItsByteReads
  refine fun s a hrun => ⟨exec_readn_of_run hrun a 0, fun n u t data b h hu ht htb => ?ok,
    fun n u t data st info h hu hst ht hfail => ?fails, fun n t st info k h hfail hst => ?stopped⟩
  case ok =>
    obtain ⟨w, hw, hmode, rfl⟩ := readn_ok hrun h hu
    rw [exec_read_after hmode] at ht
    rcases deliver_next ht with ⟨c, x, hx, rfl⟩ | ⟨k, x, _, rfl⟩
    · have hbyte : c = b := by
        have := congrArg Response.value (Option.some.inj htb)
        bv_omega
      subst hbyte
      rw [exec_readn_of_run hrun, readLoop_succ_of_done hw, readLoop_succ_of_ok hx, readLoop, List.reverse_cons,
        List.reverse_reverse]
      rfl
    · exact absurd (congrArg Response.status (Option.some.inj htb)) k.status_ne_ok
  case fails =>
    obtain ⟨w, hw, hmode, rfl⟩ := readn_ok hrun h hu
    rw [exec_read_after hmode] at ht
    rcases deliver_next ht with ⟨c, x, hx, rfl⟩ | ⟨k, x, hx, rfl⟩
    · exact absurd (congrArg Response.status (Option.some.inj hfail)).symm hst
    · have hcount := deliverFailure_recount (j := n) hfail
      rw [Nat.zero_add] at hcount
      rw [exec_readn_of_run hrun, readLoop_succ_of_done hw, readLoop_succ_of_raise hx]
      exact congrArg _ hcount
  case stopped =>
    rw [exec_readn_of_run hrun] at h
    rcases deliverLoop_next h with ⟨_, _, _, rfl⟩ | ⟨m, j, w, hw, rfl⟩
    · exact absurd (congrArg Response.status (Option.some.inj hfail)).symm hst
    · rw [exec_readn_of_run hrun, readLoop_add, hw]
      rfl

/-- Settles O44: each of the three commands is a loop over a list of bytes, which `writes_append` cuts in two. -/
theorem writesAreTheirByteWrites : Obligations.WritesAreTheirByteWrites := by
  unfold Obligations.WritesAreTheirByteWrites
  intro s a hrun
  have hafter : ∀ {b : AField} {vs : List Byte} {u : State}, writes b vs s = .next u → u.hasStatus .ok →
      u.mode = .run := by
    intro b vs u h hok
    obtain ⟨w, hw, rfl⟩ := writes_ok h hok
    exact (((traces_writeLoop _ _ _ _).of_done hw).1.sameOutside.mode).trans hrun
  have hzeros (n : Nat) : List.replicate (n + 1) (0 : Byte) = List.replicate n 0 ++ [0] := List.replicate_succ'
  have hwrite := exec_write_eq_writes hrun a
  have hwritew : ∀ v1 v2, exec (.writew a v1 v2) s = writes a ([v1] ++ [v2]) s := exec_writew_of_run hrun a
  have hwritedw : ∀ v1 v2 v3 v4, exec (.writedw a v1 v2 v3 v4) s = writes a ([v1, v2] ++ [v3, v4]) s :=
    exec_writedw_of_run hrun a
  have hwritez : ∀ n, exec (.writez a n) s = writes a (List.replicate n 0) s := exec_writez_of_run hrun a
  refine ⟨fun v1 v2 u t h hok ht => ?second, fun v1 v2 t h hfail => ?first, fun v1 v2 v3 v4 u t h hok ht => ?third,
    fun v1 v2 v3 v4 t h hfail => ?firstTwo, hwritez 0, fun n u t h hok ht => ?last, fun n t h hfail => ?zeros⟩
  case second =>
    rw [hwrite] at h
    rw [exec_write_eq_writes (hafter h hok)] at ht
    obtain ⟨hdone, hstopped⟩ := writes_append h hok ht
    rw [hwritew]
    exact ⟨hdone, fun st info hst hresp => hstopped st info 0 hst hresp⟩
  case first =>
    rw [hwrite] at h
    rw [hwritew]
    exact writes_append_of_failure h hfail [v2]
  case third =>
    rw [hwritew] at h
    rw [exec_writew_of_run (hafter h hok)] at ht
    rw [hwritedw]
    exact writes_append h hok ht
  case firstTwo =>
    rw [hwritew] at h
    rw [hwritedw]
    exact writes_append_of_failure h hfail [v3, v4]
  case last =>
    rw [hwritez] at h
    rw [exec_write_eq_writes (hafter h hok)] at ht
    rw [hwritez, hzeros]
    have hlen : (List.replicate n (0 : Byte)).length = n := List.length_replicate
    obtain ⟨hdone, hstopped⟩ := writes_append h hok (hlen.symm ▸ ht)
    refine ⟨hdone, fun st info hst hresp => ?_⟩
    rw [hstopped st info 0 hst hresp, hlen, Nat.zero_add]
  case zeros =>
    rw [hwritez] at h
    rw [hwritez, hzeros]
    exact writes_append_of_failure h hfail [0]

end Sys2Proof.Proofs
end

section
/-!
HALT (spec/47_lifecycle.md R222): what the scan leaves after the pages of a list are evicted one after another, the scan of
all pages, and the scan up to the first write-back that fails.
-/

namespace Sys2Proof.Machine

/-! ### The state after the pages of a list are evicted -/

/-- The pages of a list that are written back when they are evicted: the resident dirty ones. -/
def State.dirtyIn (s : State) (l : List PageNumber) : List PageNumber :=
  l.filter fun q => (s.pte q).present && (s.pte q).dirty

/-- The store operations of an eviction of a list of pages that succeeds. -/
def writeBacks (s : State) (l : List PageNumber) : List StoreOp := (s.dirtyIn l).map fun q => ⟨.write, q, .ok⟩

/-- Each resident page of a list has been evicted as R190 says, and nothing else has changed. -/
structure PagesEvicted (s t : State) (l : List PageNumber) : Prop where
  mode : t.mode = s.mode
  canonical : t.MemoriesCanonical
  entry : ∀ p, p ∈ l → (s.pte p).present = true → t.pte p = (s.pte p).evicted
  freed : ∀ p, p ∈ l → (s.pte p).present = true → t.fte (s.pte p).frame = Fte.free
  zeroed : ∀ p, p ∈ l → (s.pte p).present = true → ∀ o, t.frameByte (s.pte p).frame o = 0
  otherEntries : ∀ p, ¬ (p ∈ l ∧ (s.pte p).present = true) → t.pte p = s.pte p
  otherFrames : ∀ f, (∀ p, p ∈ l → ¬ s.resident p f) → t.fte f = s.fte f
  otherBytes : ∀ f, (∀ p, p ∈ l → ¬ s.resident p f) → ∀ o, t.frameByte f o = s.frameByte f o
  written : ∀ p, p ∈ l → (s.pte p).present = true → (s.pte p).dirty = true → ∀ o,
    t.storeByte p o = s.frameByte (s.pte p).frame o
  otherStore : ∀ p, ¬ (p ∈ l ∧ (s.pte p).present = true ∧ (s.pte p).dirty = true) → ∀ o,
    t.storeByte p o = s.storeByte p o
  asked : Asked s t (writeBacks s l)

theorem pagesEvicted_nil {s : State} (hs : s.MemoriesCanonical) : PagesEvicted s s [] where
  mode := rfl
  canonical := hs
  entry := fun _ h => absurd h List.not_mem_nil
  freed := fun _ h => absurd h List.not_mem_nil
  zeroed := fun _ h => absurd h List.not_mem_nil
  otherEntries := fun _ _ => rfl
  otherFrames := fun _ _ => rfl
  otherBytes := fun _ _ _ => rfl
  written := fun _ h => absurd h List.not_mem_nil
  otherStore := fun _ _ _ => rfl
  asked := .refl s

theorem writeBacks_snoc (s : State) (l : List PageNumber) (p : PageNumber) :
    writeBacks s (l ++ [p]) = writeBacks s l ++ if (s.pte p).present && (s.pte p).dirty then [⟨.write, p, .ok⟩] else [] := by
  unfold writeBacks State.dirtyIn
  rw [List.filter_append, List.map_append]
  cases h : (s.pte p).present && (s.pte p).dirty <;> simp [h]

/-- The eviction of a page that is present as it was writes back what it would have written back at the start. -/
theorem writeBacks_snoc_of_present {s t : State} {p : PageNumber} (h : t.pte p = s.pte p)
    (hp : (s.pte p).present = true) (l : List PageNumber) :
    writeBacks s (l ++ [p]) = writeBacks s l ++ writeBack t p := by
  rw [writeBacks_snoc, writeBack, hp, h, Bool.true_and]

theorem writeBacks_snoc_of_absent {s : State} {p : PageNumber} (hp : (s.pte p).present = false) (l : List PageNumber) :
    writeBacks s (l ++ [p]) = writeBacks s l := by
  rw [writeBacks_snoc, hp]
  exact List.append_nil _

section
variable {s t u : State} {l : List PageNumber} {p : PageNumber}

theorem mem_snoc {q : PageNumber} : q ∈ l ++ [p] ↔ q ∈ l ∨ q = p := by simp

/-- A page of the list that is not present adds nothing. -/
theorem PagesEvicted.skip (h : PagesEvicted s t l) (hp : (s.pte p).present = false) : PagesEvicted s t (l ++ [p]) := by
  have hmem : ∀ q, q ∈ l ++ [p] → (s.pte q).present = true → q ∈ l := fun q hq hpr =>
    (mem_snoc.1 hq).resolve_right fun hqp => absurd (hp.symm.trans (hqp ▸ hpr)) (by decide)
  have hleft : ∀ q, q ∈ l → q ∈ l ++ [p] := fun q => List.mem_append_left [p]
  exact
    { mode := h.mode
      canonical := h.canonical
      entry := fun q hq hpr => h.entry q (hmem q hq hpr) hpr
      freed := fun q hq hpr => h.freed q (hmem q hq hpr) hpr
      zeroed := fun q hq hpr => h.zeroed q (hmem q hq hpr) hpr
      otherEntries := fun q hq => h.otherEntries q fun hc => hq ⟨hleft q hc.1, hc.2⟩
      otherFrames := fun f hf => h.otherFrames f fun q hq => hf q (hleft q hq)
      otherBytes := fun f hf => h.otherBytes f fun q hq => hf q (hleft q hq)
      written := fun q hq hpr => h.written q (hmem q hq hpr) hpr
      otherStore := fun q hq => h.otherStore q fun hc => hq ⟨hleft q hc.1, hc.2⟩
      asked := by rw [writeBacks_snoc_of_absent hp]; exact h.asked }

/-- The eviction of one more present page: its frame is no other page's (INV2), so the frames and the images of the pages
before it stay as they are, and its own frame still held its bytes. -/
theorem PagesEvicted.snoc (h : PagesEvicted s t l) (hwf : s.WellFormed) (hl : p ∉ l) (hp : (s.pte p).present = true)
    (hu : Evicted t u p) : PagesEvicted s u (l ++ [p]) := by
  obtain ⟨hmode, hcanonical, hdropped, hstore, hasked⟩ := hu
  have hpte : t.pte p = s.pte p := h.otherEntries p fun hc => hl hc.1
  obtain ⟨hentry, hentries, hframe, hframes, hzero, hbytes⟩ := hdropped
  simp only [hpte] at hentry hframe hframes hzero hbytes
  have hne : ∀ q, q ∈ l → q ≠ p := fun q hq hqp => hl (hqp ▸ hq)
  have hapart : ∀ q, q ∈ l → (s.pte q).present = true → (s.pte q).frame ≠ (s.pte p).frame := fun q hq hpr hf =>
    hne q hq (frame_injective hwf hpr hp hf)
  have hown : ∀ q, q ∈ l → ¬ s.resident q (s.pte p).frame := fun q hq hr => hapart q hq hr.1 hr.2
  have hotherFrame : ∀ f, (∀ q, q ∈ l ++ [p] → ¬ s.resident q f) → f ≠ (s.pte p).frame := fun f hf hfp =>
    hf p (mem_snoc.2 (.inr rfl)) ⟨hp, hfp.symm⟩
  have hleft : ∀ q, q ∈ l → q ∈ l ++ [p] := fun q => List.mem_append_left [p]
  refine ⟨hmode.trans h.mode, hcanonical, fun q hq hpr => ?entry, fun q hq hpr => ?freed, fun q hq hpr o => ?zeroed,
    fun q hq => ?otherEntries, fun f hf => ?otherFrames, fun f hf o => ?otherBytes, fun q hq hpr hd o => ?written,
    fun q hq o => ?otherStore, ?asked⟩
  case entry =>
    rcases mem_snoc.1 hq with hq | rfl
    · exact (hentries q (hne q hq)).trans (h.entry q hq hpr)
    · exact hentry
  case freed =>
    rcases mem_snoc.1 hq with hq | rfl
    · exact (hframes _ (hapart q hq hpr)).trans (h.freed q hq hpr)
    · exact hframe
  case zeroed =>
    rcases mem_snoc.1 hq with hq | rfl
    · exact (hbytes _ o (hapart q hq hpr)).trans (h.zeroed q hq hpr o)
    · exact hzero o
  case otherEntries =>
    have hqp : q ≠ p := fun hqp => hq ⟨mem_snoc.2 (.inr hqp), hqp ▸ hp⟩
    exact (hentries q hqp).trans (h.otherEntries q fun hc => hq ⟨hleft q hc.1, hc.2⟩)
  case otherFrames =>
    exact (hframes f (hotherFrame f hf)).trans (h.otherFrames f fun q hq => hf q (hleft q hq))
  case otherBytes =>
    exact (hbytes f o (hotherFrame f hf)).trans (h.otherBytes f (fun q hq => hf q (hleft q hq)) o)
  case written =>
    rcases mem_snoc.1 hq with hq | rfl
    · exact (hstore.otherPages (hne q hq) o).trans (h.written q hq hpr hd o)
    · have hw := ((storeEvicted_of_dirty (by rw [hpte]; exact hd)).1 hstore).written o
      rw [hpte] at hw
      exact hw.trans (h.otherBytes _ hown o)
  case otherStore =>
    have hkept := h.otherStore q (fun hc => hq ⟨hleft q hc.1, hc.2⟩) o
    by_cases hqp : q = p
    · subst hqp
      have hclean : (t.pte q).dirty = false := by
        rw [hpte]
        exact Bool.eq_false_iff.2 fun hd => hq ⟨mem_snoc.2 (.inr rfl), hp, hd⟩
      exact ((storeEvicted_of_clean hclean).1 hstore q o).trans hkept
    · exact (hstore.otherPages hqp o).trans hkept
  case asked =>
    rw [writeBacks_snoc_of_present hpte hp]
    exact h.asked.trans hasked

end

/-! ### The scan -/

theorem evictEach_append (l m : List PageNumber) (s : State) :
    evictEach (l ++ m) s = (evictEach l s).bind fun _ t => evictEach m t := by
  induction l generalizing s with
  | nil => rfl
  | cons p l ih =>
    show (evict p s).bind (fun _ t => evictEach (l ++ m) t) =
      ((evict p s).bind fun _ t => evictEach l t).bind fun _ t => evictEach m t
    cases evict p s with
    | ok _ t => exact ih t
    | raise k t => rfl

theorem evictEach_cons_of_ok {s t : State} {p : PageNumber} (h : evict p s = .ok () t) (l : List PageNumber) :
    evictEach (p :: l) s = evictEach l t := by
  rw [evictEach, h, bind_ok]

theorem evictEach_cons_of_raise {s t : State} {p : PageNumber} {k : Failure} (h : evict p s = .raise k t)
    (l : List PageNumber) : evictEach (p :: l) s = .raise k t := by
  rw [evictEach, h, bind_raise]

/-- The scan of a list without repetitions, every write-back answered ok (R222). -/
theorem evictEach_evicts {s : State} (hs : s.MemoriesCanonical) (hwf : s.WellFormed) (l : List PageNumber)
    (hl : l.Nodup) (hio : s.io.take (writeBacks s l).length = (writeBacks s l).map (·.answer)) :
    ∃ t, evictEach l s = .ok () t ∧ PagesEvicted s t l := by
  induction l using List.reverseRecOn with
  | nil => exact ⟨s, rfl, pagesEvicted_nil hs⟩
  | append_singleton l p ih =>
    obtain ⟨hnodup, _, hdisjoint⟩ := List.nodup_append.1 hl
    have hp : p ∉ l := fun hc => hdisjoint p hc p (List.mem_singleton_self p) rfl
    cases hpresent : (s.pte p).present with
    | false =>
      rw [writeBacks_snoc_of_absent hpresent] at hio
      obtain ⟨t, ht, hevicted⟩ := ih hnodup hio
      have hpte : (t.pte p).present = false := by rw [hevicted.otherEntries p fun hc => hp hc.1, hpresent]
      refine ⟨t, ?_, hevicted.skip hpresent⟩
      rw [evictEach_append, ht, bind_ok, evictEach_cons_of_ok (evict_of_absent hpte), evictEach]
    | true =>
      have hfirst : s.io.take (writeBacks s l).length = (writeBacks s l).map (·.answer) := by
        rw [writeBacks_snoc] at hio
        exact (take_append_answers hio).1
      obtain ⟨t, ht, hevicted⟩ := ih hnodup hfirst
      have hpte : t.pte p = s.pte p := hevicted.otherEntries p fun hc => hp hc.1
      rw [writeBacks_snoc_of_present hpte hpresent] at hio
      have hlast := (take_append_answers hio).2
      rw [← hevicted.asked.io] at hlast
      obtain ⟨u, hu, hdropped⟩ := evict_evicted hevicted.canonical (by rw [hpte, hpresent]) hlast
      refine ⟨u, ?_, hevicted.snoc hwf hp hpresent hdropped⟩
      rw [evictEach_append, ht, bind_ok, evictEach_cons_of_ok hu, evictEach]

/-- An eviction makes no page present. -/
theorem absent_of_evict {s t : State} {p q : PageNumber} (h : evict p s = .ok () t) (hq : (s.pte q).present = false) :
    (t.pte q).present = false := by
  cases hp : (s.pte p).present with
  | false =>
    rw [evict_of_absent hp] at h
    cases h
    exact hq
  | true =>
    rw [(evict_tables hp h).1]
    split
    · exact evicted_present _
    · exact hq

/-- After a completed scan none of its pages is present, nor any that was not present before it (R222). -/
theorem absent_of_evictEach {l : List PageNumber} {s t : State} (h : evictEach l s = .ok () t) (q : PageNumber)
    (hq : q ∈ l ∨ (s.pte q).present = false) : (t.pte q).present = false := by
  induction l generalizing s with
  | nil =>
    cases h
    exact hq.resolve_left List.not_mem_nil
  | cons p l ih =>
    obtain ⟨_, u, hu, ht⟩ := bind_eq_ok.1 h
    refine ih ht ?_
    rcases hq with hq | hq
    · rcases List.mem_cons.1 hq with rfl | hq
      · exact .inr (absent_of_evict_ok hu)
      · exact .inl hq
    · exact .inr (absent_of_evict hu hq)

/-! ### The pages below a page -/

theorem allPages_nodup : allPages.Nodup := allPages_sorted.imp fun h => BitVec.ne_of_lt h

/-- The scan of all pages comes to a page after exactly the pages below it. -/
theorem allPages_split (q : PageNumber) : ∃ l r, allPages = l ++ q :: r ∧ ∀ p, p ∈ l ↔ p < q := by
  obtain ⟨l, r, h⟩ := List.append_of_mem (mem_allPages q)
  have hsorted := allPages_sorted
  rw [h, List.pairwise_append, List.pairwise_cons] at hsorted
  obtain ⟨_, ⟨hright, _⟩, hleft⟩ := hsorted
  refine ⟨l, r, h, fun p => ⟨fun hp => hleft p hp q List.mem_cons_self, fun hp => ?_⟩⟩
  have hmem := mem_allPages p
  rw [h, List.mem_append, List.mem_cons] at hmem
  rcases hmem with hmem | rfl | hmem
  · exact hmem
  · exact absurd hp (BitVec.lt_irrefl p)
  · exact absurd (hright p hmem) (BitVec.lt_asymm hp)

/-- The resident dirty page at position `k` has `k` such pages below it. -/
theorem dirtyIn_below {s : State} {l r : List PageNumber} {q : PageNumber} {k : Nat} (h : allPages = l ++ q :: r)
    (hq : s.dirtyPages[k]? = some q) :
    (s.pte q).present = true ∧ (s.pte q).dirty = true ∧ s.dirtyIn l = s.dirtyPages.take k ∧ (s.dirtyIn l).length = k := by
  obtain ⟨hpresent, hdirty⟩ : (s.pte q).present = true ∧ (s.pte q).dirty = true := by
    have hmem := List.mem_of_getElem? hq
    simpa using (List.mem_filter.1 hmem).2
  have hsplit : s.dirtyPages = s.dirtyIn l ++ q :: s.dirtyIn r := by
    unfold State.dirtyPages State.dirtyIn
    rw [h, List.filter_append, List.filter_cons_of_pos (by simp [hpresent, hdirty])]
  have hnodup : s.dirtyPages.Nodup := allPages_nodup.filter _
  have hk : (s.dirtyIn l).length = k := by
    have hat : s.dirtyPages[(s.dirtyIn l).length]? = some q := by
      rw [hsplit, List.getElem?_append_right (Nat.le_refl _)]
      simp
    exact (List.getElem?_inj (List.getElem?_eq_some_iff.1 hat).1 hnodup).1 (hat.trans hq.symm)
  refine ⟨hpresent, hdirty, ?_, hk⟩
  rw [hsplit, ← hk, List.take_left]

theorem answers_of_writes (l : List PageNumber) :
    (l.map fun p => (⟨.write, p, .ok⟩ : StoreOp)).map (·.answer) = List.replicate l.length .ok := by
  rw [List.map_map]
  exact List.map_const'

/-- The pages written back by the scan of all pages. -/
theorem writeBacks_allPages (s : State) : writeBacks s allPages = s.dirtyPages.map fun p => ⟨.write, p, .ok⟩ := rfl

theorem exec_halt_of_run {s : State} (hrun : s.mode = .run) : exec .halt s =
    deliver (fun _ _ => 0) ((evictEach allPages s).bind fun _ t => .ok () (releasePool t)) := by
  show execHalt s = _
  rw [execHalt, whenRunning_run hrun]

end Sys2Proof.Machine

namespace Sys2Proof.Proofs

open Sys2Proof Sys2Proof.Machine

/-- Settles O25: the scan evicts every page, and the release that follows keeps the store. -/
theorem haltCompletes : Obligations.HaltCompletes := by
  unfold Obligations.HaltCompletes
  intro s hrun hwf hs hio
  have hanswers : s.io.take (writeBacks s allPages).length = (writeBacks s allPages).map (·.answer) := by
    rw [writeBacks_allPages, answers_of_writes, List.length_map, hio]
  obtain ⟨t, ht, hevicted⟩ := evictEach_evicts hs hwf allPages allPages_nodup hanswers
  have hasked := hevicted.asked
  rw [writeBacks_allPages] at hasked
  rw [exec_halt_of_run hrun, ht, bind_ok]
  refine ⟨_, rfl, rfl, rfl, hasked.input, hasked.ops, ?_, fun p o => ?_⟩
  · simpa using hasked.io
  · show t.storeByte p o = _
    by_cases hp : (s.pte p).present = true ∧ (s.pte p).dirty = true
    · rw [hevicted.written p (mem_allPages p) hp.1 hp.2, hp.1, hp.2]
      rfl
    · rw [hevicted.otherStore p fun hc => hp hc.2, if_neg (by simpa using hp)]

/-- Settles O26: evictions keep the virtual memory of a coherent state, and with no page present it is the store. -/
theorem haltDeliversVirtualMemory : Obligations.HaltDeliversVirtualMemory := by
  unfold Obligations.HaltDeliversVirtualMemory
  intro s t hrun hs h hok va
  rw [exec_halt_of_run hrun] at h
  obtain ⟨_, w, hw, rfl⟩ := ok_of_deliver h hok
  obtain ⟨_, u, hu, hreleased⟩ := bind_eq_ok.1 hw
  cases hreleased
  have hvm : u.vm va = s.vm va := ((keptByFaults_sound s).evictEach allPages ⟨hs, fun _ => rfl⟩).of_ok hu |>.2 va
  have habsent := absent_of_evictEach hu (pageOf va) (.inl (mem_allPages _))
  rw [← hvm, State.vm, habsent]
  rfl

/-- Settles O27: the scan is over the pages below `q`, with all their write-backs answered, and then the write-back of
`q`, which fails before anything of `q` is dropped. -/
theorem haltStopsAtFailedWriteBack : Obligations.HaltStopsAtFailedWriteBack := by
  unfold Obligations.HaltStopsAtFailedWriteBack
  intro s k q hrun hwf hs hq hio
  obtain ⟨l, r, hall, hbelow⟩ := allPages_split q
  obtain ⟨hpresent, hdirty, htake, hlen⟩ := dirtyIn_below hall hq
  have hql : q ∉ l := fun hc => BitVec.lt_irrefl q ((hbelow q).1 hc)
  have hnodup : l.Nodup := (List.nodup_append.1 (hall ▸ allPages_nodup)).1
  have hanswers : s.io.take (writeBacks s l ++ [(⟨.write, q, .fail⟩ : StoreOp)]).length =
      (writeBacks s l ++ [(⟨.write, q, .fail⟩ : StoreOp)]).map (·.answer) := by
    rw [List.map_append, writeBacks, answers_of_writes, List.length_append, List.length_map, hlen]
    exact hio
  obtain ⟨hbefore, hfail⟩ := take_append_answers hanswers
  obtain ⟨t, ht, hevicted⟩ := evictEach_evicts hs hwf l hnodup hbefore
  rw [← hevicted.asked.io] at hfail
  have hpte : t.pte q = s.pte q := hevicted.otherEntries q fun hc => hql hc.1
  have hraise := evict_of_dirty_fail (s := t) (p := q) (by rw [hpte, hpresent]) (by rw [hpte, hdirty])
    (IoAnswers.next_of_take_one hfail)
  have hasked := hevicted.asked.trans (asked_attempt hfail .write q)
  rw [writeBacks, htake] at hasked
  rw [exec_halt_of_run hrun, hall, evictEach_append, ht, bind_ok, evictEach_cons_of_raise hraise, bind_raise]
  have habove : ∀ p, q ≤ p → p ∉ l := fun p hp hc => BitVec.not_lt.2 hp ((hbelow p).1 hc)
  refine ⟨_, rfl, deliverFailure_backingStoreUnavailable_resp q 0 _, hevicted.mode.trans hrun, fun p hp hpr => ?evicted,
    fun p _ hpr => ?absent, fun p hp => ?above, fun f hf => ?frames, fun p o hp => ?store, hasked.deliverFailure _ 0⟩
  case evicted =>
    have hmem := (hbelow p).2 hp
    exact ⟨hevicted.entry p hmem hpr, hevicted.freed p hmem hpr, hevicted.zeroed p hmem hpr,
      fun o hd => hevicted.written p hmem hpr hd o⟩
  case absent => exact hevicted.otherEntries p fun hc => absurd (hpr.symm.trans hc.2) (by decide)
  case above =>
    exact ⟨hevicted.otherEntries p fun hc => habove p hp hc.1, hevicted.otherStore p fun hc => habove p hp hc.1⟩
  case frames =>
    have hf' : ∀ p, p ∈ l → ¬ s.resident p f := fun p hp => hf p ((hbelow p).1 hp)
    exact ⟨hevicted.otherFrames f hf', hevicted.otherBytes f hf'⟩
  case store => exact hevicted.otherStore p (fun hc => hp hc.2) o

end Sys2Proof.Proofs
end

section
/-!
The virtual memory (spec/20_memory.md section 4, R73): the loop of READN over it, and a LOAD of a page that is not present.
-/

namespace Sys2Proof.Machine

/-- The loop of READN reads the virtual memory, which its faults and marks keep (R73 (b), (d)). -/
theorem readLoop_sound {s : State} (h : Sound s) (a : AField) (n : Nat) :
    (readLoop n (virtualAddress a) 0 [] s).Sat
      (fun data t => SoundWith s t ∧ data = (List.range n).map fun k => s.vm (byteAddress a k)) fun _ _ _ => True := by
  induction n with
  | zero => exact ⟨.refl h, rfl⟩
  | succ n ih =>
    rw [readLoop_add]
    cases hloop : readLoop n (virtualAddress a) 0 [] s with
    | stopped m k t => trivial
    | done data t =>
      obtain ⟨hsound, rfl⟩ := ih.of_done hloop
      rw [LoopRes.andThen, ← byteAddress_eq]
      cases hbyte : readByte (byteAddress a n) t with
      | raise k u => rw [readLoop_succ_of_raise hbyte]; trivial
      | ok b u =>
        obtain ⟨hkept, rfl⟩ := (readByte_sound hsound.1 _).of_ok hbyte
        rw [readLoop_succ_of_ok hbyte, readLoop, hsound.2, List.reverse_cons, List.reverse_reverse]
        refine ⟨hsound.trans hkept, ?_⟩
        rw [List.range_succ, List.map_append]
        rfl

theorem exec_load_of_refused {s : State} (hrun : s.mode = .run) {p : PageNumber} (h : loadAllowed p s = false) :
    exec (.load p.toNat) s = .next (deliverFailure .contractViolation 0 s) := by
  show execLoad p.toNat s = _
  rw [execLoad, withPage_run hrun]
  exact if_neg (by rw [h]; decide)

/-- A LOAD that a well-formed state allows of a page that is not present goes to a free frame: an occupied one would be
the page's own, and the page resident in it (INV4, R193). -/
theorem free_of_loadAllowed {s : State} (hwf : s.WellFormed) {p : PageNumber} (hp : (s.pte p).present = false)
    (h : loadAllowed p s = true) : (s.fte (s.pte p).frame).occupied = false := by
  cases hocc : (s.fte (s.pte p).frame).occupied with
  | false => rfl
  | true =>
    have howner := (loadAllowed_iff.1 h).2 hocc
    have hresident := ((hwf.inv4 (s.pte p).frame).1 hocc).1
    rw [howner] at hresident
    exact absurd (hp.symm.trans hresident) (by decide)

/-- A LOAD of a page that is not present keeps the virtual memory, whatever it answers (R73 (d)). -/
theorem vm_load_of_absent {s t : State} {p : PageNumber} (hrun : s.mode = .run) (hs : Sound s)
    (hp : (s.pte p).present = false) (h : exec (.load p.toNat) s = .next t) (x : VirtualAddress) : t.vm x = s.vm x := by
  cases hallowed : loadAllowed p s with
  | false =>
    rw [exec_load_of_refused hrun hallowed] at h
    cases h
    rfl
  | true =>
    have hload := load_sound hs (loadAllowed_iff.1 hallowed).1 hp (free_of_loadAllowed hs.wellFormed hp hallowed)
    rw [exec_load_of_allowed hrun hallowed] at h
    rcases deliver_next h with ⟨_, u, hu, rfl⟩ | ⟨k, u, hu, rfl⟩
    · exact (hload.of_ok hu).1.2 x
    · exact (hload.of_raise hu).2 x

/-- A WRITE that does not answer OK has stored no byte. -/
theorem vm_write_of_failure {s t : State} {a : AField} {v : Byte} (hrun : s.mode = .run) (hs : Sound s)
    (h : exec (.write a v) s = .next t) (hfail : ¬ t.hasStatus .ok) (x : VirtualAddress) : t.vm x = s.vm x := by
  rw [exec_write_of_run hrun] at h
  rcases deliver_next h with ⟨_, u, _, rfl⟩ | ⟨k, u, hu, rfl⟩
  · exact absurd (hasStatus_deliverOk_iff.2 rfl) hfail
  · exact ((writeByte_sound hs _ v).of_raise hu).2 x

theorem byteLevel_of_storesBytes {i : Instr} (h : storesBytes i = true) : byteLevel i = true := by
  unfold storesBytes at h
  split at h
  · rfl
  · rfl
  · rfl
  · rfl
  · cases h

/-- The commands that write no byte and may not break coherence. -/
theorem keepsVm_of_no_byte {i : Instr} (hi : mayBreakCoherence i = false)
    (h : byteLevel i = false ∨ (∃ a, i = .read a) ∨ ∃ a n, i = .readn a n) : keepsVm i = true := by
  have hstores : storesBytes i = false := by
    rcases h with hbyte | ⟨a, rfl⟩ | ⟨a, n, rfl⟩
    · exact Bool.eq_false_iff.2 fun hc => absurd ((byteLevel_of_storesBytes hc).symm.trans hbyte) (by decide)
    · rfl
    · rfl
  rw [keepsVm, hi, hstores]
  rfl

end Sys2Proof.Machine

namespace Sys2Proof.Proofs

open Sys2Proof Sys2Proof.Machine

/-- Settles O54: a created pool is zero, and each access that answers OK reads or writes the virtual memory, however its
page was made present. -/
theorem virtualMemory : Obligations.VirtualMemory := by
  unfold Obligations.VirtualMemory
  refine ⟨fun s t h hok x => ?created, fun s t a hrun hs hok => ⟨fun h => ?read, fun n h => ?readn, fun v h x => ?write⟩⟩
  case created =>
    obtain rfl := created_of_memInit_ok h hok
    exact vm_createPool _ x
  case read =>
    rw [exec_read_of_run hrun] at h
    obtain ⟨b, u, hu, rfl⟩ := ok_of_deliver h hok
    obtain ⟨hkept, rfl⟩ := (readByte_sound hs _).of_ok hu
    exact ⟨deliverOk_zeroExtend_resp _ _ _, hkept.2⟩
  case readn =>
    rw [exec_readn_of_run hrun] at h
    rcases deliverLoop_next h with ⟨data, u, hu, rfl⟩ | ⟨_, k, u, _, rfl⟩
    · obtain ⟨hkept, rfl⟩ := (readLoop_sound hs a n).of_done hu
      exact ⟨rfl, hkept.2⟩
    · exact absurd (hasStatus_deliverFailure_iff.1 hok).symm k.status_ne_ok
  case write =>
    rw [exec_write_of_run hrun] at h
    obtain ⟨_, u, hu, rfl⟩ := ok_of_deliver h hok
    exact ((writeByte_sound hs _ v).of_ok hu).2 x

/-- Settles O55: the commands that write no byte are built from operations that keep the virtual memory; a failed WRITE
and a LOAD of a page that is not present are taken by themselves. -/
theorem virtualMemoryKept : Obligations.VirtualMemoryKept := by
  unfold Obligations.VirtualMemoryKept
  intro i s t hrun hs h ht hi x
  have hkeeps : keepsVm i = true → t.vm x = s.vm x := fun hk =>
    ((keptByCommands_soundWith s).exec h hk hrun (.refl hs) ht).2 x
  rcases hi with ⟨hc, hbyte | hread | hreadn | ⟨⟨a, v, rfl⟩, hfail⟩⟩ | ⟨p, rfl, hp⟩
  · exact hkeeps (keepsVm_of_no_byte hc (.inl hbyte))
  · exact hkeeps (keepsVm_of_no_byte hc (.inr (.inl hread)))
  · exact hkeeps (keepsVm_of_no_byte hc (.inr (.inr hreadn)))
  · exact vm_write_of_failure hrun hs h hfail x
  · exact vm_load_of_absent hrun hs hp h x

end Sys2Proof.Proofs
end
